-- ==== Sys2Proof/Word.lean ====
section
/-! DEFINITION. The plain data the whole model is written over: bytes, the five bus lines, their two levels, and the
Signal Set (spec 00_scope.md R7, R8). Nothing here computes more than a constant. -/

namespace Sys2Proof

/-- Eight bits, bit 7 the most significant (R8). -/
abbrev Byte := BitVec 8

/-- A unit number as stored in the registry and in an engine: 8 bits (20_memory.md R40, 10_state.md R21). -/
abbrev UnitNumber := BitVec 8

/-- A channel number of the Storage Backend: 4 bits (20_memory.md R40, R42). -/
abbrev Channel := BitVec 4

/-- The level of a line (R7): `act` is driven low (boolean false, bit 0), `rel` is pulled high (boolean true, bit 1). -/
inductive Level where
  | act
  | rel
deriving DecidableEq, Repr, Inhabited

/-- The five lines, in the spec's order (R7). -/
inductive Line where
  | srq
  | atn
  | clk
  | dat
  | rst
deriving DecidableEq, Repr, Inhabited

/-- A Signal Set: one level per line (R7). -/
structure SignalSet where
  srq : Level
  atn : Level
  clk : Level
  dat : Level
  rst : Level
deriving DecidableEq, Repr, Inhabited

/-- `ALL_REL`: all five lines released (R7). -/
def SignalSet.allRel : SignalSet := ⟨.rel, .rel, .rel, .rel, .rel⟩

end Sys2Proof
end

