-- ==== Sys2Proof/Config.lean ====
section
/-! DEFINITION. What an implementation fixes (the parameters of 00_scope.md R6), the Read Result of the Storage Backend
(10_state.md R25), and the values the spec leaves free, as constants without a body.

The parameters are one record, which `State` carries unchanged from step to step: a statement about every state is a
statement about every choice of parameters. -/

namespace Sys2Proof

/-- The parameters of R6 that belong to the block as a whole. `unit` and `port` are per engine and stand in the engine's
own record (10_state.md R21). Every timing parameter is a natural number of time units. -/
structure Config where
  /-- `NPORTS`: the number of slots of the bus multiplexer, at least 1 (D2). -/
  nports : Nat
  /-- `UNIT_SENTINEL`: the one unit number several participants may share (D4). -/
  unitSentinel : UnitNumber
  /-- `T_EOI`: rx, how long CLK stays released in Ready before the byte is taken as the last one. -/
  tEoi : Nat
  /-- `T_EOI_ACK`: rx, how long the receiver holds DAT active to acknowledge end-of-information. -/
  tEoiAck : Nat
  /-- `T_FRAME_HOLD`: rx, how long the receiver holds the frame acknowledge; at least 1. -/
  tFrameHold : Nat
  /-- `T_BITDONE_TIMEOUT`: rx, livelock time-out of state BitDone. -/
  tBitDoneTimeout : Nat
  /-- `T_TURN_HOLD`: how long mode TurnHold lasts. -/
  tTurnHold : Nat
  /-- `T_SETUP`: tx, pre-bit setup time. -/
  tSetup : Nat
  /-- `T_VALID`: tx, bit-valid hold time. -/
  tValid : Nat
  /-- `T_BB`: tx, inter-byte gap. -/
  tBb : Nat
  /-- `T_FRAME_TIMEOUT`: tx, frame acknowledgment timeout. -/
  tFrameTimeout : Nat
  /-- `T_EOI_HOLD`: tx, end-of-information hold time. -/
  tEoiHold : Nat
  /-- `TICK_CYCLES`: what every tick returns, at least 1 (D10). -/
  tickCycles : Nat
  /-- `CLOCK_MODE_IMPLEMENTED`: whether the configured bit-clocking mode is the modelled one (D11). -/
  clockModeImplemented : Bool
deriving DecidableEq, Repr, Inhabited

/-- The defaults of R6, the values the spec's test vectors use. None of them is in the source and no rule depends on
one. DESIGN CHOICE, log 1: `State.reset` takes them. Unsafe: a statement about `State.reset` is about these values. -/
def Config.defaults : Config where
  nports := 4
  unitSentinel := 255
  tEoi := 200
  tEoiAck := 60
  tFrameHold := 60
  tBitDoneTimeout := 1000
  tTurnHold := 80
  tSetup := 70
  tValid := 60
  tBb := 100
  tFrameTimeout := 1000
  tEoiHold := 250
  tickCycles := 10
  clockModeImplemented := true

/-- The ranges R6 gives for the parameters and the condition R117 asks of a model. -/
abbrev Config.ok (cfg : Config) : Prop :=
  1 ≤ cfg.nports ∧ 1 ≤ cfg.tickCycles ∧ 1 ≤ cfg.tFrameHold ∧ 1 ≤ cfg.tSetup + cfg.tValid

/-- What fixes one engine when it is created: its unit number and the slot it uses (R6, 10_state.md R21). -/
structure Wiring where
  unit : UnitNumber
  port : Nat
deriving DecidableEq, Repr, Inhabited

/-- The value `Backend.read` returns (10_state.md R25): with `eos` set there is no data and `byte` and `last` carry
nothing (D36); otherwise `byte` is a data byte and `last` says whether it is the last of the stream. -/
structure ReadResult where
  byte : Byte
  last : Bool
  eos : Bool
deriving DecidableEq, Repr, Inhabited

/-- FREE VALUE, log 2: what the Storage Backend answers to a read for which no answer has been handed in. The spec:
any Read Result at all may come back (20_memory.md R45). Applied to `State.free`, which every use advances. Safe. -/
opaque Config.freeAnswer : Nat → ReadResult

/-- FREE VALUE, log 3: `slot[p].unit` after a RESET, which the spec leaves unspecified (70_reset_and_hazards.md R220 ii,
10_state.md R27). Applied to `State.free`, which every use advances. Safe. -/
opaque Config.freeUnit : Nat → UnitNumber

end Sys2Proof
end

