-- ==== Sys2Proof/Syntax.lean ====
section
/-! DEFINITION. The instructions: one constructor per row of spec/opcode_table.json, in the table's order. The first
seven are the command bytes an engine receives under ATN (00_scope.md R2 i); the last eight are the operations the
block's interfaces accept (R2 ii, 30_encoding.md R69). -/

namespace Sys2Proof

inductive Instr where
  /-- UNLISTEN, the byte 0x3F (42_commands.md R134). -/
  | unlisten
  /-- UNTALK, the byte 0x5F (R135). -/
  | untalk
  /-- LISTEN u (R132); the addressed unit is five bits. -/
  | listen (u : BitVec 5)
  /-- TALK u (R133). -/
  | talk (u : BitVec 5)
  /-- REOPEN c (R139). -/
  | reopenChannel (c : Channel)
  /-- CLOSE c (R138). -/
  | closeChannel (c : Channel)
  /-- OPEN c (R137). -/
  | openChannel (c : Channel)
  /-- RESET (70_reset_and_hazards.md R220). -/
  | reset
  /-- ATTACH(p, u) (40_bus_ops.md R80). -/
  | attach (p : Nat) (u : UnitNumber)
  /-- DETACH(p) (R81). -/
  | detach (p : Nat)
  /-- MERGED() (R82). -/
  | merged
  /-- RECOMPUTE() (R83). -/
  | recompute
  /-- PIN_WRITE(p, L, lv) (R85). -/
  | pinWrite (p : Nat) (l : Line) (lv : Level)
  /-- PIN_READ(p) (R86). -/
  | pinRead (p : Nat)
  /-- TICK(E, elapsed) (41_mode_dispatcher.md R100); `e` is the engine's index. -/
  | tick (e : Nat) (elapsed : Nat)
deriving DecidableEq, Repr, Inhabited

/-- Whether an instruction is one of the seven command bytes (it is an operation otherwise). -/
def Instr.isCommand : Instr → Bool
  | .unlisten | .untalk | .listen _ | .talk _ | .reopenChannel _ | .closeChannel _ | .openChannel _ => true
  | .reset | .attach _ _ | .detach _ | .merged | .recompute | .pinWrite _ _ _ | .pinRead _ | .tick _ _ => false

end Sys2Proof
end

