-- ==== Sys2Proof/WellFormed.lean ====
section
/-! DEFINITION. Which instructions are well formed. Two kinds of check: what the encoding admits (a LISTEN or TALK of
unit 31 is the UNLISTEN or UNTALK byte, 20_memory.md R41), and whether the port and the engine an operation names exist
(40_bus_ops.md R80 v: a port outside 0 .. NPORTS-1 is not an operation of the block). -/

namespace Sys2Proof

/-- The unit of a LISTEN or TALK is 0 .. 30 (30_encoding.md R66). -/
def Instr.unitAddressable : Instr → Bool
  | .listen u => u != 31
  | .talk u => u != 31
  | .unlisten | .untalk | .reopenChannel _ | .closeChannel _ | .openChannel _ => true
  | .reset | .attach _ _ | .detach _ | .merged | .recompute | .pinWrite _ _ _ | .pinRead _ | .tick _ _ => true

/-- The port an operation names is a slot of the multiplexer (R80 v). -/
def Instr.portInRange (nports : Nat) : Instr → Bool
  | .attach p _ => p < nports
  | .detach p => p < nports
  | .pinWrite p _ _ => p < nports
  | .pinRead p => p < nports
  | .unlisten | .untalk | .listen _ | .talk _ | .reopenChannel _ | .closeChannel _ | .openChannel _ => true
  | .reset | .merged | .recompute | .tick _ _ => true

/-- The engine a TICK names exists (41_mode_dispatcher.md R100). -/
def Instr.engineInRange (nengines : Nat) : Instr → Bool
  | .tick e _ => e < nengines
  | .unlisten | .untalk | .listen _ | .talk _ | .reopenChannel _ | .closeChannel _ | .openChannel _ => true
  | .reset | .attach _ _ | .detach _ | .merged | .recompute | .pinWrite _ _ _ | .pinRead _ => true

/-- Well formed for a block with `nports` slots and `nengines` engines. -/
def Instr.wf (nports nengines : Nat) (i : Instr) : Bool :=
  i.unitAddressable && i.portInRange nports && i.engineInRange nengines

end Sys2Proof
end

