-- ==== Sys2Proof/Decode.lean ====
section
/-! DEFINITION. The decoder, total on any bytes, and the encoder.

Two code spaces meet here. A COMMAND BYTE is the byte an engine has received; it is decoded by `decodeCommand`
(30_encoding.md R64, R65; 42_commands.md R130). An OPERATION is named by the 4-bit `opsel` of 30_encoding.md R69; the
spec gives its operands no bits, so the model carries them as bytes after the `opsel` byte (DESIGN CHOICE, log 4): a
port, an engine and a time as a number of any size, a unit number, a line index and a level as one byte each. The two
spaces do not meet: 0x00 .. 0x0F is no command byte, and a byte with a non-zero upper half is no `opsel`. -/

namespace Sys2Proof

/-- Why bytes do not decode. -/
inductive DecodeError where
  /-- There is no byte to decode. -/
  | noBytes
  /-- `opsel` 8 .. 15 is unused (D35), and a byte above 0x0F is no `opsel`. -/
  | unusedOpsel (b : Byte)
  /-- The bytes end inside the operands. -/
  | missingOperand
  /-- The line operand of PIN_WRITE is not 0 .. 4 (R69, R7). -/
  | noSuchLine (b : Byte)
  /-- The level operand of PIN_WRITE is not 0 or 1 (R69). -/
  | noSuchLevel (b : Byte)
  /-- The byte is no command byte: 0x00 .. 0x1F and 0x70 .. 0xDF (R67). -/
  | invalidCommand (b : Byte)
deriving DecidableEq, Repr, Inhabited

/-! ## Command bytes -/

/-- `parse_command(b)` (42_commands.md R130), the tests in the order of 30_encoding.md R64: the exact bytes first, then
the 3-bit patterns, then the 4-bit patterns. -/
def decodeCommand (b : Byte) : Except DecodeError Instr :=
  if b = 0x3F#8 then .ok .unlisten
  else if b = 0x5F#8 then .ok .untalk
  else if b &&& 0xE0#8 = 0x20#8 then .ok (.listen ((b &&& 0x1F#8).setWidth 5))
  else if b &&& 0xE0#8 = 0x40#8 then .ok (.talk ((b &&& 0x1F#8).setWidth 5))
  else if b &&& 0xF0#8 = 0x60#8 then .ok (.reopenChannel ((b &&& 0x0F#8).setWidth 4))
  else if b &&& 0xF0#8 = 0xE0#8 then .ok (.closeChannel ((b &&& 0x0F#8).setWidth 4))
  else if b &&& 0xF0#8 = 0xF0#8 then .ok (.openChannel ((b &&& 0x0F#8).setWidth 4))
  else .error (.invalidCommand b)

/-! ## Operands of operations (DESIGN CHOICE, log 4) -/

/-- A natural number as bytes, seven bits a byte, the least significant seven first, bit 7 set on every byte but the
last. -/
def decodeNat : List Byte → Option (Nat × List Byte)
  | [] => none
  | b :: rest =>
    if b.toNat < 128 then some (b.toNat, rest)
    else
      match decodeNat rest with
      | none => none
      | some (n, rest') => some (b.toNat - 128 + 128 * n, rest')

/-- `encodeNat` with the recursion's bound made explicit. -/
def encodeNatWithin : Nat → Nat → List Byte
  | 0, n => [BitVec.ofNat 8 n]
  | f + 1, n => if n < 128 then [BitVec.ofNat 8 n] else BitVec.ofNat 8 (n % 128 + 128) :: encodeNatWithin f (n / 128)

/-- The bytes of a natural number; `n` itself bounds the number of bytes after the first. -/
def encodeNat (n : Nat) : List Byte := encodeNatWithin n n

/-- The line operand: the bit index of 00_scope.md R7. -/
def decodeLine (b : Byte) : Option Line :=
  if b = 0#8 then some .srq
  else if b = 1#8 then some .atn
  else if b = 2#8 then some .clk
  else if b = 3#8 then some .dat
  else if b = 4#8 then some .rst
  else none

def encodeLine : Line → Byte
  | .srq => 0
  | .atn => 1
  | .clk => 2
  | .dat => 3
  | .rst => 4

/-- The level operand: 1 is `rel`, 0 is `act` (R69). -/
def decodeLevel (b : Byte) : Option Level :=
  if b = 0#8 then some .act
  else if b = 1#8 then some .rel
  else none

def encodeLevel : Level → Byte
  | .act => 0
  | .rel => 1

/-- Read one number operand and go on. -/
def withNat (bs : List Byte) (k : Nat → List Byte → Except DecodeError (Instr × List Byte)) :
    Except DecodeError (Instr × List Byte) :=
  match decodeNat bs with
  | none => .error .missingOperand
  | some (n, rest) => k n rest

/-- Read one byte operand and go on. -/
def withByte (bs : List Byte) (k : Byte → List Byte → Except DecodeError (Instr × List Byte)) :
    Except DecodeError (Instr × List Byte) :=
  match bs with
  | [] => .error .missingOperand
  | b :: rest => k b rest

/-! ## Operations -/

/-- PIN_WRITE's operands: port, line, level. -/
def decodePinWrite (bs : List Byte) : Except DecodeError (Instr × List Byte) :=
  withNat bs fun p r1 => withByte r1 fun lb r2 => withByte r2 fun vb r3 =>
    match decodeLine lb with
    | none => .error (.noSuchLine lb)
    | some l =>
      match decodeLevel vb with
      | none => .error (.noSuchLevel vb)
      | some lv => .ok (.pinWrite p l lv, r3)

/-- One operation, and the bytes after it (30_encoding.md R69). -/
def decodeOperation : List Byte → Except DecodeError (Instr × List Byte)
  | [] => .error .noBytes
  | b :: rest =>
    if b = 0#8 then .ok (.reset, rest)
    else if b = 1#8 then withNat rest fun p r => withByte r fun u r' => .ok (.attach p u, r')
    else if b = 2#8 then withNat rest fun p r => .ok (.detach p, r)
    else if b = 3#8 then .ok (.merged, rest)
    else if b = 4#8 then .ok (.recompute, rest)
    else if b = 5#8 then decodePinWrite rest
    else if b = 6#8 then withNat rest fun p r => .ok (.pinRead p, r)
    else if b = 7#8 then withNat rest fun e r => withNat r fun k r' => .ok (.tick e k, r')
    else .error (.unusedOpsel b)

/-- One instruction of either code space, and the bytes after it. -/
def decode : List Byte → Except DecodeError (Instr × List Byte)
  | [] => .error .noBytes
  | b :: rest =>
    if b.toNat < 16 then decodeOperation (b :: rest)
    else
      match decodeCommand b with
      | .ok i => .ok (i, rest)
      | .error err => .error err

/-- The bytes of an instruction: a command's one byte (30_encoding.md R65), or an operation's `opsel` and operands. -/
def encode : Instr → List Byte
  | .unlisten => [0x3F#8]
  | .untalk => [0x5F#8]
  | .listen u => [0x20#8 ||| u.setWidth 8]
  | .talk u => [0x40#8 ||| u.setWidth 8]
  | .reopenChannel c => [0x60#8 ||| c.setWidth 8]
  | .closeChannel c => [0xE0#8 ||| c.setWidth 8]
  | .openChannel c => [0xF0#8 ||| c.setWidth 8]
  | .reset => [0#8]
  | .attach p u => 1#8 :: (encodeNat p ++ [u])
  | .detach p => 2#8 :: encodeNat p
  | .merged => [3#8]
  | .recompute => [4#8]
  | .pinWrite p l lv => 5#8 :: (encodeNat p ++ [encodeLine l, encodeLevel lv])
  | .pinRead p => 6#8 :: encodeNat p
  | .tick e k => 7#8 :: (encodeNat e ++ encodeNat k)

/-! ## Words as spec/opcode_table.json numbers their bits -/

/-- The lowest `n` bytes of `w`, the least significant first. -/
def wordBytes : Nat → Nat → List Byte
  | 0, _ => []
  | n + 1, w => BitVec.ofNat 8 w :: wordBytes n (w / 256)

/-- A table word of `nbits` bits as bytes in whole bytes, followed by zero bytes up to the longest all-zero operand
list (PIN_WRITE's three). -/
def tableBytes (nbits w : Nat) : List Byte :=
  wordBytes ((nbits + 7) / 8) w ++ [0#8, 0#8, 0#8]

/-- The instruction the decoder reads from a table word. -/
def decodeTableWord (nbits w : Nat) : Option Instr :=
  match decode (tableBytes nbits w) with
  | .ok (i, _) => some i
  | .error _ => none

/-- The bytes of a table word, with just as many of the zero bytes above it as its instruction reads. -/
def tableInstrBytes (nbits w : Nat) : List Byte :=
  match decode (tableBytes nbits w) with
  | .ok (_, rest) => (tableBytes nbits w).take ((tableBytes nbits w).length - rest.length)
  | .error _ => wordBytes ((nbits + 7) / 8) w

end Sys2Proof
end

