-- ==== Sys2Proof/Machine/State.lean ====
section
/-! DEFINITION. Everything the spec gives the machine (10_state.md R10 to R27), the reasons a step can stop, and the
state after reset. All of it is plain data. -/

namespace Sys2Proof.Machine

/-! ## The bus multiplexer (10_state.md section 1) -/

/-- One slot of the registry (R10). -/
structure Slot where
  /-- Whether a participant is registered in this slot. -/
  attached : Bool
  /-- The unit number it registered with; meaningful only while `attached`. -/
  unit : UnitNumber
  /-- `own[p]`: the levels the participant drives. -/
  own : SignalSet
deriving DecidableEq, Repr, Inhabited

/-- The registry and the stored merged lines (R10, R11). -/
structure Bus where
  slots : List Slot
  merged : SignalSet
deriving DecidableEq, Repr, Inhabited

/-! ## The engine (10_state.md section 2) -/

/-- `E.mode`, the protocol phase (R15). -/
inductive Mode where
  | idle
  | command
  | secondary
  | data
  | turnaround
  | turnHold
  | talker
  | wait
deriving DecidableEq, Repr, Inhabited

/-- `E.role` (R16). -/
inductive Role where
  | passive
  | listener
  | talker
deriving DecidableEq, Repr, Inhabited

/-- `E.state`, the handshake phase inside a byte (R17); one register serves both chains (D12). -/
inductive Handshake where
  | idle
  | init
  | ready
  | eoi
  | bitWait
  | bitDone
  | frame
  | frameWait
deriving DecidableEq, Repr, Inhabited

/-- `E.cmd.code` (R19); `noCommand` is the spec's `None`. -/
inductive CommandCode where
  | noCommand
  | listen
  | talk
  | unlisten
  | untalk
  | openChannel
  | closeChannel
  | reopenChannel
deriving DecidableEq, Repr, Inhabited

/-- `E.cmd`, the Parsed Command (R19). -/
structure ParsedCommand where
  code : CommandCode
  /-- The addressed unit (5 bits) or channel (4 bits, upper bit 0). -/
  arg : BitVec 5
  /-- The parameter bytes, in arrival order, without bound (D37). -/
  param : List Byte
deriving DecidableEq, Repr, Inhabited

/-- `cmd_empty` (R19). -/
def ParsedCommand.empty : ParsedCommand := ⟨.noCommand, 0, []⟩

/-- `E.tr`, the Byte Transceiver (R20). -/
structure Transceiver where
  /-- The byte being moved; bit `i` of the byte is bit `i` of `value` throughout. -/
  value : Byte
  /-- The "last byte" flag (end-of-information). -/
  last : Bool
  /-- The "ready" flag: no byte is in transfer. -/
  ready : Bool
  /-- The number of bits already moved, 0 .. 8. -/
  cursor : Nat
deriving DecidableEq, Repr, Inhabited

/-- `tr_empty` (R20, D14). -/
def Transceiver.empty : Transceiver := ⟨0, false, true, 0⟩

/-- An event of the log (60_exceptions.md R190). -/
inductive Event where
  /-- Code 1, with the offending byte (R192). -/
  | invalidCommand (b : Byte)
  /-- Code 2 (R193). -/
  | frameTimeout
  /-- Code 3 (R195). -/
  | bitDoneTimeout
  /-- Code 4 (R196). -/
  | unimplementedClockMode
deriving DecidableEq, Repr, Inhabited

/-- A call of the Storage Backend with its arguments (20_memory.md R46 to R50). -/
inductive BackendCall where
  | openCall (ch : Channel) (param : List Byte)
  | readCall (ch : Channel)
  | pushBackCall (ch : Channel)
  | closeCall (ch : Channel)
  | writeCall (ch : Channel) (bytes : List Byte)
deriving DecidableEq, Repr, Inhabited

/-- One engine's state record `E` (R14 to R23), its two output streams (R24) and what its Storage Backend is about to
answer. -/
structure Engine where
  /-- This engine's own unit number, fixed at its creation (R21). -/
  unit : UnitNumber
  /-- The slot through which this engine is attached, fixed at its creation (R21). -/
  port : Nat
  mode : Mode
  role : Role
  state : Handshake
  /-- `E.time`, the elapsed-virtual-time counter, an unbounded natural (R18, D9). -/
  time : Nat
  cmd : ParsedCommand
  tr : Transceiver
  /-- The log, oldest event first (60_exceptions.md R190); no rule reads it. -/
  log : List Event
  /-- The backend call trace, oldest call first (20_memory.md R45); no rule reads it. -/
  calls : List BackendCall
  /-- MODEL'S OWN, log 2: the answers the environment has handed in for the next reads of this engine's Storage Backend,
  the next one first. When it is empty a read is answered by the free value `Config.freeAnswer`. -/
  answers : List ReadResult
deriving DecidableEq, Repr, Inhabited

/-! ## The machine -/

/-- What TICK returns (41_mode_dispatcher.md R100, R118). -/
inductive TickResult where
  | cycles (n : Nat)
  | halt
deriving DecidableEq, Repr, Inhabited

/-- The result of an operation (30_encoding.md R69). -/
inductive OpResult where
  | noResult
  | bool (b : Bool)
  | lines (v : SignalSet)
  | tick (r : TickResult)
deriving DecidableEq, Repr, Inhabited

/-- The whole machine: the multiplexer, the engines, and the model's own fields. -/
structure State where
  /-- The parameters of 00_scope.md R6; no step changes them. -/
  cfg : Config
  bus : Bus
  /-- The engines of the block, any number up to `NPORTS` (60_exceptions.md R208). -/
  engines : List Engine
  /-- MODEL'S OWN, log 5: the operations the agents of 20_memory.md R54 perform next, in their one total order, as the
  bytes of `encode`. -/
  schedule : List Byte
  /-- MODEL'S OWN, log 6: the engine whose receive machine has just returned `Complete(b)` in mode Command or Secondary
  and whose byte is about to be dispatched. It is `none` between operations. -/
  dispatching : Option Nat
  /-- MODEL'S OWN, log 7: the result of the last operation. -/
  result : OpResult
  /-- MODEL'S OWN, logs 2 and 3: how many free values have been used; every use reads and advances it. -/
  free : Nat
deriving DecidableEq, Repr, Inhabited

/-- What one engine's rules act on during its tick: its own record, the multiplexer, the parameters, and the counter of
free values. Nothing else of the machine is within an engine's reach (60_exceptions.md R208). -/
structure Ctx where
  cfg : Config
  bus : Bus
  eng : Engine
  free : Nat
deriving DecidableEq, Repr, Inhabited

/-- What one call of the receive machine returns (43_byte_rx.md). -/
inductive RxResult where
  | noProgress
  | progress
  | complete (b : Byte)
deriving DecidableEq, Repr, Inhabited

/-- Where control goes after an error condition: mode Wait or mode Idle, nowhere else (60_exceptions.md R200). -/
inductive Landing where
  | wait
  | idle
deriving DecidableEq, Repr, Inhabited

/-! ## Why a step stops -/

/-- The machine stops with a fault. -/
inductive Fault where
  /-- Raised by TICK when the advance loop of 41_mode_dispatcher.md R100 has made `passLimit` passes and would go on.
  R117: the loop ends; the limit is above every chain of passes, so the fault is never raised (log 8). Safe. -/
  | tickUnsettled (e : Nat)
deriving DecidableEq, Repr, Inhabited

/-- There is no meaning for what was asked. -/
inductive Refusal where
  /-- Raised by an arm of `exec` that has no meaning. Safe. -/
  | notModelled (mnemonic : String)
  /-- Raised by an operation that names a port outside 0 .. NPORTS-1, which is "not an operation of the block"
  (40_bus_ops.md R80 v). Safe. -/
  | noSuchPort (p : Nat)
  /-- Raised by a TICK of an engine the block does not have (41_mode_dispatcher.md R100 takes an engine as operand), and
  by a command byte dispatched for one. Safe. -/
  | noSuchEngine (e : Nat)
  /-- Raised by a command when no engine has just completed a command byte: a command byte is executed only at the
  moment the receive machine returns `Complete(b)` (42_commands.md, opening). Safe. -/
  | noCompletedByte
  /-- Raised by the fetch of scheduled bytes that name no operation (30_encoding.md R69, D35). Safe. -/
  | undecodable (err : DecodeError)
deriving DecidableEq, Repr, Inhabited

/-- What the next step has to do. -/
inductive Fetched where
  /-- No agent has an operation to perform. -/
  | nothing
  /-- An operation of the schedule, and the state with its bytes taken off the schedule. -/
  | operation (i : Instr) (s : State)
  /-- Engine `e` has completed the command byte that decodes to `i`. -/
  | command (e : Nat) (i : Instr)
  /-- Engine `e` has completed the byte `b`, which is no command. -/
  | invalidByte (e : Nat) (b : Byte)
  /-- There is nothing the machine can do. -/
  | stop (r : Refusal)
deriving Repr

/-! ## Reset -/

/-- A slot right after power-on (10_state.md R27). `unit` is unspecified there; 0 is the model's value, DESIGN CHOICE,
log 9, unsafe. -/
def Slot.atReset : Slot := ⟨false, 0, .allRel⟩

/-- An engine right after it is created (10_state.md R27, D34). -/
def Engine.atReset (w : Wiring) : Engine where
  unit := w.unit
  port := w.port
  mode := .idle
  role := .passive
  state := .idle
  time := 0
  cmd := .empty
  tr := .empty
  log := []
  calls := []
  answers := []

/-- The power-on state of a block with these parameters and these engines (R27, 70_reset_and_hazards.md R220). -/
def State.atReset (cfg : Config) (engines : List Wiring) : State where
  cfg := cfg
  bus := ⟨List.replicate cfg.nports Slot.atReset, .allRel⟩
  engines := engines.map Engine.atReset
  schedule := []
  dispatching := none
  result := .noResult
  free := 0

/-- The machine right after reset: the default parameters of R6 and the two engines of the spec's test programs, unit 8
on port 0 and unit 9 on port 2 (95_test_vectors.md section 3). DESIGN CHOICE, log 1, unsafe: R6 leaves all of it open.
RESET attaches nobody (R220 iii): an engine that is never attached and never ticked has no effect. -/
def State.reset : State := State.atReset Config.defaults [⟨8, 0⟩, ⟨9, 2⟩]

end Sys2Proof.Machine
end

