-- ==== Sys2Proof/Machine/Operands.lean ====
section
/-! DEFINITION. The operand forms of the block: one line of a Signal Set, one bit of a byte, a unit or channel taken from
a five-bit field (00_scope.md R7, R8; 20_memory.md R40 to R42, R52). -/

namespace Sys2Proof

/-- The level of one line. -/
def SignalSet.get (v : SignalSet) : Line → Level
  | .srq => v.srq
  | .atn => v.atn
  | .clk => v.clk
  | .dat => v.dat
  | .rst => v.rst

/-- The Signal Set with one line set to a level. -/
def SignalSet.set (v : SignalSet) (l : Line) (lv : Level) : SignalSet :=
  match l with
  | .srq => { v with srq := lv }
  | .atn => { v with atn := lv }
  | .clk => { v with clk := lv }
  | .dat => { v with dat := lv }
  | .rst => { v with rst := lv }

/-- A level as the spec's bit: `rel` is 1, `act` is 0 (R7, 20_memory.md R52). -/
def Level.toBit : Level → Bool
  | .rel => true
  | .act => false

/-- The level that carries a bit on DAT (20_memory.md R52). -/
def Level.ofBit (b : Bool) : Level := if b then .rel else .act

/-- A Signal Set as the 5-bit vector of R7: bit 0 SRQ, 1 ATN, 2 CLK, 3 DAT, 4 RST. -/
def SignalSet.toBits (v : SignalSet) : BitVec 5 :=
  BitVec.ofBool v.rst.toBit ++ BitVec.ofBool v.dat.toBit ++ BitVec.ofBool v.clk.toBit ++ BitVec.ofBool v.atn.toBit ++
    BitVec.ofBool v.srq.toBit

namespace Machine

/-- The numeric code of a log event (60_exceptions.md R190). -/
def Event.code : Event → Nat
  | .invalidCommand _ => 1
  | .frameTimeout => 2
  | .bitDoneTimeout => 3
  | .unimplementedClockMode => 4

/-- `value[cursor]` (44_byte_tx.md R171). -/
def bitAt (value : Byte) (cursor : Nat) : Bool := value.getLsbD cursor

/-- `value | (1 << cursor)` when the sampled level is `rel`, `value` otherwise (43_byte_rx.md R154). -/
def sampleBit (value : Byte) (cursor : Nat) (d : Level) : Byte :=
  if d = .rel then value ||| (1#8 <<< cursor) else value

/-- `zext_8(arg)`, to be compared with a unit number (30_encoding.md R61). -/
def unitOfArg (arg : BitVec 5) : UnitNumber := arg.setWidth 8

/-- `zext_5` of a channel field (30_encoding.md R62). -/
def argOfChannel (c : Channel) : BitVec 5 := c.setWidth 5

/-- The channel passed to the Storage Backend: `arg[3:0]` (93_implementation_defined.md U30, 20_memory.md R42). -/
def channelOfArg (arg : BitVec 5) : Channel := arg.setWidth 4

end Machine
end Sys2Proof
end

