-- ==== Sys2Proof/Machine/Flags.lean ====
section
/-! DEFINITION. The flags of the block and everything that sets, clears or tests one (10_state.md R22): the transceiver's
`last` and `ready`, and the time-threshold test (41_mode_dispatcher.md R119). There is no condition-code register. -/

namespace Sys2Proof.Machine

/-- The transceiver at the start of a reception: empty but for `ready`, which is cleared (43_byte_rx.md R150). -/
def rxStart : Transceiver := { Transceiver.empty with ready := false }

/-- `load_byte(res)` (44_byte_tx.md R170): `last` is loaded, `ready` cleared. -/
def txLoad (res : ReadResult) : Transceiver := ⟨res.byte, res.last, false, 0⟩

/-- `E.tr.last <- true` (43_byte_rx.md R152). -/
def markLast (tr : Transceiver) : Transceiver := { tr with last := true }

/-- `E.tr.ready <- true` (43_byte_rx.md R157, 44_byte_tx.md R178). -/
def markReady (tr : Transceiver) : Transceiver := { tr with ready := true }

/-- `E.time >= T`: met in the first tick in which the sum reaches the threshold (41_mode_dispatcher.md R119). -/
def timeReached (E : Engine) (threshold : Nat) : Bool := threshold ≤ E.time

/-- Whether the recorded command is of the secondary class (42_commands.md R130). -/
def CommandCode.isSecondary : CommandCode → Bool
  | .openChannel | .closeChannel | .reopenChannel => true
  | .noCommand | .listen | .talk | .unlisten | .untalk => false

end Sys2Proof.Machine
end

