-- ==== Sys2Proof/Machine/Ops.lean ====
section
/-! DEFINITION. The shared operations: on the multiplexer (40_bus_ops.md), on an engine's lines and sequencing state
(41_mode_dispatcher.md section 2), on the log and the Storage Backend (60_exceptions.md R190, 20_memory.md section 2),
raising an error condition and returning from one (60_exceptions.md section 5), and moving between the machine's state
and what one engine's rules act on. -/

namespace Sys2Proof.Machine

/-! ## The multiplexer -/

/-- Whether a slot leaves a line released: it is not attached, or it holds the line released. -/
def Slot.leavesRel (l : Line) (sl : Slot) : Bool := !sl.attached || sl.own.get l == .rel

/-- The wired-AND of one line over the attached slots (40_bus_ops.md R83). -/
def wiredAnd (slots : List Slot) (l : Line) : Level :=
  if slots.all (Slot.leavesRel l) then .rel else .act

/-- The wired-AND of all five lines. -/
def mergedOf (slots : List Slot) : SignalSet :=
  ⟨wiredAnd slots .srq, wiredAnd slots .atn, wiredAnd slots .clk, wiredAnd slots .dat, wiredAnd slots .rst⟩

/-- RECOMPUTE (R83): fold the attached slots into `merged`. -/
def recompute (b : Bus) : Bus := { b with merged := mergedOf b.slots }

/-- `own[p].L <- lv`, without the recompute that must follow. -/
def writeOwn (p : Nat) (l : Line) (lv : Level) (b : Bus) : Bus :=
  { b with slots := b.slots.modify p fun sl => { sl with own := sl.own.set l lv } }

/-- PIN_WRITE (R85): the write and the recompute are one atomic operation. -/
def pinWrite (p : Nat) (l : Line) (lv : Level) (b : Bus) : Bus := recompute (writeOwn p l lv b)

/-- PIN_READ and MERGED (R82, R86): the stored register, whoever reads. -/
def readMerged (b : Bus) : SignalSet := b.merged

/-- Whether `u` may be registered: it is the sentinel, or no attached slot has it (R80). -/
def unitFree (cfg : Config) (slots : List Slot) (u : UnitNumber) : Bool :=
  u == cfg.unitSentinel || slots.all fun sl => !(sl.attached && sl.unit == u)

/-- Register a participant in slot `p` (R80, the four writes). -/
def attachSlot (p : Nat) (u : UnitNumber) (b : Bus) : Bus :=
  recompute { b with slots := b.slots.set p ⟨true, u, .allRel⟩ }

/-- Remove the participant from slot `p` (R81). -/
def detachSlot (p : Nat) (b : Bus) : Bus :=
  recompute { b with slots := b.slots.modify p fun sl => { sl with attached := false } }

/-! ## The engine's own lines and sequencing state -/

/-- `M(L)`: the level of a line as read through the engine's own port (00_scope.md R9). -/
def lineLevel (l : Line) (c : Ctx) : Level := (readMerged c.bus).get l

/-- `drive(L, lv)`: PIN_WRITE of the engine's own line (00_scope.md R9). -/
def drive (l : Line) (lv : Level) (c : Ctx) : Ctx := { c with bus := pinWrite c.eng.port l lv c.bus }

/-- `set_state(S)` (41_mode_dispatcher.md R102): the time restarts also when the state is the same. -/
def setState (st : Handshake) (c : Ctx) : Ctx := { c with eng := { c.eng with state := st, time := 0 } }

/-- `E.mode <- M`. -/
def setMode (m : Mode) (c : Ctx) : Ctx := { c with eng := { c.eng with mode := m } }

/-- `E.role <- R`. -/
def setRole (r : Role) (c : Ctx) : Ctx := { c with eng := { c.eng with role := r } }

/-- `E.cmd <- k`. -/
def setCmd (k : ParsedCommand) (c : Ctx) : Ctx := { c with eng := { c.eng with cmd := k } }

/-- `E.cmd.code <- k; E.cmd.arg <- a`; the parameter bytes stay (42_commands.md section 2). -/
def recordCommand (code : CommandCode) (arg : BitVec 5) (c : Ctx) : Ctx :=
  setCmd { c.eng.cmd with code := code, arg := arg } c

/-- `E.cmd.param <- bytes`. -/
def setParam (bytes : List Byte) (c : Ctx) : Ctx := setCmd { c.eng.cmd with param := bytes } c

/-- `E.tr <- t`. -/
def setTr (t : Transceiver) (c : Ctx) : Ctx := { c with eng := { c.eng with tr := t } }

/-- `E.time <- E.time + elapsed` (R100). -/
def addTime (elapsed : Nat) (c : Ctx) : Ctx := { c with eng := { c.eng with time := c.eng.time + elapsed } }

/-- `release_all()` (R103): the five lines, in the spec's order. -/
def releaseAll (c : Ctx) : Ctx :=
  drive .rst .rel (drive .dat .rel (drive .clk .rel (drive .atn .rel (drive .srq .rel c))))

/-- `reinit()` (R104): return to the idle phase. -/
def reinit (c : Ctx) : Ctx :=
  setState .idle (setTr .empty (setCmd .empty (setRole .passive (setMode .idle (releaseAll c)))))

/-- `to_wait()` (R105): `role`, `cmd` and `tr` stay. -/
def toWait (c : Ctx) : Ctx := setState .idle (setMode .wait (releaseAll c))

/-- `begin_rx()` (43_byte_rx.md R150). -/
def beginRx (c : Ctx) : Ctx := setState .init (drive .dat .act (setTr rxStart c))

/-! ## The log and the Storage Backend -/

/-- `log(ev)` (60_exceptions.md R190). -/
def logEvent (ev : Event) (c : Ctx) : Ctx := { c with eng := { c.eng with log := c.eng.log ++ [ev] } }

/-- A call of the Storage Backend, recorded in the call trace (20_memory.md R45). -/
def callBackend (k : BackendCall) (c : Ctx) : Ctx := { c with eng := { c.eng with calls := c.eng.calls ++ [k] } }

/-- The answer to a read (20_memory.md R45, R47): the next one handed in, or a free value (log 2). -/
def answerRead (c : Ctx) : ReadResult × Ctx :=
  match c.eng.answers with
  | r :: rest => (r, { c with eng := { c.eng with answers := rest } })
  | [] => (Config.freeAnswer c.free, { c with free := c.free + 1 })

/-- `Backend.read(ch)` (R47): the call is recorded and one answer is used up. -/
def readBackend (ch : Channel) (c : Ctx) : ReadResult × Ctx := answerRead (callBackend (.readCall ch) c)

/-! ## Error conditions (60_exceptions.md) -/

/-- Taking an error condition (R191, R200): an event is appended to the log and control goes to mode Wait or mode Idle.
Nothing is saved, nothing can be masked, and nothing propagates. -/
def raiseEvent (ev : Event) (l : Landing) (c : Ctx) : Ctx :=
  match l with
  | .wait => toWait (logEvent ev c)
  | .idle => reinit (logEvent ev c)

/-- Returning from one (R201): from Wait to Idle through `reinit()`; nothing of the abandoned transaction is resumed. -/
def returnFromWait (c : Ctx) : Ctx := reinit c

/-! ## Between the machine's state and one engine -/

/-- What engine `e`'s rules act on; `none` where there is no such engine. -/
def loadCtx (e : Nat) (s : State) : Option Ctx :=
  (s.engines[e]?).map fun E => ⟨s.cfg, s.bus, E, s.free⟩

/-- Put back what engine `e`'s rules have changed. -/
def storeCtx (e : Nat) (c : Ctx) (s : State) : State :=
  { s with bus := c.bus, engines := s.engines.set e c.eng, free := c.free }

/-- Run a command on the engine whose receive machine has just completed the command's byte; the byte is then no longer
waiting to be dispatched. -/
def onDispatching (f : Ctx → Ctx) (s : State) : Host.Outcome State Fault Refusal :=
  match s.dispatching with
  | none => .refused .noCompletedByte
  | some e =>
    match loadCtx e s with
    | none => .refused (.noSuchEngine e)
    | some c => .next { storeCtx e (f c) s with dispatching := none }

/-- Run an operation of the multiplexer that names a port; a port outside 0 .. NPORTS-1 is no operation of the block
(40_bus_ops.md R80 v). -/
def onPort (p : Nat) (f : Slot → State) (s : State) : Host.Outcome State Fault Refusal :=
  match s.bus.slots[p]? with
  | none => .refused (.noSuchPort p)
  | some sl => .next (f sl)

end Sys2Proof.Machine
end

