-- ==== Sys2Proof/Machine/BusOps.lean ====
section
/-! DEFINITION. The operations of the bus multiplexer (40_bus_ops.md R80 to R87) and RESET (70_reset_and_hazards.md
R220). Every operation leaves its result in `State.result` (log 7). -/

namespace Sys2Proof.Machine

/-- ATTACH (R80): a taken slot refuses (D5), then a taken unit number refuses unless it is the sentinel; a refused
ATTACH changes nothing. -/
def execAttach (p : Nat) (u : UnitNumber) (s : State) : Host.Outcome State Fault Refusal :=
  onPort p (fun sl =>
    if sl.attached then { s with result := .bool false }
    else if unitFree s.cfg s.bus.slots u then { s with bus := attachSlot p u s.bus, result := .bool true }
    else { s with result := .bool false }) s

/-- DETACH (R81). -/
def execDetach (p : Nat) (s : State) : Host.Outcome State Fault Refusal :=
  onPort p (fun _ => { s with bus := detachSlot p s.bus, result := .noResult }) s

/-- MERGED (R82): the stored register, not a fresh fold. -/
def execMerged (s : State) : Host.Outcome State Fault Refusal :=
  .next { s with result := .lines (readMerged s.bus) }

/-- RECOMPUTE (R83). -/
def execRecompute (s : State) : Host.Outcome State Fault Refusal :=
  .next { s with bus := recompute s.bus, result := .noResult }

/-- PIN_WRITE (R85); a slot that is not attached takes the write too (D8). -/
def execPinWrite (p : Nat) (l : Line) (lv : Level) (s : State) : Host.Outcome State Fault Refusal :=
  onPort p (fun _ => { s with bus := pinWrite p l lv s.bus, result := .noResult }) s

/-- PIN_READ (R86): every port reads the same register, attached or not. -/
def execPinRead (p : Nat) (s : State) : Host.Outcome State Fault Refusal :=
  onPort p (fun _ => { s with result := .lines (readMerged s.bus) }) s

/-- RESET of the slots: detached, driving nothing, the unit number a free value (R220 ii, log 3). `n` is the number of
free values used so far. -/
def resetSlots : Nat → List Slot → List Slot
  | _, [] => []
  | n, _ :: rest => ⟨false, Config.freeUnit n, .allRel⟩ :: resetSlots (n + 1) rest

/-- RESET of one engine (R220, 10_state.md R27): `unit` and `port` survive; the log and the call trace start empty; the
answers of the Storage Backend are the environment's and stay. -/
def resetEngine (E : Engine) : Engine :=
  { Engine.atReset ⟨E.unit, E.port⟩ with answers := E.answers }

/-- RESET (R220). -/
def execReset (s : State) : Host.Outcome State Fault Refusal :=
  .next { s with
    bus := ⟨resetSlots s.free s.bus.slots, .allRel⟩
    engines := s.engines.map resetEngine
    dispatching := none
    result := .noResult
    free := s.free + s.bus.slots.length }

end Sys2Proof.Machine
end

