-- ==== Sys2Proof/Machine/Commands.lean ====
section
/-! DEFINITION. The seven bus commands (42_commands.md). A command runs on the engine whose receive machine has just
returned `Complete(b)` in mode Command or Secondary: `…At` is what it does to that engine, `exec…` runs it on the engine
`State.dispatching` names. A tick runs the same `…At` definitions (Machine/Dispatcher.lean). -/

namespace Sys2Proof.Machine

/-- `after_addressing()` (R136). -/
def afterAddressing (c : Ctx) : Ctx :=
  if c.eng.role = .passive then toWait c else beginRx (setMode .secondary c)

/-- Role `r` if the addressed unit is this engine's own, Passive otherwise (R132, R133). -/
def roleIfAddressed (u : BitVec 5) (r : Role) (E : Engine) : Role :=
  if unitOfArg u = E.unit then r else .passive

/-- `process_secondary(k)` without the backend call (R140). -/
def processSecondary (code : CommandCode) (ch : Channel) (c : Ctx) : Ctx :=
  beginRx (recordCommand code (argOfChannel ch) c)

/-- `stray_secondary(k)` (R143): a secondary byte with no address before it. -/
def straySecondary (code : CommandCode) (ch : Channel) (c : Ctx) : Ctx :=
  toWait (setRole .passive (recordCommand code (argOfChannel ch) c))

/-- `invalid_byte(b)` (R142). -/
def invalidByte (b : Byte) (c : Ctx) : Ctx := raiseEvent (.invalidCommand b) .wait c

/-- LISTEN u (R132). -/
def listenAt (u : BitVec 5) (c : Ctx) : Ctx :=
  afterAddressing (setRole (roleIfAddressed u .listener c.eng) (recordCommand .listen u c))

/-- TALK u (R133). -/
def talkAt (u : BitVec 5) (c : Ctx) : Ctx :=
  afterAddressing (setRole (roleIfAddressed u .talker c.eng) (recordCommand .talk u c))

/-- UNLISTEN (R134): the present role does not matter. -/
def unlistenAt (c : Ctx) : Ctx := afterAddressing (setRole .passive (recordCommand .unlisten 31 c))

/-- UNTALK (R135). -/
def untalkAt (c : Ctx) : Ctx := afterAddressing (setRole .passive (recordCommand .untalk 31 c))

/-- OPEN c (R137; by mode R131): always deferred. -/
def openAt (ch : Channel) (c : Ctx) : Ctx :=
  if c.eng.mode = .secondary then processSecondary .openChannel ch c else straySecondary .openChannel ch c

/-- CLOSE c (R138; by mode R131): the backend call is made at once, in either role. -/
def closeAt (ch : Channel) (c : Ctx) : Ctx :=
  if c.eng.mode = .secondary then
    beginRx (callBackend (.closeCall ch) (recordCommand .closeChannel (argOfChannel ch) c))
  else straySecondary .closeChannel ch c

/-- REOPEN c (R139; by mode R131): no backend call of its own. -/
def reopenAt (ch : Channel) (c : Ctx) : Ctx :=
  if c.eng.mode = .secondary then processSecondary .reopenChannel ch c else straySecondary .reopenChannel ch c

/-- LISTEN as an instruction. -/
def execListen (u : BitVec 5) (s : State) : Host.Outcome State Fault Refusal := onDispatching (listenAt u) s

/-- TALK as an instruction. -/
def execTalk (u : BitVec 5) (s : State) : Host.Outcome State Fault Refusal := onDispatching (talkAt u) s

/-- UNLISTEN as an instruction. -/
def execUnlisten (s : State) : Host.Outcome State Fault Refusal := onDispatching unlistenAt s

/-- UNTALK as an instruction. -/
def execUntalk (s : State) : Host.Outcome State Fault Refusal := onDispatching untalkAt s

/-- OPEN as an instruction. -/
def execOpen (ch : Channel) (s : State) : Host.Outcome State Fault Refusal := onDispatching (openAt ch) s

/-- CLOSE as an instruction. -/
def execClose (ch : Channel) (s : State) : Host.Outcome State Fault Refusal := onDispatching (closeAt ch) s

/-- REOPEN as an instruction. -/
def execReopen (ch : Channel) (s : State) : Host.Outcome State Fault Refusal := onDispatching (reopenAt ch) s

/-- The command a decoded command byte stands for (R131). The decoder of command bytes answers no operation; for one
there is nothing to do. -/
def runCommand (i : Instr) (c : Ctx) : Ctx :=
  match i with
  | .unlisten => unlistenAt c
  | .untalk => untalkAt c
  | .listen u => listenAt u c
  | .talk u => talkAt u c
  | .reopenChannel ch => reopenAt ch c
  | .closeChannel ch => closeAt ch c
  | .openChannel ch => openAt ch c
  | .reset => c
  | .attach _ _ => c
  | .detach _ => c
  | .merged => c
  | .recompute => c
  | .pinWrite _ _ _ => c
  | .pinRead _ => c
  | .tick _ _ => c

/-- `dispatch_command_byte(b)` (R131). -/
def dispatchCommandByte (b : Byte) (c : Ctx) : Ctx :=
  match decodeCommand b with
  | .ok i => runCommand i c
  | .error _ => invalidByte b c

/-- `execute_deferred()` (R141): in mode Data the recorded command is OPEN, CLOSE or REOPEN. -/
def executeDeferred (c : Ctx) : Ctx :=
  match c.eng.cmd.code with
  | .openChannel => callBackend (.openCall (channelOfArg c.eng.cmd.arg) c.eng.cmd.param) c
  | .reopenChannel => callBackend (.writeCall (channelOfArg c.eng.cmd.arg) c.eng.cmd.param) c
  | .closeChannel => c
  | .noCommand => c
  | .listen => c
  | .talk => c
  | .unlisten => c
  | .untalk => c

end Sys2Proof.Machine
end

