-- ==== Sys2Proof/Machine/ByteRx.lean ====
section
/-! DEFINITION. Byte reception (43_byte_rx.md R150 to R159), used in modes Command, Secondary and Data. `cl` and `d` are
the levels of CLK and DAT read at the start of the pass (41_mode_dispatcher.md R101). In each state the line is tested
before the time (60_exceptions.md R199). -/

namespace Sys2Proof.Machine

/-- State Init (R151): wait for the sender to be ready to send. -/
def rxInit (cl : Level) (c : Ctx) : Ctx × RxResult :=
  if cl = .rel then (setState .ready (drive .dat .rel c), .progress) else (c, .noProgress)

/-- State Ready (R152): first clock pulse, or end-of-information. -/
def rxReady (cl : Level) (c : Ctx) : Ctx × RxResult :=
  if cl = .act then (setState .bitWait c, .progress)
  else if timeReached c.eng c.cfg.tEoi then
    (setState .eoi (drive .dat .act (setTr (markLast c.eng.tr) c)), .progress)
  else (c, .noProgress)

/-- State Eoi (R153): the release of DAT alone is no progress. -/
def rxEoi (cl : Level) (c : Ctx) : Ctx × RxResult :=
  if timeReached c.eng c.cfg.tEoiAck then
    if cl = .act then (setState .bitWait (drive .dat .rel c), .progress) else (drive .dat .rel c, .noProgress)
  else (c, .noProgress)

/-- State BitWait (R154): sample one bit. -/
def rxBitWait (cl d : Level) (c : Ctx) : Ctx × RxResult :=
  if cl = .rel then
    (setState .bitDone
      (setTr { c.eng.tr with value := sampleBit c.eng.tr.value c.eng.tr.cursor d, cursor := c.eng.tr.cursor + 1 } c),
      .progress)
  else (c, .noProgress)

/-- State BitDone (R155, and its livelock time-out R156). -/
def rxBitDone (cl : Level) (c : Ctx) : Ctx × RxResult :=
  if cl = .act then
    if c.eng.tr.cursor = 8 then (setState .frame (drive .dat .act c), .progress) else (setState .bitWait c, .progress)
  else if timeReached c.eng c.cfg.tBitDoneTimeout then (raiseEvent .bitDoneTimeout .wait c, .progress)
  else (c, .noProgress)

/-- State Frame (R157): hold the acknowledge, then deliver the byte. -/
def rxFrame (c : Ctx) : Ctx × RxResult :=
  if timeReached c.eng c.cfg.tFrameHold then (setState .idle (setTr (markReady c.eng.tr) c), .complete c.eng.tr.value)
  else (c, .noProgress)

/-- `rx_step(C, D)` (R158, R159): at most one transition. -/
def rxStep (cl d : Level) (c : Ctx) : Ctx × RxResult :=
  match c.eng.state with
  | .init => rxInit cl c
  | .ready => rxReady cl c
  | .eoi => rxEoi cl c
  | .bitWait => rxBitWait cl d c
  | .bitDone => rxBitDone cl c
  | .frame => rxFrame c
  | .idle => (c, .noProgress)
  | .frameWait => (c, .noProgress)

end Sys2Proof.Machine
end

