-- ==== Sys2Proof/Machine/ByteTx.lean ====
section
/-! DEFINITION. Byte transmission (44_byte_tx.md R170 to R183), used in mode Talker. `d` is the level of DAT read at the
start of the pass; CLK is not used, the talker owns it (R180). The Bool is the progress of the pass. -/

namespace Sys2Proof.Machine

/-- `put_bit()` (R171): CLK is pulled first, then DAT takes the level of bit `cursor`. -/
def putBit (c : Ctx) : Ctx :=
  setState .bitWait (drive .dat (Level.ofBit (bitAt c.eng.tr.value c.eng.tr.cursor)) (drive .clk .act c))

/-- State Init (R172): announce ready to send; it lasts no time. -/
def txInit (c : Ctx) : Ctx × Bool := (setState .ready (drive .clk .rel c), true)

/-- State Ready (R173): wait for the listener; for the last byte CLK is left released. -/
def txReady (d : Level) (c : Ctx) : Ctx × Bool :=
  if d = .rel then
    if c.eng.tr.last then (setState .eoi c, true) else (putBit c, true)
  else (c, false)

/-- State Eoi (R174): hold the clock idle, wait for the acknowledge to pass. -/
def txEoi (d : Level) (c : Ctx) : Ctx × Bool :=
  if timeReached c.eng c.cfg.tEoiHold && d = .rel then (putBit c, true) else (c, false)

/-- State BitWait (R175): set-up time, then the clock edge. -/
def txBitWait (c : Ctx) : Ctx × Bool :=
  if timeReached c.eng c.cfg.tSetup then (setState .bitDone (drive .clk .rel c), true) else (c, false)

/-- `E.tr.cursor <- E.tr.cursor + 1`. -/
def bumpCursor (c : Ctx) : Ctx := setTr { c.eng.tr with cursor := c.eng.tr.cursor + 1 } c

/-- State BitDone (R176): valid time, then the next bit or the end of the byte. -/
def txBitDone (c : Ctx) : Ctx × Bool :=
  if timeReached c.eng c.cfg.tValid then
    if c.eng.tr.cursor + 1 < 8 then (putBit (bumpCursor c), true)
    else (setState .frame (drive .dat .rel (drive .clk .act (bumpCursor c))), true)
  else (c, false)

/-- The next byte, or the end of the stream (R178, R183). -/
def txNextByte (c : Ctx) : Ctx :=
  match readBackend (channelOfArg c.eng.cmd.arg) c with
  | (res, c') => if res.eos then reinit c' else setState .frameWait (setTr (txLoad res) c')

/-- State Frame: the frame acknowledgement (R178), tested before its time-out (R177). -/
def txFrame (d : Level) (c : Ctx) : Ctx × Bool :=
  if d = .act then
    if c.eng.tr.last then (reinit (setTr (markReady c.eng.tr) c), true)
    else (txNextByte (setTr (markReady c.eng.tr) c), true)
  else if timeReached c.eng c.cfg.tFrameTimeout then (raiseEvent .frameTimeout .idle c, true)
  else (c, false)

/-- State FrameWait (R179): the gap between bytes. -/
def txFrameWait (c : Ctx) : Ctx × Bool :=
  if timeReached c.eng c.cfg.tBb then (setState .init c, true) else (c, false)

/-- `tx_step(C, D)` (R180). -/
def txStep (d : Level) (c : Ctx) : Ctx × Bool :=
  match c.eng.state with
  | .init => txInit c
  | .ready => txReady d c
  | .eoi => txEoi d c
  | .bitWait => txBitWait c
  | .bitDone => txBitDone c
  | .frame => txFrame d c
  | .frameWait => txFrameWait c
  | .idle => (c, false)

/-- `abort()` (R182): the byte in flight is pushed back, then the idle phase. -/
def abortTransmission (c : Ctx) : Ctx :=
  if c.eng.tr.ready then reinit c else reinit (callBackend (.pushBackCall (channelOfArg c.eng.cmd.arg)) c)

end Sys2Proof.Machine
end

