-- ==== Sys2Proof/Machine/Dispatcher.lean ====
section
/-! DEFINITION. TICK and the eight protocol phases (41_mode_dispatcher.md). A pass answers the new context and whether
it progressed; a tick makes passes until one does not. -/

namespace Sys2Proof.Machine

/-- A pass of the receive machine in mode Command or Secondary (R107, R108). -/
def receiveCommand (cl d : Level) (c : Ctx) : Ctx × Bool :=
  match rxStep cl d c with
  | (c', .noProgress) => (c', false)
  | (c', .progress) => (c', true)
  | (c', .complete b) => (dispatchCommandByte b c', true)

/-- Mode Idle (R106). -/
def modeIdle (a cl : Level) (c : Ctx) : Ctx × Bool :=
  if a = .act ∧ cl = .act then (beginRx (setMode .command (setCmd .empty c)), true) else (c, false)

/-- Mode Command (R107). -/
def modeCommand (a cl d : Level) (c : Ctx) : Ctx × Bool :=
  if c.eng.state = .init ∧ a = .rel then (reinit c, true) else receiveCommand cl d c

/-- Leaving Secondary when ATN is released (R109). -/
def leaveSecondary (c : Ctx) : Ctx :=
  if c.eng.cmd.code.isSecondary then
    if c.eng.role = .listener then beginRx (setMode .data c) else setState .idle (setMode .turnaround c)
  else reinit c

/-- Mode Secondary (R109, then R108). -/
def modeSecondary (a cl d : Level) (c : Ctx) : Ctx × Bool :=
  if c.eng.state = .init ∧ a = .rel then (leaveSecondary c, true) else receiveCommand cl d c

/-- A byte completed in mode Data (R112). -/
def dataByte (b : Byte) (c : Ctx) : Ctx :=
  if c.eng.tr.last then
    beginRx (setParam [] (executeDeferred (setParam (c.eng.cmd.param ++ [b]) c)))
  else beginRx (setParam (c.eng.cmd.param ++ [b]) c)

/-- Mode Data (R111, then R112). -/
def modeData (a cl d : Level) (c : Ctx) : Ctx × Bool :=
  if a = .act ∧ cl = .act then (beginRx (setMode .command (setCmd .empty c)), true)
  else
    match rxStep cl d c with
    | (c', .noProgress) => (c', false)
    | (c', .progress) => (c', true)
    | (c', .complete b) => (dataByte b c', true)

/-- Mode Turnaround (R113): CLK is driven before DAT is released. -/
def modeTurnaround (a cl : Level) (c : Ctx) : Ctx × Bool :=
  if a = .act then (reinit c, true)
  else if cl = .rel then (setState .idle (setMode .turnHold (drive .dat .rel (drive .clk .act c))), true)
  else (c, false)

/-- The first read of a talk (R114): an empty stream never reaches mode Talker. -/
def firstByte (c : Ctx) : Ctx :=
  match readBackend (channelOfArg c.eng.cmd.arg) c with
  | (res, c') => if res.eos then reinit c' else setState .init (setMode .talker (setTr (txLoad res) c'))

/-- Mode TurnHold (R114). -/
def modeTurnHold (a : Level) (c : Ctx) : Ctx × Bool :=
  if a = .act then (reinit c, true)
  else if timeReached c.eng c.cfg.tTurnHold then (firstByte c, true)
  else (c, false)

/-- Mode Talker (R115): the attention test comes first. -/
def modeTalker (a d : Level) (c : Ctx) : Ctx × Bool :=
  if a = .act then (abortTransmission c, true) else txStep d c

/-- Mode Wait (R110). -/
def modeWait (a : Level) (c : Ctx) : Ctx × Bool :=
  if a = .rel then (returnFromWait c, true) else (c, false)

/-- One pass of the dispatcher, given the levels of ATN, CLK and DAT (R101). -/
def advanceWith (a cl d : Level) (c : Ctx) : Ctx × Bool :=
  match c.eng.mode with
  | .idle => modeIdle a cl c
  | .command => modeCommand a cl d c
  | .secondary => modeSecondary a cl d c
  | .data => modeData a cl d c
  | .turnaround => modeTurnaround a cl c
  | .turnHold => modeTurnHold a c
  | .talker => modeTalker a d c
  | .wait => modeWait a c

/-- `advance` (R101): the three levels are read afresh, in one PIN_READ, on every pass (D41). -/
def advance (c : Ctx) : Ctx × Bool := advanceWith (lineLevel .atn c) (lineLevel .clk c) (lineLevel .dat c) c

/-- How many passes the model lets a tick make (log 8). R117: every chain of progressing passes is finite; this is above
the longest. -/
def passLimit : Nat := 100

/-- The loop of R100: passes until one reports no progress; `none` when the limit is reached first. -/
def runPasses : Nat → Ctx → Option Ctx
  | 0, _ => none
  | n + 1, c =>
    match advance c with
    | (c', true) => runPasses n c'
    | (c', false) => some c'

/-- Run the loop of R100 on engine `e` from context `c`, store what it leaves, and return `TICK_CYCLES` (R118). -/
def settle (e : Nat) (c : Ctx) (s : State) : Host.Outcome State Fault Refusal :=
  match runPasses passLimit c with
  | some c' => .next { storeCtx e c' s with result := .tick (.cycles s.cfg.tickCycles) }
  | none => .fault (.tickUnsettled e)

/-- TICK (R100). With an unimplemented bit-clocking mode the tick logs and does nothing else (60_exceptions.md R196). -/
def execTick (e : Nat) (elapsed : Nat) (s : State) : Host.Outcome State Fault Refusal :=
  match loadCtx e s with
  | none => .refused (.noSuchEngine e)
  | some c =>
    if s.cfg.clockModeImplemented then settle e (addTime elapsed c) s
    else .next { storeCtx e (logEvent .unimplementedClockMode c) s with result := .tick (.cycles s.cfg.tickCycles) }

/-- The rest of a tick whose command byte has been dispatched as an instruction: the loop of R100 goes on. -/
def finishTick (e : Nat) (o : Host.Outcome State Fault Refusal) : Host.Outcome State Fault Refusal :=
  match o with
  | .next s =>
    match loadCtx e s with
    | none => .refused (.noSuchEngine e)
    | some c => settle e c s
  | .fault r => .fault r
  | .refused r => .refused r

/-- A byte that is no command, dispatched on engine `e` (42_commands.md R142). -/
def execInvalidByte (b : Byte) (s : State) : Host.Outcome State Fault Refusal := onDispatching (invalidByte b) s

end Sys2Proof.Machine
end

