-- ==== Sys2Proof/Machine/Dispatch.lean ====
section
/-! DEFINITION. The meaning of every instruction: one arm a constructor, in the order of spec/opcode_table.json. -/

namespace Sys2Proof.Machine

def exec (i : Instr) (s : State) : Host.Outcome State Fault Refusal :=
  match i with
  | .unlisten => Sys2Proof.Machine.execUnlisten s
  | .untalk => Sys2Proof.Machine.execUntalk s
  | .listen u => Sys2Proof.Machine.execListen u s
  | .talk u => Sys2Proof.Machine.execTalk u s
  | .reopenChannel c => Sys2Proof.Machine.execReopen c s
  | .closeChannel c => Sys2Proof.Machine.execClose c s
  | .openChannel c => Sys2Proof.Machine.execOpen c s
  | .reset => Sys2Proof.Machine.execReset s
  | .attach p u => Sys2Proof.Machine.execAttach p u s
  | .detach p => Sys2Proof.Machine.execDetach p s
  | .merged => Sys2Proof.Machine.execMerged s
  | .recompute => Sys2Proof.Machine.execRecompute s
  | .pinWrite p l lv => Sys2Proof.Machine.execPinWrite p l lv s
  | .pinRead p => Sys2Proof.Machine.execPinRead p s
  | .tick e elapsed => Sys2Proof.Machine.execTick e elapsed s

end Sys2Proof.Machine
end

