-- ==== Sys2Proof/Machine/Fetch.lean ====
section
/-! DEFINITION. Where the next instruction comes from. The block fetches nothing (20_memory.md R57): an operation comes
from the agents of R54, in the order `State.schedule` holds them; a command byte comes from the Byte Transceiver of the
engine that has just completed it. -/

namespace Sys2Proof.Machine

/-- A command byte waiting to be dispatched goes first: it is inside a tick, and during a tick no other agent performs
an operation (70_reset_and_hazards.md R225). With nothing scheduled the block holds its state (60_exceptions.md R210). -/
def fetch (s : State) : Fetched :=
  match s.dispatching with
  | some e =>
    match s.engines[e]? with
    | none => .stop (.noSuchEngine e)
    | some E =>
      match decodeCommand E.tr.value with
      | .ok i => .command e i
      | .error _ => .invalidByte e E.tr.value
  | none =>
    match s.schedule with
    | [] => .nothing
    | b :: bs =>
      match decodeOperation (b :: bs) with
      | .ok (i, rest) => .operation i { s with schedule := rest }
      | .error err => .stop (.undecodable err)

/-- An engine whose receive machine has just returned `Complete(b)` (43_byte_rx.md R157) in the mode the byte's class
belongs to: Command for an addressing byte, Secondary (as Listener unless it already has a role) for a secondary one. -/
def completedByte (b : Byte) (secondary : Bool) (E : Engine) : Engine :=
  { E with
    mode := if secondary then .secondary else .command
    role := if secondary && E.role = .passive then .listener else E.role
    state := .idle
    time := 0
    tr := ⟨b, false, true, 8⟩ }

/-- Whether a decoded byte is of the secondary class (42_commands.md R130). -/
def secondaryClass : Option Instr → Bool
  | some (.openChannel _) | some (.closeChannel _) | some (.reopenChannel _) => true
  | some .unlisten | some .untalk | some (.listen _) | some (.talk _) => false
  | some .reset | some (.attach _ _) | some (.detach _) | some .merged | some .recompute => false
  | some (.pinWrite _ _ _) | some (.pinRead _) | some (.tick _ _) => false
  | none => false

/-- Place a table word where `fetch` looks: an operation at the head of the schedule; a command byte in the transceiver
of engine 0, just completed (log 5). -/
def placeFetchWord (s : State) (nbits w : Nat) : State :=
  match tableInstrBytes nbits w with
  | [] => s
  | b :: bs =>
    if b.toNat < 16 then { s with schedule := (b :: bs) ++ s.schedule, dispatching := none }
    else
      { s with
        engines := s.engines.modify 0 (completedByte b (secondaryClass (decodeTableWord nbits w)))
        dispatching := some 0 }

end Sys2Proof.Machine
end

