-- ==== Sys2Proof/Machine/Step.lean ====
section
/-! DEFINITION. One step of the machine: one operation of an agent, atomic with respect to every other (20_memory.md R54,
40_bus_ops.md R84). -/

namespace Sys2Proof.Machine

/-- An operation of the schedule is taken off it and run. A completed command byte is run on its engine, after which the
tick it is part of goes on to its end. With nothing to do the state stays as it is. -/
def step (s : State) : Host.Outcome State Fault Refusal :=
  match fetch s with
  | .nothing => .next s
  | .operation i s' => exec i s'
  | .command e i => finishTick e (exec i s)
  | .invalidByte e b => finishTick e (execInvalidByte b s)
  | .stop r => .refused r

/-- `s` with a word of spec/opcode_table.json placed where the next step fetches its instruction. -/
def State.withFetchWord (s : State) (nbits w : Nat) : State := placeFetchWord s nbits w

end Sys2Proof.Machine
end

