-- ==== Sys2Proof/Safety.lean ====
section
/-! DEFINITION. What the statements speak of: the invariants of the multiplexer (10_state.md R12, R13) and of an engine,
and the shapes a change of state can have. Written in the spec's own terms, not through the model's operations. -/

namespace Sys2Proof.Machine

/-! ## The multiplexer -/

/-- The wired-AND invariant (R12): a line of `merged` is released exactly when every attached slot holds it released. -/
def WiredAnd (b : Bus) : Prop :=
  ∀ l, b.merged.get l = .rel ↔ ∀ sl ∈ b.slots, sl.attached = true → sl.own.get l = .rel

/-- The uniqueness invariant (R13). -/
def UnitsUnique (cfg : Config) (b : Bus) : Prop :=
  ∀ (p q : Nat) (sp sq : Slot), p ≠ q → b.slots[p]? = some sp → b.slots[q]? = some sq → sp.attached = true → sq.attached = true →
    sp.unit ≠ sq.unit ∨ (sp.unit = cfg.unitSentinel ∧ sq.unit = cfg.unitSentinel)

/-- `b'` is `b` with the own lines of slot `p` changed by `f`, and recomputed; nothing else is different. Where there is
no slot `p` the slots are the same. -/
def LinesAfter (p : Nat) (f : SignalSet → SignalSet) (b b' : Bus) : Prop :=
  b'.slots = b.slots.modify p (fun sl => { sl with own := f sl.own }) ∧ WiredAnd b'

/-- All five lines let go: what `release_all()` leaves (41_mode_dispatcher.md R103). -/
def released (_ : SignalSet) : SignalSet := .allRel

/-- DAT pulled. -/
def withDat (lv : Level) (v : SignalSet) : SignalSet := { v with dat := lv }

/-- CLK pulled or let go. -/
def withClk (lv : Level) (v : SignalSet) : SignalSet := { v with clk := lv }

/-! ## One engine -/

/-- The three codes after which data may follow (42_commands.md R130). -/
def SecondaryCode (k : CommandCode) : Prop := k = .openChannel ∨ k = .closeChannel ∨ k = .reopenChannel

/-- A byte is being received: where the bit cursor and the flags stand in each state of 43_byte_rx.md. -/
def Receiving (E : Engine) : Prop :=
  E.tr.ready = false ∧
  match E.state with
  | .init => E.tr.cursor = 0 ∧ E.tr.last = false
  | .ready => E.tr.cursor = 0 ∧ E.tr.last = false
  | .eoi => E.tr.cursor = 0 ∧ E.tr.last = true
  | .bitWait => E.tr.cursor < 8
  | .bitDone => 1 ≤ E.tr.cursor ∧ E.tr.cursor ≤ 8
  | .frame => E.tr.cursor = 8
  | .idle => False
  | .frameWait => False

/-- A byte is being sent: the same for 44_byte_tx.md; `ready` is false throughout (R182 ii). -/
def Sending (E : Engine) : Prop :=
  E.tr.ready = false ∧
  match E.state with
  | .init => E.tr.cursor = 0
  | .ready => E.tr.cursor = 0
  | .eoi => E.tr.cursor = 0 ∧ E.tr.last = true
  | .bitWait => E.tr.cursor < 8
  | .bitDone => E.tr.cursor < 8
  | .frame => E.tr.cursor = 8
  | .frameWait => E.tr.cursor = 0
  | .idle => False

/-- An engine on its way to being, or being, the talker of a channel. -/
def TalkingOnChannel (E : Engine) : Prop :=
  E.role = .talker ∧ SecondaryCode E.cmd.code ∧ E.cmd.arg.toNat < 16

/-- The engine's record is one the rules of 41_mode_dispatcher.md, 42_commands.md, 43_byte_rx.md and 44_byte_tx.md can
bring about between two operations: what each mode implies for role, state, command and transceiver. -/
def Legal (E : Engine) : Prop :=
  match E.mode with
  | .idle => E.role = .passive ∧ E.state = .idle ∧ E.cmd = .empty ∧ E.tr = .empty
  | .command => Receiving E ∧ E.cmd = .empty
  | .secondary =>
    Receiving E ∧ E.role ≠ .passive ∧ E.cmd.param = [] ∧
    (E.cmd.code = .listen ∨ E.cmd.code = .talk ∨ (SecondaryCode E.cmd.code ∧ E.cmd.arg.toNat < 16))
  | .data => Receiving E ∧ E.role = .listener ∧ SecondaryCode E.cmd.code ∧ E.cmd.arg.toNat < 16
  | .turnaround => E.state = .idle ∧ TalkingOnChannel E ∧ E.cmd.param = []
  | .turnHold => E.state = .idle ∧ TalkingOnChannel E ∧ E.cmd.param = []
  | .talker => Sending E ∧ TalkingOnChannel E ∧ E.cmd.param = []
  | .wait => E.state = .idle

/-- An engine back in its idle phase: every per-transaction field at its reset value (41_mode_dispatcher.md R104,
10_state.md R23); the log, the call trace and the rest stay. -/
def idleEngine (E : Engine) : Engine :=
  { E with mode := .idle, role := .passive, state := .idle, time := 0, cmd := ⟨.noCommand, 0, []⟩, tr := ⟨0, false, true, 0⟩ }

/-- An engine sitting out the attention cycle (R105): role, command and transceiver stay. -/
def waitingEngine (E : Engine) : Engine := { E with mode := .wait, state := .idle, time := 0 }

/-- An engine at the start of a reception (43_byte_rx.md R150). -/
def startingReception (E : Engine) : Engine := { E with state := .init, time := 0, tr := ⟨0, false, false, 0⟩ }

/-- Error landings and aborts end with the lines let go. If ATN and CLK are then both active the engine joins the new
command cycle at once (41_mode_dispatcher.md R106), else it stays in Idle. `E1` is the record before `reinit()`. -/
def IdleOrJoins (E1 E' : Engine) (b b' : Bus) : Prop :=
  ∃ b1, LinesAfter E1.port released b b1 ∧
    ((b1.merged.atn = .act ∧ b1.merged.clk = .act ∧
        E' = startingReception { idleEngine E1 with mode := .command } ∧ LinesAfter E1.port (withDat .act) b1 b') ∨
     (¬ (b1.merged.atn = .act ∧ b1.merged.clk = .act) ∧ E' = idleEngine E1 ∧ b' = b1))

/-- Falling back to Wait, and on to Idle in the same tick if ATN is released (R110). `E1` is the record before
`to_wait()`. -/
def WaitsOrIdles (E1 E' : Engine) (b b' : Bus) : Prop :=
  LinesAfter E1.port released b b' ∧
    ((b'.merged.atn = .act ∧ E' = waitingEngine E1) ∨ (b'.merged.atn = .rel ∧ E' = idleEngine E1))

/-! ## Changes of the machine -/

/-- A context in which only engine `E`'s record and its own lines have changed. -/
def CtxAfter (E' : Engine) (f : SignalSet → SignalSet) (c c' : Ctx) : Prop :=
  c'.eng = E' ∧ LinesAfter c.eng.port f c.bus c'.bus ∧ c'.cfg = c.cfg ∧ c'.free = c.free

/-- A command byte has run on engine `e`, leaving the record `E'` and the lines of port `p` changed by `f`. -/
def CommandRan (e p : Nat) (E' : Engine) (f : SignalSet → SignalSet) (s t : State) : Prop :=
  t.engines = s.engines.set e E' ∧ LinesAfter p f s.bus t.bus ∧ t.cfg = s.cfg ∧ t.schedule = s.schedule ∧
  t.dispatching = none ∧ t.result = s.result ∧ t.free = s.free

/-- A tick of engine `e` has left the record `E'` and the multiplexer `b'`, and nothing else is different but the
result. -/
def TickLeft (e : Nat) (E' : Engine) (b' : Bus) (s t : State) : Prop :=
  t = { s with engines := s.engines.set e E', bus := b', result := .tick (.cycles s.cfg.tickCycles) }

/-- The loop of 41_mode_dispatcher.md R100: passes until one reports no progress. -/
inductive Settles : Ctx → Ctx → Prop where
  | rest {c c' : Ctx} : advance c = (c', false) → Settles c c'
  | pass {c c1 c' : Ctx} : advance c = (c1, true) → Settles c1 c' → Settles c c'

/-- The edges of the mode graph (R116). -/
def ModeEdge : Mode → Mode → Prop
  | .idle, m => m = .command
  | .command, m => m = .secondary ∨ m = .wait ∨ m = .idle
  | .secondary, m => m = .data ∨ m = .turnaround ∨ m = .wait ∨ m = .idle
  | .data, m => m = .command ∨ m = .wait
  | .turnaround, m => m = .turnHold ∨ m = .idle
  | .turnHold, m => m = .talker ∨ m = .idle
  | .talker, m => m = .idle
  | .wait, m => m = .idle

/-! ## Two machines that differ in SRQ and RST only -/

/-- The same ATN, CLK and DAT. -/
def SameHandshakeLines (v w : SignalSet) : Prop := v.atn = w.atn ∧ v.clk = w.clk ∧ v.dat = w.dat

/-- Multiplexers that differ in SRQ and RST at most. -/
def SameButSrqRst (b b' : Bus) : Prop :=
  SameHandshakeLines b.merged b'.merged ∧
  List.Forall₂ (fun sl sl' => sl.attached = sl'.attached ∧ sl.unit = sl'.unit ∧ SameHandshakeLines sl.own sl'.own)
    b.slots b'.slots

/-! ## What reset and every step are to keep -/

/-- Every engine's record is legal, and no byte is waiting to be dispatched between operations. -/
def EnginesLegal (s : State) : Prop := s.dispatching = none ∧ ∀ E ∈ s.engines, Legal E

end Sys2Proof.Machine
end

