-- ==== Sys2Proof/Certificates/Slice0/Obligations.lean ====
section
/-! DEFINITION. The statements for the provers. Each says in its docstring which rule of the spec it formalises. None is
about a program. -/

open Sys2Proof Sys2Proof.Machine

/-! ## The bus multiplexer -/

/-- 40_bus_ops.md R83: RECOMPUTE folds the attached slots into `merged`, line by line, and changes nothing else. -/
def Obligations.RecomputeFoldsAttachedSlots : Prop :=
  ∀ s : State, ∃ b : Bus, b.slots = s.bus.slots ∧ WiredAnd b ∧
    exec .recompute s = .next { s with bus := b, result := .noResult }

/-- R80: ATTACH of a free slot with a free unit number (or the sentinel) registers the participant, driving nothing,
recomputes and answers true; where `merged` was the wired-AND it is unchanged (R80 iii). Otherwise ATTACH answers false
and changes nothing. -/
def Obligations.AttachRegistersOrRefuses : Prop :=
  ∀ (s : State) (p : Nat) (u : UnitNumber) (sl : Slot), s.bus.slots[p]? = some sl →
    ((sl.attached = true ∨
        (u ≠ s.cfg.unitSentinel ∧ ∃ q ∈ s.bus.slots, q.attached = true ∧ q.unit = u)) →
      exec (.attach p u) s = .next { s with result := .bool false }) ∧
    ((sl.attached = false ∧
        (u = s.cfg.unitSentinel ∨ ∀ q ∈ s.bus.slots, q.attached = true → q.unit ≠ u)) →
      ∃ b : Bus, b.slots = s.bus.slots.set p ⟨true, u, .allRel⟩ ∧ WiredAnd b ∧
        (WiredAnd s.bus → b.merged = s.bus.merged) ∧
        exec (.attach p u) s = .next { s with bus := b, result := .bool true })

/-- R81: DETACH clears `attached`, keeps the slot's unit and lines, and recomputes; where `merged` was the wired-AND,
DETACH of a slot that is not attached changes nothing (R81 i). -/
def Obligations.DetachReleasesTheSlot : Prop :=
  ∀ (s : State) (p : Nat) (sl : Slot), s.bus.slots[p]? = some sl →
    ∃ b : Bus, b.slots = s.bus.slots.set p { sl with attached := false } ∧ WiredAnd b ∧
      (WiredAnd s.bus → sl.attached = false → b = s.bus) ∧
      exec (.detach p) s = .next { s with bus := b, result := .noResult }

/-- R82: MERGED answers the stored register and has no side effect. -/
def Obligations.MergedAnswersTheStoredLines : Prop :=
  ∀ s : State, exec .merged s = .next { s with result := .lines s.bus.merged }

/-- R85: PIN_WRITE sets one line of the participant's own set and recomputes; through a port that is not attached it
leaves `merged` as the wired-AND has it (R85 ii). -/
def Obligations.PinWriteSetsOneOwnLine : Prop :=
  ∀ (s : State) (p : Nat) (l : Line) (lv : Level) (sl : Slot), s.bus.slots[p]? = some sl →
    ∃ (b : Bus) (own : SignalSet), own.get l = lv ∧ (∀ l', l' ≠ l → own.get l' = sl.own.get l') ∧
      b.slots = s.bus.slots.set p { sl with own := own } ∧ WiredAnd b ∧
      (WiredAnd s.bus → sl.attached = false → b.merged = s.bus.merged) ∧
      exec (.pinWrite p l lv) s = .next { s with bus := b, result := .noResult }

/-- R86: PIN_READ answers `merged` whatever the port, attached or not, and has no side effect. -/
def Obligations.PinReadIsTheSameThroughEveryPort : Prop :=
  ∀ (s : State) (p : Nat), p < s.bus.slots.length →
    exec (.pinRead p) s = .next { s with result := .lines s.bus.merged }

/-- 20_memory.md R55: after a PIN_WRITE every later PIN_READ through any port, and MERGED, answers lines that reflect
the write: a line pulled through an attached port reads active; a line let go reads released exactly when every other
attached slot holds it released. -/
def Obligations.PinWriteIsVisibleToEveryReader : Prop :=
  ∀ (s t : State) (p q : Nat) (l : Line) (lv : Level) (sl : Slot),
    s.bus.slots[p]? = some sl → sl.attached = true → q < s.bus.slots.length →
    exec (.pinWrite p l lv) s = .next t →
    ∃ v : SignalSet, exec (.pinRead q) t = .next { t with result := .lines v } ∧
      exec .merged t = .next { t with result := .lines v } ∧
      (v.get l = .rel ↔ lv = .rel ∧
        ∀ (r : Nat) (sr : Slot), r ≠ p → s.bus.slots[r]? = some sr → sr.attached = true → sr.own.get l = .rel)

/-- 70_reset_and_hazards.md R220, 10_state.md R27: RESET leaves no slot attached, every line released, every engine in
its power-on record with its unit and port, and log and call trace empty. Nothing is said of a slot's unit number, which
the rule leaves unspecified. The clauses on the model's own fields are the model's choice: that the schedule and the
answers handed in for the Storage Backends stay is log 13 (the fields are logs 5 and 2), that no byte waits to be
dispatched is log 6, that there is no result is log 7. That the parameters stay is log 15. -/
def Obligations.ResetRestoresThePowerOnState : Prop :=
  ∀ s : State, ∃ t : State, exec .reset s = .next t ∧
    t.bus.slots.length = s.bus.slots.length ∧
    (∀ sl ∈ t.bus.slots, sl.attached = false ∧ sl.own = .allRel) ∧ t.bus.merged = .allRel ∧
    t.engines = s.engines.map (fun E => { idleEngine E with log := [], calls := [] }) ∧
    t.cfg = s.cfg ∧ t.schedule = s.schedule ∧ t.dispatching = none ∧ t.result = .noResult

/-- 40_bus_ops.md R80 (v): a port outside 0 .. NPORTS-1 is no operation of the block. That it is refused under this name
is the model's choice (log 10). -/
def Obligations.PortOutOfRangeIsRefused : Prop :=
  ∀ (s : State) (p : Nat) (u : UnitNumber) (l : Line) (lv : Level), s.bus.slots.length ≤ p →
    exec (.attach p u) s = .refused (.noSuchPort p) ∧ exec (.detach p) s = .refused (.noSuchPort p) ∧
    exec (.pinWrite p l lv) s = .refused (.noSuchPort p) ∧ exec (.pinRead p) s = .refused (.noSuchPort p)

/-! ## Invariants every step keeps -/

/-- 10_state.md R12: the wired-AND invariant holds after every step that starts with it. -/
def Obligations.EveryStepKeepsTheWiredAnd : Prop :=
  ∀ s t : State, WiredAnd s.bus → Sys2Proof.Machine.step s = .next t → WiredAnd t.bus

/-- 10_state.md R13: unit numbers stay unique among attached slots but for the sentinel. -/
def Obligations.EveryStepKeepsUnitsUnique : Prop :=
  ∀ s t : State, UnitsUnique s.cfg s.bus → Sys2Proof.Machine.step s = .next t → UnitsUnique t.cfg t.bus

/-- Every step keeps every engine's record legal: what each mode implies for role, state, command and transceiver
(10_state.md R14, R17, R20, R23; 41_mode_dispatcher.md section 3; 43_byte_rx.md R155, R159; 44_byte_tx.md R176, R180,
R182 ii), and leaves no byte waiting to be dispatched. -/
def Obligations.EveryStepKeepsEnginesLegal : Prop :=
  ∀ s t : State, EnginesLegal s → Sys2Proof.Machine.step s = .next t → EnginesLegal t

/-- `State.reset` meets the three invariants. -/
def Obligations.PowerOnMeetsTheInvariants : Prop :=
  WiredAnd State.reset.bus ∧ UnitsUnique State.reset.cfg State.reset.bus ∧ EnginesLegal State.reset

/-- 10_state.md R21: `E.unit` and `E.port` are fixed; no operation writes them. That the parameters and the number of
slots do not change either is the model's reading of 00_scope.md R6 and 10_state.md R24 (DEDUCED, log 15). -/
def Obligations.NoStepWritesTheConfiguration : Prop :=
  ∀ s t : State, Sys2Proof.Machine.step s = .next t →
    t.engines.map (fun E => (E.unit, E.port)) = s.engines.map (fun E => (E.unit, E.port)) ∧
    t.cfg = s.cfg ∧ t.bus.slots.length = s.bus.slots.length

/-! ## Encodings -/

/-- Decode and encode agree for every instruction, every operand at every value the encoding admits. The operand bytes of
operations are the model's (log 4); the command bytes are 30_encoding.md R65. -/
def Obligations.DecodeAfterEncodeGivesTheInstruction : Prop :=
  ∀ (i : Instr) (rest : List Byte), i.unitAddressable = true → decode (encode i ++ rest) = .ok (i, rest)

/-- A command byte has one meaning: the byte a decoded command encodes to is the byte itself (30_encoding.md R65). -/
def Obligations.CommandByteHasOneMeaning : Prop :=
  ∀ (b : Byte) (i : Instr), decodeCommand b = .ok i → encode i = [b] ∧ i.unitAddressable = true ∧ i.isCommand = true

/-- 30_encoding.md R66: the opcode map, complete for all 256 values. -/
def Obligations.OpcodeMapIsComplete : Prop :=
  ∀ b : Byte,
    (b.toNat < 0x20 → decodeCommand b = .error (.invalidCommand b)) ∧
    (0x20 ≤ b.toNat ∧ b.toNat ≤ 0x3E → decodeCommand b = .ok (.listen (BitVec.ofNat 5 (b.toNat - 0x20)))) ∧
    (b.toNat = 0x3F → decodeCommand b = .ok .unlisten) ∧
    (0x40 ≤ b.toNat ∧ b.toNat ≤ 0x5E → decodeCommand b = .ok (.talk (BitVec.ofNat 5 (b.toNat - 0x40)))) ∧
    (b.toNat = 0x5F → decodeCommand b = .ok .untalk) ∧
    (0x60 ≤ b.toNat ∧ b.toNat ≤ 0x6F → decodeCommand b = .ok (.reopenChannel (BitVec.ofNat 4 (b.toNat - 0x60)))) ∧
    (0x70 ≤ b.toNat ∧ b.toNat ≤ 0xDF → decodeCommand b = .error (.invalidCommand b)) ∧
    (0xE0 ≤ b.toNat ∧ b.toNat ≤ 0xEF → decodeCommand b = .ok (.closeChannel (BitVec.ofNat 4 (b.toNat - 0xE0)))) ∧
    (0xF0 ≤ b.toNat → decodeCommand b = .ok (.openChannel (BitVec.ofNat 4 (b.toNat - 0xF0))))

/-- A few words written out from 30_encoding.md R65 and R69 decode to the instructions they stand for. -/
def Obligations.WordsOfTheTableDecode : Prop :=
  decode [0b00111111#8] = .ok (.unlisten, []) ∧ decode [0b01011111#8] = .ok (.untalk, []) ∧
  decode [0b00101000#8] = .ok (.listen 8, []) ∧ decode [0b01001000#8] = .ok (.talk 8, []) ∧
  decode [0b01100010#8] = .ok (.reopenChannel 2, []) ∧ decode [0b11100010#8] = .ok (.closeChannel 2, []) ∧
  decode [0b11110010#8] = .ok (.openChannel 2, []) ∧ decode [0b00000000#8] = .ok (.reset, []) ∧
  decode [0b00000101#8, 0b00000001#8, 0b00000010#8, 0b00000000#8] = .ok (.pinWrite 1 .clk .act, [])

/-! ## What a step runs -/

/-- With no byte waiting to be dispatched, the operation at the head of the schedule is taken off it and run: the step is
its `exec` (20_memory.md R54). -/
def Obligations.StepRunsTheScheduledOperation : Prop :=
  ∀ (s : State) (i : Instr) (rest : List Byte), i.isCommand = false → s.dispatching = none →
    s.schedule = encode i ++ rest → Sys2Proof.Machine.step s = exec i { s with schedule := rest }

/-- A completed command byte is run on the engine that completed it, and the tick it is part of goes on to its end
(42_commands.md, opening; 41_mode_dispatcher.md R100). -/
def Obligations.StepRunsTheCompletedCommand : Prop :=
  ∀ (s t : State) (e : Nat) (E : Engine) (i : Instr), s.dispatching = some e → s.engines[e]? = some E →
    decode [E.tr.value] = .ok (i, []) → i.isCommand = true → exec i s = .next t → WiredAnd s.bus →
    ∃ (E' : Engine) (c : Ctx), t.engines[e]? = some E' ∧ Settles ⟨t.cfg, t.bus, E', t.free⟩ c ∧
      Sys2Proof.Machine.step s = .next { t with
        bus := c.bus, engines := t.engines.set e c.eng, free := c.free, result := .tick (.cycles t.cfg.tickCycles) }

/-- 60_exceptions.md R210: when no agent performs an operation the block holds its state and does nothing else. -/
def Obligations.StepWithoutAnOperationHoldsTheState : Prop :=
  ∀ s : State, s.dispatching = none → s.schedule = [] → Sys2Proof.Machine.step s = .next s

/-- A tick in whose first pass a command byte completes does what the command does as an instruction: it is the step of
the machine whose engine has just returned `Complete(b)` (43_byte_rx.md R157) and is dispatching it. -/
def Obligations.TickRunsACompletedCommandAsTheInstruction : Prop :=
  ∀ (s t : State) (e k : Nat) (E : Engine), s.engines[e]? = some E → s.cfg.clockModeImplemented = true →
    s.dispatching = none → WiredAnd s.bus → (E.mode = .command ∨ E.mode = .secondary) → E.state = .frame →
    s.cfg.tFrameHold ≤ E.time + k →
    exec (.tick e k) s = .next t →
    Sys2Proof.Machine.step { s with
      dispatching := some e
      engines := s.engines.set e { E with state := .idle, time := 0, tr := { E.tr with ready := true } } } = .next t

/-! ## The seven commands -/

/-- 42_commands.md R132: LISTEN makes the engine Listener exactly when the addressed unit is its own, and Passive
otherwise; the first goes on to Secondary and holds DAT, the second to Wait with its lines released (R136). -/
def Obligations.ListenAssignsTheRole : Prop :=
  ∀ (s : State) (e : Nat) (E : Engine) (u : BitVec 5), s.dispatching = some e → s.engines[e]? = some E →
    ∃ t, exec (.listen u) s = .next t ∧
      (u.setWidth 8 = E.unit → CommandRan e E.port
        (startingReception { E with cmd := { E.cmd with code := .listen, arg := u }, role := .listener, mode := .secondary })
        (withDat .act) s t) ∧
      (u.setWidth 8 ≠ E.unit → CommandRan e E.port
        (waitingEngine { E with cmd := { E.cmd with code := .listen, arg := u }, role := .passive }) released s t)

/-- R133: TALK makes the engine Talker exactly when the addressed unit is its own, and Passive otherwise. -/
def Obligations.TalkAssignsTheRole : Prop :=
  ∀ (s : State) (e : Nat) (E : Engine) (u : BitVec 5), s.dispatching = some e → s.engines[e]? = some E →
    ∃ t, exec (.talk u) s = .next t ∧
      (u.setWidth 8 = E.unit → CommandRan e E.port
        (startingReception { E with cmd := { E.cmd with code := .talk, arg := u }, role := .talker, mode := .secondary })
        (withDat .act) s t) ∧
      (u.setWidth 8 ≠ E.unit → CommandRan e E.port
        (waitingEngine { E with cmd := { E.cmd with code := .talk, arg := u }, role := .passive }) released s t)

/-- R134: UNLISTEN makes any engine Passive, releases its lines and takes it to Wait. -/
def Obligations.UnlistenMakesPassive : Prop :=
  ∀ (s : State) (e : Nat) (E : Engine), s.dispatching = some e → s.engines[e]? = some E →
    ∃ t, exec .unlisten s = .next t ∧ CommandRan e E.port
      (waitingEngine { E with cmd := { E.cmd with code := .unlisten, arg := 31 }, role := .passive }) released s t

/-- R135: UNTALK does the same. -/
def Obligations.UntalkMakesPassive : Prop :=
  ∀ (s : State) (e : Nat) (E : Engine), s.dispatching = some e → s.engines[e]? = some E →
    ∃ t, exec .untalk s = .next t ∧ CommandRan e E.port
      (waitingEngine { E with cmd := { E.cmd with code := .untalk, arg := 31 }, role := .passive }) released s t

/-- R137, R139, R140: OPEN and REOPEN in mode Secondary, in either role, record the channel and wait for the next byte;
no backend call is made. -/
def Obligations.OpenAndReopenRecordTheChannel : Prop :=
  ∀ (s : State) (e : Nat) (E : Engine) (ch : Channel), s.dispatching = some e → s.engines[e]? = some E →
    E.mode = .secondary →
    (∃ t, exec (.openChannel ch) s = .next t ∧ CommandRan e E.port
      (startingReception { E with cmd := { E.cmd with code := .openChannel, arg := ch.setWidth 5 } })
      (withDat .act) s t) ∧
    (∃ t, exec (.reopenChannel ch) s = .next t ∧ CommandRan e E.port
      (startingReception { E with cmd := { E.cmd with code := .reopenChannel, arg := ch.setWidth 5 } })
      (withDat .act) s t)

/-- R138: CLOSE in mode Secondary calls `Backend.close` of its channel at once, in either role, records the channel and
waits for the next byte. -/
def Obligations.CloseCallsTheBackendAtOnce : Prop :=
  ∀ (s : State) (e : Nat) (E : Engine) (ch : Channel), s.dispatching = some e → s.engines[e]? = some E →
    E.mode = .secondary →
    ∃ t, exec (.closeChannel ch) s = .next t ∧ CommandRan e E.port
      (startingReception { E with
        cmd := { E.cmd with code := .closeChannel, arg := ch.setWidth 5 }
        calls := E.calls ++ [.closeCall ch] })
      (withDat .act) s t

/-- R143: an OPEN, CLOSE or REOPEN byte in mode Command is addressed to nobody: recorded, Passive, Wait, nothing logged,
no backend call. -/
def Obligations.StraySecondaryIsNotObeyed : Prop :=
  ∀ (s : State) (e : Nat) (E : Engine) (ch : Channel), s.dispatching = some e → s.engines[e]? = some E →
    E.mode = .command →
    (∃ t, exec (.openChannel ch) s = .next t ∧ CommandRan e E.port
      (waitingEngine { E with cmd := { E.cmd with code := .openChannel, arg := ch.setWidth 5 }, role := .passive })
      released s t) ∧
    (∃ t, exec (.closeChannel ch) s = .next t ∧ CommandRan e E.port
      (waitingEngine { E with cmd := { E.cmd with code := .closeChannel, arg := ch.setWidth 5 }, role := .passive })
      released s t) ∧
    (∃ t, exec (.reopenChannel ch) s = .next t ∧ CommandRan e E.port
      (waitingEngine { E with cmd := { E.cmd with code := .reopenChannel, arg := ch.setWidth 5 }, role := .passive })
      released s t)

/-- A command is executed only when an engine has completed its byte (42_commands.md, opening); that it is refused
otherwise, under this name, is the model's choice (log 6). -/
def Obligations.CommandWithoutACompletedByteIsRefused : Prop :=
  ∀ (s : State) (i : Instr), i.isCommand = true → s.dispatching = none → exec i s = .refused .noCompletedByte

/-! ## The tick -/

/-- 41_mode_dispatcher.md R100, with R117: a tick adds `elapsed` once, makes passes until one reports no progress, always
gets there, and returns `TICK_CYCLES`; nothing outside the engine and the multiplexer changes. -/
def Obligations.TickRunsItsPassesToTheEnd : Prop :=
  ∀ (s : State) (e k : Nat) (E : Engine), s.engines[e]? = some E → s.cfg.clockModeImplemented = true →
    WiredAnd s.bus →
    ∃ c : Ctx, Settles ⟨s.cfg, s.bus, { E with time := E.time + k }, s.free⟩ c ∧
      exec (.tick e k) s = .next { s with
        bus := c.bus, engines := s.engines.set e c.eng, free := c.free, result := .tick (.cycles s.cfg.tickCycles) }

/-- R117: a pass reports progress only after a rule has changed the mode, the state or the cursor. -/
def Obligations.ProgressChangesTheSequencingState : Prop :=
  ∀ c c' : Ctx, advance c = (c', true) →
    (c'.eng.mode, c'.eng.state, c'.eng.tr.cursor) ≠ (c.eng.mode, c.eng.state, c.eng.tr.cursor)

/-- 60_exceptions.md R196: with an unimplemented bit-clocking mode every TICK logs it, changes nothing else, not even
`E.time`, and returns `TICK_CYCLES`. -/
def Obligations.UnimplementedClockModeTicksAreNoOps : Prop :=
  ∀ (s : State) (e k : Nat) (E : Engine), s.engines[e]? = some E → s.cfg.clockModeImplemented = false →
    exec (.tick e k) s = .next { s with
      engines := s.engines.set e { E with log := E.log ++ [.unimplementedClockMode] }
      result := .tick (.cycles s.cfg.tickCycles) }

/-- 41_mode_dispatcher.md R118: every tick returns `TICK_CYCLES` and none returns `HALT`. -/
def Obligations.NoTickReturnsHalt : Prop :=
  ∀ (s t : State) (e k : Nat), exec (.tick e k) s = .next t →
    t.result = .tick (.cycles s.cfg.tickCycles) ∧ t.result ≠ .tick .halt

/-- 60_exceptions.md R208: a tick of one engine leaves the other engines, the other slots, and every slot's registration
alone; engines share the registry and `merged` only. -/
def Obligations.TickTouchesOneEngineAndItsSlot : Prop :=
  ∀ (s t : State) (e k : Nat) (E : Engine), s.engines[e]? = some E → exec (.tick e k) s = .next t →
    t.engines.length = s.engines.length ∧ (∀ j, j ≠ e → t.engines[j]? = s.engines[j]?) ∧
    t.bus.slots.length = s.bus.slots.length ∧ (∀ q, q ≠ E.port → t.bus.slots[q]? = s.bus.slots[q]?) ∧
    t.bus.slots.map (fun sl => (sl.attached, sl.unit)) = s.bus.slots.map (fun sl => (sl.attached, sl.unit)) ∧
    t.cfg = s.cfg ∧ t.schedule = s.schedule ∧ t.dispatching = s.dispatching

/-- 60_exceptions.md R190, 20_memory.md R45: a tick appends to its engine's log and call trace and never takes anything
out of them. -/
def Obligations.TickOnlyAppendsToLogAndTrace : Prop :=
  ∀ (s t : State) (e k : Nat) (E : Engine), s.engines[e]? = some E → exec (.tick e k) s = .next t →
    ∃ (E' : Engine) (evs : List Event) (cs : List BackendCall), t.engines[e]? = some E' ∧
      E'.log = E.log ++ evs ∧ E'.calls = E.calls ++ cs

/-- 41_mode_dispatcher.md R103, 60_exceptions.md R198 (last sentence): a tick never pulls SRQ, ATN or RST. What its slot
holds of the three is what it held before, or released. -/
def Obligations.TickNeverPullsSrqAtnOrRst : Prop :=
  ∀ (s t : State) (e k p : Nat) (sl sl' : Slot), exec (.tick e k) s = .next t →
    s.bus.slots[p]? = some sl → t.bus.slots[p]? = some sl' →
    (sl'.own.srq = .rel ∨ sl'.own.srq = sl.own.srq) ∧ (sl'.own.atn = .rel ∨ sl'.own.atn = sl.own.atn) ∧
    (sl'.own.rst = .rel ∨ sl'.own.rst = sl.own.rst)

/-- 41_mode_dispatcher.md R101, 70_reset_and_hazards.md R222: SRQ and RST are never read. Two machines that differ in
those two lines only tick alike. -/
def Obligations.TickDoesNotDependOnSrqOrRst : Prop :=
  ∀ (s s' t : State) (e k : Nat), s'.cfg = s.cfg → s'.engines = s.engines → s'.free = s.free →
    WiredAnd s.bus → WiredAnd s'.bus → SameButSrqRst s.bus s'.bus → exec (.tick e k) s = .next t →
    ∃ t', exec (.tick e k) s' = .next t' ∧ t'.engines = t.engines ∧ t'.free = t.free ∧ t'.result = t.result ∧
      SameButSrqRst t.bus t'.bus

/-- 41_mode_dispatcher.md R116: a pass changes the mode along an edge of the mode graph or not at all. -/
def Obligations.PassesFollowTheModeGraph : Prop :=
  ∀ (c c' : Ctx) (progressed : Bool), advance c = (c', progressed) →
    c'.eng.mode = c.eng.mode ∨ ModeEdge c.eng.mode c'.eng.mode

/-- A TICK names an engine of the block (41_mode_dispatcher.md R100); that another is refused under this name is the
model's choice (log 10). -/
def Obligations.TickOfNoEngineIsRefused : Prop :=
  ∀ (s : State) (e k : Nat), s.engines.length ≤ e → exec (.tick e k) s = .refused (.noSuchEngine e)

/-! ## Whole ticks -/

/-- 41_mode_dispatcher.md R106: in Idle, ATN and CLK both active take the engine into Command, holding DAT, with its
command cleared; otherwise only time passes. -/
def Obligations.IdleEntersCommandOnAtnAndClk : Prop :=
  ∀ (s : State) (e k : Nat) (E : Engine), s.engines[e]? = some E → s.cfg.clockModeImplemented = true →
    WiredAnd s.bus → E.mode = .idle →
    ((s.bus.merged.atn = .act ∧ s.bus.merged.clk = .act) → ∃ (t : State) (b' : Bus), exec (.tick e k) s = .next t ∧
      TickLeft e (startingReception { E with mode := .command, cmd := ⟨.noCommand, 0, []⟩ }) b' s t ∧
      LinesAfter E.port (withDat .act) s.bus b') ∧
    (¬ (s.bus.merged.atn = .act ∧ s.bus.merged.clk = .act) → ∃ t : State, exec (.tick e k) s = .next t ∧
      TickLeft e { E with time := E.time + k } s.bus s t)

/-- R110: in Wait the release of ATN takes the engine to Idle, every per-transaction field reset and its lines released;
while ATN is active only time passes, whatever CLK and DAT do. -/
def Obligations.WaitEndsWhenAtnIsReleased : Prop :=
  ∀ (s : State) (e k : Nat) (E : Engine), s.engines[e]? = some E → s.cfg.clockModeImplemented = true →
    WiredAnd s.bus → E.mode = .wait →
    (s.bus.merged.atn = .rel → ∃ (t : State) (b' : Bus), exec (.tick e k) s = .next t ∧
      TickLeft e (idleEngine E) b' s t ∧ LinesAfter E.port released s.bus b') ∧
    (s.bus.merged.atn = .act → ∃ t : State, exec (.tick e k) s = .next t ∧
      TickLeft e { E with time := E.time + k } s.bus s t)

/-- 44_byte_tx.md R182: ATN active in mode Talker releases the lines, ends the transmission and, if the byte in flight
was not consumed, calls `push_back` of the channel exactly once; nothing is logged. With CLK active too the engine is in
Command by the end of the same tick (R182 vi). -/
def Obligations.AbortPushesBackExactlyOnce : Prop :=
  ∀ (s : State) (e k : Nat) (E : Engine), s.engines[e]? = some E → s.cfg.clockModeImplemented = true →
    WiredAnd s.bus → E.mode = .talker → s.bus.merged.atn = .act →
    ∃ (t : State) (E' : Engine) (b' : Bus), exec (.tick e k) s = .next t ∧ TickLeft e E' b' s t ∧
      IdleOrJoins
        { E with calls := E.calls ++ (if E.tr.ready then [] else [.pushBackCall (E.cmd.arg.setWidth 4)]) } E' s.bus b'

/-- 60_exceptions.md R193: a frame acknowledgment that does not come within `T_FRAME_TIMEOUT` is logged, the lines are
released and the engine is back in Idle; the byte is not pushed back. -/
def Obligations.FrameTimeoutForcesIdle : Prop :=
  ∀ (s : State) (e k : Nat) (E : Engine), s.engines[e]? = some E → s.cfg.clockModeImplemented = true →
    WiredAnd s.bus → E.mode = .talker → E.state = .frame → s.bus.merged.atn = .rel → s.bus.merged.dat = .rel →
    s.cfg.tFrameTimeout ≤ E.time + k →
    ∃ (t : State) (b' : Bus), exec (.tick e k) s = .next t ∧
      TickLeft e (idleEngine { E with log := E.log ++ [.frameTimeout] }) b' s t ∧ LinesAfter E.port released s.bus b'

/-- 60_exceptions.md R195: a sender that leaves CLK released for `T_BITDONE_TIMEOUT` in the receiver's BitDone is logged;
the engine releases its lines and falls back to Wait, the partial byte kept, no backend call made, and on to Idle if ATN
is released. -/
def Obligations.BitDoneTimeoutFallsBackToWait : Prop :=
  ∀ (s : State) (e k : Nat) (E : Engine), s.engines[e]? = some E → s.cfg.clockModeImplemented = true →
    WiredAnd s.bus → (E.mode = .command ∨ E.mode = .secondary ∨ E.mode = .data) → E.state = .bitDone →
    s.bus.merged.clk = .rel → s.cfg.tBitDoneTimeout ≤ E.time + k →
    ∃ (t : State) (E' : Engine) (b' : Bus), exec (.tick e k) s = .next t ∧ TickLeft e E' b' s t ∧
      WaitsOrIdles { E with log := E.log ++ [.bitDoneTimeout] } E' s.bus b'

/-- 60_exceptions.md R192: a completed command byte in 0x00 .. 0x1F or 0x70 .. 0xDF is logged with its value; the engine
releases its lines and falls back to Wait, role and command unchanged, the transceiver holding the byte. -/
def Obligations.InvalidByteFallsBackToWait : Prop :=
  ∀ (s : State) (e k : Nat) (E : Engine), s.engines[e]? = some E → s.cfg.clockModeImplemented = true →
    WiredAnd s.bus → (E.mode = .command ∨ E.mode = .secondary) → E.state = .frame →
    s.cfg.tFrameHold ≤ E.time + k →
    (E.tr.value.toNat < 0x20 ∨ (0x70 ≤ E.tr.value.toNat ∧ E.tr.value.toNat ≤ 0xDF)) →
    ∃ (t : State) (E' : Engine) (b' : Bus), exec (.tick e k) s = .next t ∧ TickLeft e E' b' s t ∧
      WaitsOrIdles { E with log := E.log ++ [.invalidCommand E.tr.value], tr := { E.tr with ready := true } } E' s.bus b'

/-- 41_mode_dispatcher.md R114 (i), source property S5: when `T_TURN_HOLD` is over and the first read says the stream is
empty, the engine releases its lines and is in Idle; it has made that one read and nothing is logged. Stated for every
answer the Storage Backend can give, handed in or free. -/
def Obligations.EmptyStreamGoesStraightToIdle : Prop :=
  ∀ (s : State) (e k : Nat) (E : Engine), s.engines[e]? = some E → s.cfg.clockModeImplemented = true →
    WiredAnd s.bus → E.mode = .turnHold → s.bus.merged.atn = .rel → s.cfg.tTurnHold ≤ E.time + k →
    (E.answers.head?.getD (Config.freeAnswer s.free)).eos = true →
    ∃ (t : State) (b' : Bus), exec (.tick e k) s = .next { t with
        free := s.free + (if E.answers = [] then 1 else 0) } ∧
      TickLeft e (idleEngine { E with
        calls := E.calls ++ [.readCall (E.cmd.arg.setWidth 4)], answers := E.answers.tail }) b' s t ∧
      LinesAfter E.port released s.bus b'

/-- 41_mode_dispatcher.md R112 with 42_commands.md R141, source property S7: a data byte is appended to the parameter;
when it carries end-of-information the deferred OPEN or REOPEN is executed with the channel and all the bytes, a CLOSE
does nothing, and the parameter is emptied; the engine then waits for the next byte holding DAT. -/
def Obligations.DataByteIsCollectedAndExecutedAtItsEnd : Prop :=
  ∀ (s : State) (e k : Nat) (E : Engine), s.engines[e]? = some E → s.cfg.clockModeImplemented = true →
    WiredAnd s.bus → E.mode = .data → E.state = .frame → s.bus.merged.atn = .rel → s.bus.merged.clk = .act →
    s.cfg.tFrameHold ≤ E.time + k → SecondaryCode E.cmd.code →
    ∃ (t : State) (b' : Bus), exec (.tick e k) s = .next t ∧ LinesAfter E.port (withDat .act) s.bus b' ∧
      (E.tr.last = false → TickLeft e
        (startingReception { E with cmd := { E.cmd with param := E.cmd.param ++ [E.tr.value] } }) b' s t) ∧
      (E.tr.last = true ∧ E.cmd.code = .openChannel → TickLeft e
        (startingReception { E with
          cmd := { E.cmd with param := [] }
          calls := E.calls ++ [.openCall (E.cmd.arg.setWidth 4) (E.cmd.param ++ [E.tr.value])] }) b' s t) ∧
      (E.tr.last = true ∧ E.cmd.code = .reopenChannel → TickLeft e
        (startingReception { E with
          cmd := { E.cmd with param := [] }
          calls := E.calls ++ [.writeCall (E.cmd.arg.setWidth 4) (E.cmd.param ++ [E.tr.value])] }) b' s t) ∧
      (E.tr.last = true ∧ E.cmd.code = .closeChannel → TickLeft e
        (startingReception { E with cmd := { E.cmd with param := [] } }) b' s t)

/-! ## Single passes -/

/-- 41_mode_dispatcher.md R107 (first line) and R111: between bytes of mode Command a released ATN ends the command
cycle; in mode Data ATN and CLK both active start a new one, in whatever receive state, dropping the command and its
parameter bytes and keeping the role. -/
def Obligations.AttentionEndsCommandAndData : Prop :=
  ∀ c : Ctx,
    (c.eng.mode = .command → c.eng.state = .init → c.bus.merged.atn = .rel →
      ∃ c', advance c = (c', true) ∧ CtxAfter (idleEngine c.eng) released c c') ∧
    (c.eng.mode = .data → c.bus.merged.atn = .act → c.bus.merged.clk = .act →
      ∃ c', advance c = (c', true) ∧
        CtxAfter (startingReception { c.eng with mode := .command, cmd := ⟨.noCommand, 0, []⟩ }) (withDat .act) c c')

/-- 41_mode_dispatcher.md R109: when ATN is released between bytes of mode Secondary, a Listener with a secondary command
goes to Data, a Talker with one to Turnaround, and an engine without one back to Idle. -/
def Obligations.SecondaryPartsByRole : Prop :=
  ∀ c : Ctx, c.eng.mode = .secondary → c.eng.state = .init → c.bus.merged.atn = .rel →
    (SecondaryCode c.eng.cmd.code → c.eng.role = .listener → ∃ c', advance c = (c', true) ∧
      CtxAfter (startingReception { c.eng with mode := .data }) (withDat .act) c c') ∧
    (SecondaryCode c.eng.cmd.code → c.eng.role = .talker →
      advance c = ({ c with eng := { c.eng with mode := .turnaround, state := .idle, time := 0 } }, true)) ∧
    (¬ SecondaryCode c.eng.cmd.code → ∃ c', advance c = (c', true) ∧ CtxAfter (idleEngine c.eng) released c c')

/-- 41_mode_dispatcher.md R113: in Turnaround ATN active goes back to Idle; else CLK released lets the engine take CLK
and let go of DAT, into TurnHold; else nothing happens. -/
def Obligations.TurnaroundTakesTheClock : Prop :=
  ∀ c : Ctx, c.eng.mode = .turnaround →
    (c.bus.merged.atn = .act → ∃ c', advance c = (c', true) ∧ CtxAfter (idleEngine c.eng) released c c') ∧
    (c.bus.merged.atn = .rel → c.bus.merged.clk = .rel → ∃ c', advance c = (c', true) ∧
      CtxAfter { c.eng with mode := .turnHold, state := .idle, time := 0 }
        (fun v => withDat .rel (withClk .act v)) c c') ∧
    (c.bus.merged.atn = .rel → c.bus.merged.clk = .act → advance c = (c, false))

/-- 41_mode_dispatcher.md R114 with 44_byte_tx.md R170: the end of TurnHold makes the first read; a byte makes the engine
the talker with that byte in flight; before `T_TURN_HOLD` nothing happens; ATN active goes back to Idle. -/
def Obligations.TurnHoldFetchesTheFirstByte : Prop :=
  ∀ (c : Ctx) (r : ReadResult), c.eng.mode = .turnHold → r = c.eng.answers.head?.getD (Config.freeAnswer c.free) →
    (c.bus.merged.atn = .act → ∃ c', advance c = (c', true) ∧ CtxAfter (idleEngine c.eng) released c c') ∧
    (c.bus.merged.atn = .rel → c.eng.time < c.cfg.tTurnHold → advance c = (c, false)) ∧
    (c.bus.merged.atn = .rel → c.cfg.tTurnHold ≤ c.eng.time → r.eos = false →
      ∃ n, advance c = ({ c with
        free := n
        eng := { c.eng with
          mode := .talker, state := .init, time := 0, tr := ⟨r.byte, r.last, false, 0⟩
          calls := c.eng.calls ++ [.readCall (c.eng.cmd.arg.setWidth 4)], answers := c.eng.answers.tail } }, true)) ∧
    (c.bus.merged.atn = .rel → c.cfg.tTurnHold ≤ c.eng.time → r.eos = true →
      ∃ c', advance c = (c', true) ∧ LinesAfter c.eng.port released c.bus c'.bus ∧ c'.cfg = c.cfg ∧
        c'.eng = idleEngine { c.eng with
          calls := c.eng.calls ++ [.readCall (c.eng.cmd.arg.setWidth 4)], answers := c.eng.answers.tail })

/-- 43_byte_rx.md R151, R152, R153: the receiver's handshake before the first bit. -/
def Obligations.ReceiverHandshakeBeforeTheBits : Prop :=
  ∀ (c : Ctx) (d : Level),
    (c.eng.state = .init →
      (∃ c', rxStep .rel d c = (c', .progress) ∧
        CtxAfter { c.eng with state := .ready, time := 0 } (withDat .rel) c c') ∧
      rxStep .act d c = (c, .noProgress)) ∧
    (c.eng.state = .ready →
      rxStep .act d c = ({ c with eng := { c.eng with state := .bitWait, time := 0 } }, .progress) ∧
      (c.eng.time < c.cfg.tEoi → rxStep .rel d c = (c, .noProgress)) ∧
      (c.cfg.tEoi ≤ c.eng.time → ∃ c', rxStep .rel d c = (c', .progress) ∧
        CtxAfter { c.eng with state := .eoi, time := 0, tr := { c.eng.tr with last := true } } (withDat .act) c c')) ∧
    (c.eng.state = .eoi →
      (c.eng.time < c.cfg.tEoiAck → rxStep .act d c = (c, .noProgress) ∧ rxStep .rel d c = (c, .noProgress)) ∧
      (c.cfg.tEoiAck ≤ c.eng.time →
        (∃ c', rxStep .act d c = (c', .progress) ∧
          CtxAfter { c.eng with state := .bitWait, time := 0 } (withDat .rel) c c') ∧
        (∃ c', rxStep .rel d c = (c', .noProgress) ∧ CtxAfter c.eng (withDat .rel) c c')))

/-- 43_byte_rx.md R154, R155, R157: a bit is sampled when CLK is released, at the position of the cursor; CLK active ends
it and, after the eighth, begins the frame acknowledge; `T_FRAME_HOLD` later the byte is delivered. The bit sampled is
said bit by bit. -/
def Obligations.ReceiverSamplesEightBitsAndDelivers : Prop :=
  ∀ (c : Ctx) (d : Level),
    (c.eng.state = .bitWait → c.eng.tr.cursor < 8 →
      rxStep .act d c = (c, .noProgress) ∧
      ∃ v : Byte, (∀ j, j < 8 → v.getLsbD j =
          if j = c.eng.tr.cursor then (c.eng.tr.value.getLsbD j || d = .rel) else c.eng.tr.value.getLsbD j) ∧
        rxStep .rel d c = ({ c with eng := { c.eng with
          state := .bitDone, time := 0, tr := { c.eng.tr with value := v, cursor := c.eng.tr.cursor + 1 } } }, .progress)) ∧
    (c.eng.state = .bitDone →
      (c.eng.tr.cursor = 8 → ∃ c', rxStep .act d c = (c', .progress) ∧
        CtxAfter { c.eng with state := .frame, time := 0 } (withDat .act) c c') ∧
      (c.eng.tr.cursor ≠ 8 →
        rxStep .act d c = ({ c with eng := { c.eng with state := .bitWait, time := 0 } }, .progress)) ∧
      (c.eng.time < c.cfg.tBitDoneTimeout → rxStep .rel d c = (c, .noProgress))) ∧
    (c.eng.state = .frame →
      (c.eng.time < c.cfg.tFrameHold → ∀ cl, rxStep cl d c = (c, .noProgress)) ∧
      (c.cfg.tFrameHold ≤ c.eng.time → ∀ cl, rxStep cl d c = ({ c with eng := { c.eng with
        state := .idle, time := 0, tr := { c.eng.tr with ready := true } } }, .complete c.eng.tr.value)))

/-- 20_memory.md R52: a byte presented bit by bit, least significant bit first, released for 1 and active for 0, and
sampled bit by bit into an empty transceiver, arrives as itself. -/
def Obligations.BitsSentAreTheByteReceived : Prop :=
  ∀ v : Byte, (List.range 8).foldl (fun acc i => sampleBit acc i (Level.ofBit (bitAt v i))) 0 = v

/-- 44_byte_tx.md R171: with the other attached participants leaving DAT alone, the bus shows CLK active and DAT at the
level of the bit at the cursor, released for 1; the transceiver is not changed. -/
def Obligations.PutBitShowsTheBitOnTheBus : Prop :=
  ∀ (c : Ctx) (sl : Slot), c.bus.slots[c.eng.port]? = some sl → sl.attached = true →
    (∀ (q : Nat) (sq : Slot), q ≠ c.eng.port → c.bus.slots[q]? = some sq → sq.attached = true → sq.own.dat = .rel) →
    (putBit c).bus.merged.clk = .act ∧
    ((putBit c).bus.merged.dat = .rel ↔ c.eng.tr.value.getLsbD c.eng.tr.cursor = true) ∧
    (putBit c).eng = { c.eng with state := .bitWait, time := 0 }

/-- 44_byte_tx.md R172, R173, R174, R175, R179: the sender's handshake and its set-up and inter-byte times. -/
def Obligations.SenderHandshakeAndTimes : Prop :=
  ∀ (c : Ctx) (d : Level),
    (c.eng.state = .init → ∃ c', txStep d c = (c', true) ∧
      CtxAfter { c.eng with state := .ready, time := 0 } (withClk .rel) c c') ∧
    (c.eng.state = .ready →
      txStep .act c = (c, false) ∧
      (c.eng.tr.last = true → txStep .rel c = ({ c with eng := { c.eng with state := .eoi, time := 0 } }, true)) ∧
      (c.eng.tr.last = false → ∃ c', txStep .rel c = (c', true) ∧
        CtxAfter { c.eng with state := .bitWait, time := 0 }
          (fun v => withDat (if c.eng.tr.value.getLsbD c.eng.tr.cursor then .rel else .act) (withClk .act v)) c c')) ∧
    (c.eng.state = .eoi →
      txStep .act c = (c, false) ∧
      (c.eng.time < c.cfg.tEoiHold → txStep .rel c = (c, false)) ∧
      (c.cfg.tEoiHold ≤ c.eng.time → ∃ c', txStep .rel c = (c', true) ∧
        CtxAfter { c.eng with state := .bitWait, time := 0 }
          (fun v => withDat (if c.eng.tr.value.getLsbD c.eng.tr.cursor then .rel else .act) (withClk .act v)) c c')) ∧
    (c.eng.state = .bitWait →
      (c.eng.time < c.cfg.tSetup → txStep d c = (c, false)) ∧
      (c.cfg.tSetup ≤ c.eng.time → ∃ c', txStep d c = (c', true) ∧
        CtxAfter { c.eng with state := .bitDone, time := 0 } (withClk .rel) c c')) ∧
    (c.eng.state = .frameWait →
      (c.eng.time < c.cfg.tBb → txStep d c = (c, false)) ∧
      (c.cfg.tBb ≤ c.eng.time →
        txStep d c = ({ c with eng := { c.eng with state := .init, time := 0 } }, true)))

/-- 44_byte_tx.md R176: after `T_VALID` the cursor moves on; the next bit is presented, or after the eighth CLK is pulled
and DAT let go for the frame acknowledge. -/
def Obligations.SenderMovesToTheNextBitOrEndsTheByte : Prop :=
  ∀ (c : Ctx) (d : Level), c.eng.state = .bitDone →
    (c.eng.time < c.cfg.tValid → txStep d c = (c, false)) ∧
    (c.cfg.tValid ≤ c.eng.time → c.eng.tr.cursor + 1 < 8 → ∃ c', txStep d c = (c', true) ∧
      CtxAfter { c.eng with state := .bitWait, time := 0, tr := { c.eng.tr with cursor := c.eng.tr.cursor + 1 } }
        (fun v => withDat (if c.eng.tr.value.getLsbD (c.eng.tr.cursor + 1) then .rel else .act) (withClk .act v)) c c') ∧
    (c.cfg.tValid ≤ c.eng.time → 8 ≤ c.eng.tr.cursor + 1 → ∃ c', txStep d c = (c', true) ∧
      CtxAfter { c.eng with state := .frame, time := 0, tr := { c.eng.tr with cursor := c.eng.tr.cursor + 1 } }
        (fun v => withDat .rel (withClk .act v)) c c')

/-- 44_byte_tx.md R178, R183: the frame acknowledgement ends the transmission after the last byte, without a read;
otherwise it makes exactly one read, which puts the next byte in flight or, at the end of the stream, ends the
transmission silently. -/
def Obligations.FrameAcknowledgeFetchesTheNextByte : Prop :=
  ∀ (c : Ctx) (r : ReadResult), c.eng.state = .frame → r = c.eng.answers.head?.getD (Config.freeAnswer c.free) →
    (c.eng.tr.last = true → ∃ c', txStep .act c = (c', true) ∧ CtxAfter (idleEngine c.eng) released c c') ∧
    (c.eng.tr.last = false → r.eos = false → ∃ n, txStep .act c = ({ c with
      free := n
      eng := { c.eng with
        state := .frameWait, time := 0, tr := ⟨r.byte, r.last, false, 0⟩
        calls := c.eng.calls ++ [.readCall (c.eng.cmd.arg.setWidth 4)], answers := c.eng.answers.tail } }, true)) ∧
    (c.eng.tr.last = false → r.eos = true → ∃ c', txStep .act c = (c', true) ∧
      LinesAfter c.eng.port released c.bus c'.bus ∧ c'.cfg = c.cfg ∧
      c'.eng = idleEngine { c.eng with
        calls := c.eng.calls ++ [.readCall (c.eng.cmd.arg.setWidth 4)], answers := c.eng.answers.tail })
end

