-- ==== Sys2Proof/Laws/State.lean ====
section
/-! SUPPORT. One lemma per field per update of the engine's context and of the state, all by `rfl`: no later proof
unfolds a record update. -/

namespace Sys2Proof.Machine

/-! ### setState -/

section
variable (st : Handshake) (c : Ctx)

@[simp] theorem setState_cfg : (setState st c).cfg = c.cfg := rfl
@[simp] theorem setState_bus : (setState st c).bus = c.bus := rfl
@[simp] theorem setState_free : (setState st c).free = c.free := rfl
@[simp] theorem setState_unit : (setState st c).eng.unit = c.eng.unit := rfl
@[simp] theorem setState_port : (setState st c).eng.port = c.eng.port := rfl
@[simp] theorem setState_mode : (setState st c).eng.mode = c.eng.mode := rfl
@[simp] theorem setState_role : (setState st c).eng.role = c.eng.role := rfl
@[simp] theorem setState_state : (setState st c).eng.state = st := rfl
@[simp] theorem setState_time : (setState st c).eng.time = 0 := rfl
@[simp] theorem setState_cmd : (setState st c).eng.cmd = c.eng.cmd := rfl
@[simp] theorem setState_tr : (setState st c).eng.tr = c.eng.tr := rfl
@[simp] theorem setState_log : (setState st c).eng.log = c.eng.log := rfl
@[simp] theorem setState_calls : (setState st c).eng.calls = c.eng.calls := rfl
@[simp] theorem setState_answers : (setState st c).eng.answers = c.eng.answers := rfl

end

/-! ### setMode -/

section
variable (m : Mode) (c : Ctx)

@[simp] theorem setMode_cfg : (setMode m c).cfg = c.cfg := rfl
@[simp] theorem setMode_bus : (setMode m c).bus = c.bus := rfl
@[simp] theorem setMode_free : (setMode m c).free = c.free := rfl
@[simp] theorem setMode_unit : (setMode m c).eng.unit = c.eng.unit := rfl
@[simp] theorem setMode_port : (setMode m c).eng.port = c.eng.port := rfl
@[simp] theorem setMode_mode : (setMode m c).eng.mode = m := rfl
@[simp] theorem setMode_role : (setMode m c).eng.role = c.eng.role := rfl
@[simp] theorem setMode_state : (setMode m c).eng.state = c.eng.state := rfl
@[simp] theorem setMode_time : (setMode m c).eng.time = c.eng.time := rfl
@[simp] theorem setMode_cmd : (setMode m c).eng.cmd = c.eng.cmd := rfl
@[simp] theorem setMode_tr : (setMode m c).eng.tr = c.eng.tr := rfl
@[simp] theorem setMode_log : (setMode m c).eng.log = c.eng.log := rfl
@[simp] theorem setMode_calls : (setMode m c).eng.calls = c.eng.calls := rfl
@[simp] theorem setMode_answers : (setMode m c).eng.answers = c.eng.answers := rfl

end

/-! ### setRole -/

section
variable (r : Role) (c : Ctx)

@[simp] theorem setRole_cfg : (setRole r c).cfg = c.cfg := rfl
@[simp] theorem setRole_bus : (setRole r c).bus = c.bus := rfl
@[simp] theorem setRole_free : (setRole r c).free = c.free := rfl
@[simp] theorem setRole_unit : (setRole r c).eng.unit = c.eng.unit := rfl
@[simp] theorem setRole_port : (setRole r c).eng.port = c.eng.port := rfl
@[simp] theorem setRole_mode : (setRole r c).eng.mode = c.eng.mode := rfl
@[simp] theorem setRole_role : (setRole r c).eng.role = r := rfl
@[simp] theorem setRole_state : (setRole r c).eng.state = c.eng.state := rfl
@[simp] theorem setRole_time : (setRole r c).eng.time = c.eng.time := rfl
@[simp] theorem setRole_cmd : (setRole r c).eng.cmd = c.eng.cmd := rfl
@[simp] theorem setRole_tr : (setRole r c).eng.tr = c.eng.tr := rfl
@[simp] theorem setRole_log : (setRole r c).eng.log = c.eng.log := rfl
@[simp] theorem setRole_calls : (setRole r c).eng.calls = c.eng.calls := rfl
@[simp] theorem setRole_answers : (setRole r c).eng.answers = c.eng.answers := rfl

end

/-! ### setCmd -/

section
variable (k : ParsedCommand) (c : Ctx)

@[simp] theorem setCmd_cfg : (setCmd k c).cfg = c.cfg := rfl
@[simp] theorem setCmd_bus : (setCmd k c).bus = c.bus := rfl
@[simp] theorem setCmd_free : (setCmd k c).free = c.free := rfl
@[simp] theorem setCmd_unit : (setCmd k c).eng.unit = c.eng.unit := rfl
@[simp] theorem setCmd_port : (setCmd k c).eng.port = c.eng.port := rfl
@[simp] theorem setCmd_mode : (setCmd k c).eng.mode = c.eng.mode := rfl
@[simp] theorem setCmd_role : (setCmd k c).eng.role = c.eng.role := rfl
@[simp] theorem setCmd_state : (setCmd k c).eng.state = c.eng.state := rfl
@[simp] theorem setCmd_time : (setCmd k c).eng.time = c.eng.time := rfl
@[simp] theorem setCmd_cmd : (setCmd k c).eng.cmd = k := rfl
@[simp] theorem setCmd_tr : (setCmd k c).eng.tr = c.eng.tr := rfl
@[simp] theorem setCmd_log : (setCmd k c).eng.log = c.eng.log := rfl
@[simp] theorem setCmd_calls : (setCmd k c).eng.calls = c.eng.calls := rfl
@[simp] theorem setCmd_answers : (setCmd k c).eng.answers = c.eng.answers := rfl

end

/-! ### recordCommand -/

section
variable (code : CommandCode) (arg : BitVec 5) (c : Ctx)

@[simp] theorem recordCommand_cfg : (recordCommand code arg c).cfg = c.cfg := rfl
@[simp] theorem recordCommand_bus : (recordCommand code arg c).bus = c.bus := rfl
@[simp] theorem recordCommand_free : (recordCommand code arg c).free = c.free := rfl
@[simp] theorem recordCommand_unit : (recordCommand code arg c).eng.unit = c.eng.unit := rfl
@[simp] theorem recordCommand_port : (recordCommand code arg c).eng.port = c.eng.port := rfl
@[simp] theorem recordCommand_mode : (recordCommand code arg c).eng.mode = c.eng.mode := rfl
@[simp] theorem recordCommand_role : (recordCommand code arg c).eng.role = c.eng.role := rfl
@[simp] theorem recordCommand_state : (recordCommand code arg c).eng.state = c.eng.state := rfl
@[simp] theorem recordCommand_time : (recordCommand code arg c).eng.time = c.eng.time := rfl
@[simp] theorem recordCommand_cmd : (recordCommand code arg c).eng.cmd = ⟨code, arg, c.eng.cmd.param⟩ := rfl
@[simp] theorem recordCommand_tr : (recordCommand code arg c).eng.tr = c.eng.tr := rfl
@[simp] theorem recordCommand_log : (recordCommand code arg c).eng.log = c.eng.log := rfl
@[simp] theorem recordCommand_calls : (recordCommand code arg c).eng.calls = c.eng.calls := rfl
@[simp] theorem recordCommand_answers : (recordCommand code arg c).eng.answers = c.eng.answers := rfl

end

/-! ### setParam -/

section
variable (bs : List Byte) (c : Ctx)

@[simp] theorem setParam_cfg : (setParam bs c).cfg = c.cfg := rfl
@[simp] theorem setParam_bus : (setParam bs c).bus = c.bus := rfl
@[simp] theorem setParam_free : (setParam bs c).free = c.free := rfl
@[simp] theorem setParam_unit : (setParam bs c).eng.unit = c.eng.unit := rfl
@[simp] theorem setParam_port : (setParam bs c).eng.port = c.eng.port := rfl
@[simp] theorem setParam_mode : (setParam bs c).eng.mode = c.eng.mode := rfl
@[simp] theorem setParam_role : (setParam bs c).eng.role = c.eng.role := rfl
@[simp] theorem setParam_state : (setParam bs c).eng.state = c.eng.state := rfl
@[simp] theorem setParam_time : (setParam bs c).eng.time = c.eng.time := rfl
@[simp] theorem setParam_cmd : (setParam bs c).eng.cmd = ⟨c.eng.cmd.code, c.eng.cmd.arg, bs⟩ := rfl
@[simp] theorem setParam_tr : (setParam bs c).eng.tr = c.eng.tr := rfl
@[simp] theorem setParam_log : (setParam bs c).eng.log = c.eng.log := rfl
@[simp] theorem setParam_calls : (setParam bs c).eng.calls = c.eng.calls := rfl
@[simp] theorem setParam_answers : (setParam bs c).eng.answers = c.eng.answers := rfl

end

/-! ### setTr -/

section
variable (t : Transceiver) (c : Ctx)

@[simp] theorem setTr_cfg : (setTr t c).cfg = c.cfg := rfl
@[simp] theorem setTr_bus : (setTr t c).bus = c.bus := rfl
@[simp] theorem setTr_free : (setTr t c).free = c.free := rfl
@[simp] theorem setTr_unit : (setTr t c).eng.unit = c.eng.unit := rfl
@[simp] theorem setTr_port : (setTr t c).eng.port = c.eng.port := rfl
@[simp] theorem setTr_mode : (setTr t c).eng.mode = c.eng.mode := rfl
@[simp] theorem setTr_role : (setTr t c).eng.role = c.eng.role := rfl
@[simp] theorem setTr_state : (setTr t c).eng.state = c.eng.state := rfl
@[simp] theorem setTr_time : (setTr t c).eng.time = c.eng.time := rfl
@[simp] theorem setTr_cmd : (setTr t c).eng.cmd = c.eng.cmd := rfl
@[simp] theorem setTr_tr : (setTr t c).eng.tr = t := rfl
@[simp] theorem setTr_log : (setTr t c).eng.log = c.eng.log := rfl
@[simp] theorem setTr_calls : (setTr t c).eng.calls = c.eng.calls := rfl
@[simp] theorem setTr_answers : (setTr t c).eng.answers = c.eng.answers := rfl

end

/-! ### addTime -/

section
variable (k : Nat) (c : Ctx)

@[simp] theorem addTime_cfg : (addTime k c).cfg = c.cfg := rfl
@[simp] theorem addTime_bus : (addTime k c).bus = c.bus := rfl
@[simp] theorem addTime_free : (addTime k c).free = c.free := rfl
@[simp] theorem addTime_unit : (addTime k c).eng.unit = c.eng.unit := rfl
@[simp] theorem addTime_port : (addTime k c).eng.port = c.eng.port := rfl
@[simp] theorem addTime_mode : (addTime k c).eng.mode = c.eng.mode := rfl
@[simp] theorem addTime_role : (addTime k c).eng.role = c.eng.role := rfl
@[simp] theorem addTime_state : (addTime k c).eng.state = c.eng.state := rfl
@[simp] theorem addTime_time : (addTime k c).eng.time = c.eng.time + k := rfl
@[simp] theorem addTime_cmd : (addTime k c).eng.cmd = c.eng.cmd := rfl
@[simp] theorem addTime_tr : (addTime k c).eng.tr = c.eng.tr := rfl
@[simp] theorem addTime_log : (addTime k c).eng.log = c.eng.log := rfl
@[simp] theorem addTime_calls : (addTime k c).eng.calls = c.eng.calls := rfl
@[simp] theorem addTime_answers : (addTime k c).eng.answers = c.eng.answers := rfl

end

/-! ### logEvent -/

section
variable (ev : Event) (c : Ctx)

@[simp] theorem logEvent_cfg : (logEvent ev c).cfg = c.cfg := rfl
@[simp] theorem logEvent_bus : (logEvent ev c).bus = c.bus := rfl
@[simp] theorem logEvent_free : (logEvent ev c).free = c.free := rfl
@[simp] theorem logEvent_unit : (logEvent ev c).eng.unit = c.eng.unit := rfl
@[simp] theorem logEvent_port : (logEvent ev c).eng.port = c.eng.port := rfl
@[simp] theorem logEvent_mode : (logEvent ev c).eng.mode = c.eng.mode := rfl
@[simp] theorem logEvent_role : (logEvent ev c).eng.role = c.eng.role := rfl
@[simp] theorem logEvent_state : (logEvent ev c).eng.state = c.eng.state := rfl
@[simp] theorem logEvent_time : (logEvent ev c).eng.time = c.eng.time := rfl
@[simp] theorem logEvent_cmd : (logEvent ev c).eng.cmd = c.eng.cmd := rfl
@[simp] theorem logEvent_tr : (logEvent ev c).eng.tr = c.eng.tr := rfl
@[simp] theorem logEvent_log : (logEvent ev c).eng.log = c.eng.log ++ [ev] := rfl
@[simp] theorem logEvent_calls : (logEvent ev c).eng.calls = c.eng.calls := rfl
@[simp] theorem logEvent_answers : (logEvent ev c).eng.answers = c.eng.answers := rfl

end

/-! ### callBackend -/

section
variable (k : BackendCall) (c : Ctx)

@[simp] theorem callBackend_cfg : (callBackend k c).cfg = c.cfg := rfl
@[simp] theorem callBackend_bus : (callBackend k c).bus = c.bus := rfl
@[simp] theorem callBackend_free : (callBackend k c).free = c.free := rfl
@[simp] theorem callBackend_unit : (callBackend k c).eng.unit = c.eng.unit := rfl
@[simp] theorem callBackend_port : (callBackend k c).eng.port = c.eng.port := rfl
@[simp] theorem callBackend_mode : (callBackend k c).eng.mode = c.eng.mode := rfl
@[simp] theorem callBackend_role : (callBackend k c).eng.role = c.eng.role := rfl
@[simp] theorem callBackend_state : (callBackend k c).eng.state = c.eng.state := rfl
@[simp] theorem callBackend_time : (callBackend k c).eng.time = c.eng.time := rfl
@[simp] theorem callBackend_cmd : (callBackend k c).eng.cmd = c.eng.cmd := rfl
@[simp] theorem callBackend_tr : (callBackend k c).eng.tr = c.eng.tr := rfl
@[simp] theorem callBackend_log : (callBackend k c).eng.log = c.eng.log := rfl
@[simp] theorem callBackend_calls : (callBackend k c).eng.calls = c.eng.calls ++ [k] := rfl
@[simp] theorem callBackend_answers : (callBackend k c).eng.answers = c.eng.answers := rfl

end

/-! ### bumpCursor -/

section
variable (c : Ctx)

@[simp] theorem bumpCursor_cfg : (bumpCursor c).cfg = c.cfg := rfl
@[simp] theorem bumpCursor_bus : (bumpCursor c).bus = c.bus := rfl
@[simp] theorem bumpCursor_free : (bumpCursor c).free = c.free := rfl
@[simp] theorem bumpCursor_unit : (bumpCursor c).eng.unit = c.eng.unit := rfl
@[simp] theorem bumpCursor_port : (bumpCursor c).eng.port = c.eng.port := rfl
@[simp] theorem bumpCursor_mode : (bumpCursor c).eng.mode = c.eng.mode := rfl
@[simp] theorem bumpCursor_role : (bumpCursor c).eng.role = c.eng.role := rfl
@[simp] theorem bumpCursor_state : (bumpCursor c).eng.state = c.eng.state := rfl
@[simp] theorem bumpCursor_time : (bumpCursor c).eng.time = c.eng.time := rfl
@[simp] theorem bumpCursor_cmd : (bumpCursor c).eng.cmd = c.eng.cmd := rfl
@[simp] theorem bumpCursor_tr : (bumpCursor c).eng.tr = ⟨c.eng.tr.value, c.eng.tr.last, c.eng.tr.ready, c.eng.tr.cursor + 1⟩ := rfl
@[simp] theorem bumpCursor_log : (bumpCursor c).eng.log = c.eng.log := rfl
@[simp] theorem bumpCursor_calls : (bumpCursor c).eng.calls = c.eng.calls := rfl
@[simp] theorem bumpCursor_answers : (bumpCursor c).eng.answers = c.eng.answers := rfl

end

/-! ### drive -/

section
variable (l : Line) (lv : Level) (c : Ctx)

@[simp] theorem drive_cfg : (drive l lv c).cfg = c.cfg := rfl
@[simp] theorem drive_eng : (drive l lv c).eng = c.eng := rfl
@[simp] theorem drive_free : (drive l lv c).free = c.free := rfl
@[simp] theorem drive_bus : (drive l lv c).bus = pinWrite c.eng.port l lv c.bus := rfl

end

/-! ### storeCtx -/

section
variable (e : Nat) (c : Ctx) (s : State)

@[simp] theorem storeCtx_cfg : (storeCtx e c s).cfg = s.cfg := rfl
@[simp] theorem storeCtx_bus : (storeCtx e c s).bus = c.bus := rfl
@[simp] theorem storeCtx_engines : (storeCtx e c s).engines = s.engines.set e c.eng := rfl
@[simp] theorem storeCtx_schedule : (storeCtx e c s).schedule = s.schedule := rfl
@[simp] theorem storeCtx_dispatching : (storeCtx e c s).dispatching = s.dispatching := rfl
@[simp] theorem storeCtx_result : (storeCtx e c s).result = s.result := rfl
@[simp] theorem storeCtx_free : (storeCtx e c s).free = c.free := rfl

end

/-- There is a context for engine `e` exactly when there is an engine `e`, and it is this one. -/
theorem loadCtx_eq_some (e : Nat) (s : State) (c : Ctx) :
    loadCtx e s = some c ↔ ∃ E, s.engines[e]? = some E ∧ c = ⟨s.cfg, s.bus, E, s.free⟩ := by
  cases h : s.engines[e]? with
  | none => simp [loadCtx, h]
  | some E => simp [loadCtx, h, eq_comm]

@[simp] theorem loadCtx_of_engine {e : Nat} {s : State} {E : Engine} (h : s.engines[e]? = some E) :
    loadCtx e s = some ⟨s.cfg, s.bus, E, s.free⟩ := by simp [loadCtx, h]

/-- A command runs when, and only when, some engine that exists has just completed a byte; then only that engine's
context is stored, and the byte is no longer waiting. -/
theorem onDispatching_eq_next (f : Ctx → Ctx) (s t : State) :
    onDispatching f s = .next t ↔
      ∃ e E, s.dispatching = some e ∧ s.engines[e]? = some E ∧
        t = { storeCtx e (f ⟨s.cfg, s.bus, E, s.free⟩) s with dispatching := none } := by
  unfold onDispatching
  cases hd : s.dispatching with
  | none => simp
  | some e =>
    cases he : s.engines[e]? with
    | none => simp [loadCtx, he]
    | some E => simp [loadCtx, he, eq_comm]

/-- An operation on a port answers a next state exactly when the port exists. -/
theorem onPort_eq_next (p : Nat) (f : Slot → State) (s t : State) :
    onPort p f s = .next t ↔ ∃ sl, s.bus.slots[p]? = some sl ∧ t = f sl := by
  unfold onPort
  cases h : s.bus.slots[p]? with
  | none => simp
  | some sl => simp [eq_comm]

theorem onPort_out_of_range {p : Nat} {f : Slot → State} {s : State} (h : s.bus.slots.length ≤ p) :
    onPort p f s = .refused (.noSuchPort p) := by
  simp [onPort, List.getElem?_eq_none h]

end Sys2Proof.Machine
end

