-- ==== Sys2Proof/Laws/Bus.lean ====
section
/-! SUPPORT. What the operations of the multiplexer can do: the wired-AND after a recompute, what one PIN_WRITE changes,
and how such changes compose. Later proofs cite these and unfold no fold. -/

namespace Sys2Proof

@[simp] theorem SignalSet.get_set_same (v : SignalSet) (l : Line) (lv : Level) : (v.set l lv).get l = lv := by
  cases l <;> rfl

theorem SignalSet.get_set_other (v : SignalSet) (l l' : Line) (lv : Level) (h : l' ≠ l) :
    (v.set l lv).get l' = v.get l' := by
  cases l <;> cases l' <;> first | rfl | exact absurd rfl h

theorem SignalSet.ext_get (v w : SignalSet) (h : ∀ l, v.get l = w.get l) : v = w := by
  cases v; cases w
  simp only [SignalSet.mk.injEq]
  exact ⟨h .srq, h .atn, h .clk, h .dat, h .rst⟩

@[simp] theorem SignalSet.get_allRel (l : Line) : SignalSet.allRel.get l = .rel := by cases l <;> rfl

theorem Level.eq_act_of_ne_rel {lv : Level} (h : lv ≠ .rel) : lv = .act := by cases lv <;> simp_all

theorem Level.ext_rel {a b : Level} (h : a = .rel ↔ b = .rel) : a = b := by cases a <;> cases b <;> simp_all

namespace Machine

/-! ## The fold -/

theorem wiredAnd_eq_rel (slots : List Slot) (l : Line) :
    wiredAnd slots l = .rel ↔ ∀ sl ∈ slots, sl.attached = true → sl.own.get l = .rel := by
  unfold wiredAnd
  split <;> simp_all [Slot.leavesRel, List.all_eq_true]
  all_goals grind

@[simp] theorem mergedOf_get (slots : List Slot) (l : Line) : (mergedOf slots).get l = wiredAnd slots l := by
  cases l <;> rfl

@[simp] theorem recompute_slots (b : Bus) : (recompute b).slots = b.slots := rfl

theorem wiredAnd_recompute (b : Bus) : WiredAnd (recompute b) := fun l => by
  show (mergedOf b.slots).get l = .rel ↔ _
  rw [mergedOf_get]
  exact wiredAnd_eq_rel b.slots l

/-- The wired-AND fixes `merged`. -/
theorem WiredAnd.merged_eq {b : Bus} (h : WiredAnd b) : b.merged = mergedOf b.slots :=
  SignalSet.ext_get _ _ fun l => Level.ext_rel (by rw [mergedOf_get, wiredAnd_eq_rel]; exact h l)

theorem WiredAnd.recompute_eq {b : Bus} (h : WiredAnd b) : recompute b = b := by
  cases b with
  | mk slots merged =>
    have := h.merged_eq
    simp only at this
    subst this
    rfl

/-! ## Changes of one participant's own lines -/

/-- Changing an entry that is known is setting it. -/
theorem modify_eq_set {α : Type} {l : List α} {p : Nat} {a : α} (f : α → α) (h : l[p]? = some a) :
    l.modify p f = l.set p (f a) := by
  apply List.ext_getElem?
  intro i
  rw [List.getElem?_modify, List.getElem?_set]
  by_cases hi : p = i
  · subst hi
    obtain ⟨hl, h'⟩ := List.getElem?_eq_some_iff.1 h
    simp [hl, h']
  · simp [hi]

theorem linesAfter_pinWrite (p : Nat) (l : Line) (lv : Level) (b : Bus) :
    LinesAfter p (fun v => v.set l lv) b (pinWrite p l lv b) :=
  ⟨rfl, wiredAnd_recompute _⟩

theorem LinesAfter.trans {p : Nat} {f g : SignalSet → SignalSet} {b b1 b2 : Bus}
    (h1 : LinesAfter p f b b1) (h2 : LinesAfter p g b1 b2) : LinesAfter p (fun v => g (f v)) b b2 := by
  refine ⟨?_, h2.2⟩
  rw [h2.1, h1.1, List.modify_modify_eq]
  rfl

/-- The change and the slots before it fix the multiplexer after it. -/
theorem LinesAfter.unique {p : Nat} {f : SignalSet → SignalSet} {b b1 b2 : Bus}
    (h1 : LinesAfter p f b b1) (h2 : LinesAfter p f b b2) : b1 = b2 := by
  have hs : b1.slots = b2.slots := h1.1.trans h2.1.symm
  have hm : b1.merged = b2.merged := by rw [h1.2.merged_eq, h2.2.merged_eq, hs]
  cases b1; cases b2
  simp_all

theorem LinesAfter.congr {p : Nat} {f g : SignalSet → SignalSet} {b b' : Bus} (hfg : ∀ v, f v = g v)
    (h : LinesAfter p f b b') : LinesAfter p g b b' := by
  have : f = g := funext hfg
  subst this
  exact h

theorem LinesAfter.length {p : Nat} {f : SignalSet → SignalSet} {b b' : Bus} (h : LinesAfter p f b b') :
    b'.slots.length = b.slots.length := by
  rw [h.1, List.length_modify]

theorem LinesAfter.slot {p : Nat} {f : SignalSet → SignalSet} {b b' : Bus} (h : LinesAfter p f b b') (q : Nat) :
    b'.slots[q]? = (b.slots[q]?).map fun sl => if q = p then { sl with own := f sl.own } else sl := by
  rw [h.1, List.getElem?_modify]
  cases b.slots[q]? with
  | none => by_cases hq : p = q <;> simp [hq]
  | some sl => by_cases hq : p = q <;> simp [hq, eq_comm]

/-- A change that only lets lines go leaves every released line released. -/
theorem LinesAfter.rel_of_rel {p : Nat} {f : SignalSet → SignalSet} {b b' : Bus} (h : LinesAfter p f b b')
    (hb : WiredAnd b) {l : Line} (hf : ∀ v : SignalSet, v.get l = .rel → (f v).get l = .rel)
    (hr : b.merged.get l = .rel) : b'.merged.get l = .rel := by
  rw [h.2 l, h.1]
  intro sl hsl hatt
  obtain ⟨q, hq⟩ := List.mem_iff_getElem?.1 hsl
  rw [List.getElem?_modify] at hq
  have hold := (hb l).1 hr
  cases hs : b.slots[q]? with
  | none => simp [hs] at hq
  | some sq =>
    have hm : sq ∈ b.slots := List.mem_of_getElem? hs
    by_cases hp : p = q
    · simp [hs, hp] at hq
      subst hq
      exact hf _ (hold sq hm hatt)
    · simp [hs, hp] at hq
      subst hq
      exact hold sq hm hatt

/-- A change that does not touch a line leaves it as it was. -/
theorem LinesAfter.merged_same {p : Nat} {f : SignalSet → SignalSet} {b b' : Bus} (h : LinesAfter p f b b')
    (hb : WiredAnd b) {l : Line} (hf : ∀ v : SignalSet, (f v).get l = v.get l) :
    b'.merged.get l = b.merged.get l := by
  have key : ∀ sl : Slot, ({ sl with own := f sl.own } : Slot).leavesRel l = sl.leavesRel l := fun sl => by
    simp [Slot.leavesRel, hf]
  rw [h.2.merged_eq, hb.merged_eq, mergedOf_get, mergedOf_get, h.1]
  unfold wiredAnd
  congr 2
  rw [Bool.eq_iff_iff, List.all_eq_true, List.all_eq_true]
  constructor
  · intro H sl hsl
    obtain ⟨q, hq⟩ := List.mem_iff_getElem?.1 hsl
    by_cases hp : p = q
    · rw [← key]
      exact H _ (List.mem_iff_getElem?.2 ⟨q, by rw [List.getElem?_modify, hq]; simp [hp]⟩)
    · exact H _ (List.mem_iff_getElem?.2 ⟨q, by rw [List.getElem?_modify, hq]; simp [hp]⟩)
  · intro H sl hsl
    obtain ⟨q, hq⟩ := List.mem_iff_getElem?.1 hsl
    rw [List.getElem?_modify] at hq
    cases hs : b.slots[q]? with
    | none => simp [hs] at hq
    | some sq =>
      have hm := H sq (List.mem_of_getElem? hs)
      by_cases hp : p = q
      · simp [hs, hp] at hq
        subst hq
        rw [key]
        exact hm
      · simp [hs, hp] at hq
        subst hq
        exact hm

/-- A line that the change pulls through an attached slot is active. -/
theorem LinesAfter.act_of_pulled {p : Nat} {f : SignalSet → SignalSet} {b b' : Bus} (h : LinesAfter p f b b')
    {sl : Slot} (hs : b.slots[p]? = some sl) (hatt : sl.attached = true) {l : Line} (hf : (f sl.own).get l = .act) :
    b'.merged.get l = .act := by
  apply Level.eq_act_of_ne_rel
  rw [ne_eq, h.2 l]
  intro H
  have := H { sl with own := f sl.own } (List.mem_iff_getElem?.2 ⟨p, by rw [h.slot, hs]; simp⟩) hatt
  rw [hf] at this
  cases this

/-! ## ATTACH and DETACH -/

theorem wiredAnd_attachSlot (p : Nat) (u : UnitNumber) (b : Bus) : WiredAnd (attachSlot p u b) := wiredAnd_recompute _

theorem attachSlot_slots (p : Nat) (u : UnitNumber) (b : Bus) :
    (attachSlot p u b).slots = b.slots.set p ⟨true, u, .allRel⟩ := rfl

theorem wiredAnd_detachSlot (p : Nat) (b : Bus) : WiredAnd (detachSlot p b) := wiredAnd_recompute _

theorem detachSlot_slots (p : Nat) (b : Bus) :
    (detachSlot p b).slots = b.slots.modify p fun sl => { sl with attached := false } := rfl

theorem unitFree_iff (cfg : Config) (slots : List Slot) (u : UnitNumber) :
    unitFree cfg slots u = true ↔ u = cfg.unitSentinel ∨ ∀ sl ∈ slots, sl.attached = true → sl.unit ≠ u := by
  simp only [unitFree, Bool.or_eq_true, beq_iff_eq, List.all_eq_true, Bool.not_eq_true', Bool.and_eq_false_iff,
    beq_eq_false_iff_ne]
  constructor
  · rintro (h | h)
    · exact .inl h
    · exact .inr fun sl hsl ha => (h sl hsl).resolve_left (by simp [ha])
  · rintro (h | h)
    · exact .inl h
    · exact .inr fun sl hsl => by
        cases ha : sl.attached
        · exact .inl rfl
        · exact .inr (h sl hsl ha)

end Machine
end Sys2Proof
end

