-- ==== Sys2Proof/Laws/Operands.lean ====
section
/-! SUPPORT. What the operand forms give: lines of a Signal Set, bits of a byte, levels and operand bytes read back. -/

namespace Sys2Proof

@[simp] theorem Level.ofBit_eq_rel (b : Bool) : Level.ofBit b = .rel ↔ b = true := by cases b <;> decide

@[simp] theorem Level.ofBit_eq_act (b : Bool) : Level.ofBit b = .act ↔ b = false := by cases b <;> decide

@[simp] theorem Level.toBit_ofBit (b : Bool) : (Level.ofBit b).toBit = b := by cases b <;> rfl

@[simp] theorem decodeLine_encodeLine (l : Line) : decodeLine (encodeLine l) = some l := by cases l <;> rfl

@[simp] theorem decodeLevel_encodeLevel (lv : Level) : decodeLevel (encodeLevel lv) = some lv := by cases lv <;> rfl

theorem decodeNat_encodeNatWithin (f n : Nat) (h : n < 128 * 128 ^ f) (rest : List Byte) :
    decodeNat (encodeNatWithin f n ++ rest) = some (n, rest) := by
  induction f generalizing n with
  | zero =>
    simp at h
    simp [encodeNatWithin, decodeNat, Nat.mod_eq_of_lt (show n < 256 by omega), h]
  | succ f ih =>
    unfold encodeNatWithin
    split
    · rename_i h2
      simp [decodeNat, Nat.mod_eq_of_lt (show n < 256 by omega), h2]
    · have h3 : n / 128 < 128 * 128 ^ f := by
        rw [Nat.div_lt_iff_lt_mul (by omega)]
        rw [Nat.pow_succ] at h
        omega
      have h4 : (BitVec.ofNat 8 (n % 128 + 128)).toNat = n % 128 + 128 := by
        simp
        omega
      simp only [List.cons_append, decodeNat, ih _ h3, h4]
      simp
      omega

/-- A number's bytes read back as the number, whatever follows them. -/
theorem decodeNat_encodeNat (n : Nat) (rest : List Byte) : decodeNat (encodeNat n ++ rest) = some (n, rest) :=
  decodeNat_encodeNatWithin n n (by have := Nat.lt_pow_self (a := 128) (n := n) (by omega); omega) rest

namespace Machine

theorem bitAt_eq (value : Byte) (cursor : Nat) : bitAt value cursor = value.getLsbD cursor := rfl

/-- Sampling sets the bit at the cursor when the level is `rel`, and no other bit ever (43_byte_rx.md R154). -/
theorem sampleBit_getLsbD (v : Byte) (k j : Nat) (d : Level) (hj : j < 8) :
    (sampleBit v k d).getLsbD j = if j = k then (v.getLsbD j || d = .rel) else v.getLsbD j := by
  unfold sampleBit
  cases d <;> simp [hj]
  by_cases h : j = k
  · subst h
    simp
  · simp [h]
    intro h2 h3
    omega

end Machine
end Sys2Proof
end

