-- ==== Sys2Proof/Laws/Engine.lean ====
section
/-! SUPPORT. One lemma per shared operation on an engine, saying once everything it can do: the record it leaves, what
becomes of the engine's own lines, and that parameters and free values stay. -/

namespace Sys2Proof.Machine

theorem CtxAfter.eng {E : Engine} {f : SignalSet → SignalSet} {c c' : Ctx} (h : CtxAfter E f c c') : c'.eng = E := h.1

theorem CtxAfter.lines {E : Engine} {f : SignalSet → SignalSet} {c c' : Ctx} (h : CtxAfter E f c c') :
    LinesAfter c.eng.port f c.bus c'.bus := h.2.1

theorem CtxAfter.cfg {E : Engine} {f : SignalSet → SignalSet} {c c' : Ctx} (h : CtxAfter E f c c') : c'.cfg = c.cfg :=
  h.2.2.1

theorem CtxAfter.free {E : Engine} {f : SignalSet → SignalSet} {c c' : Ctx} (h : CtxAfter E f c c') :
    c'.free = c.free := h.2.2.2

/-- Two changes of one engine's lines and record, one after the other. -/
theorem CtxAfter.trans {E1 E2 : Engine} {f g : SignalSet → SignalSet} {c c1 c2 : Ctx} (h1 : CtxAfter E1 f c c1)
    (h2 : CtxAfter E2 g c1 c2) (hp : E1.port = c.eng.port) : CtxAfter E2 (fun v => g (f v)) c c2 :=
  ⟨h2.1, h1.2.1.trans (by rw [← hp, ← h1.1]; exact h2.2.1), h2.2.2.1.trans h1.2.2.1, h2.2.2.2.trans h1.2.2.2⟩

theorem CtxAfter.congr {E : Engine} {f g : SignalSet → SignalSet} {c c' : Ctx} (hfg : ∀ v, f v = g v)
    (h : CtxAfter E f c c') : CtxAfter E g c c' := ⟨h.1, h.2.1.congr hfg, h.2.2⟩

/-- The record and the lines before fix the context after. -/
theorem CtxAfter.unique {E : Engine} {f : SignalSet → SignalSet} {c c1 c2 : Ctx} (h1 : CtxAfter E f c c1)
    (h2 : CtxAfter E f c c2) : c1 = c2 := by
  have hb := h1.lines.unique h2.lines
  cases c1; cases c2
  simp_all [CtxAfter]

/-- After a change of the engine's lines the wired-AND holds, whatever held before. -/
theorem CtxAfter.wired {E : Engine} {f : SignalSet → SignalSet} {c c' : Ctx} (h : CtxAfter E f c c') :
    WiredAnd c'.bus := h.2.1.2

/-! ## Driving lines -/

theorem drive_after (l : Line) (lv : Level) (c : Ctx) : CtxAfter c.eng (fun v => v.set l lv) c (drive l lv c) :=
  ⟨rfl, linesAfter_pinWrite _ _ _ _, rfl, rfl⟩

@[simp] theorem set_dat_eq (lv : Level) (v : SignalSet) : v.set .dat lv = withDat lv v := rfl

@[simp] theorem set_clk_eq (lv : Level) (v : SignalSet) : v.set .clk lv = withClk lv v := rfl

theorem driveDat_after (lv : Level) (c : Ctx) : CtxAfter c.eng (withDat lv) c (drive .dat lv c) := drive_after .dat lv c

theorem driveClk_after (lv : Level) (c : Ctx) : CtxAfter c.eng (withClk lv) c (drive .clk lv c) := drive_after .clk lv c

theorem releaseAll_after (c : Ctx) : CtxAfter c.eng released c (releaseAll c) :=
  ((((((drive_after .srq .rel c).trans (drive_after .atn .rel _) rfl).trans (drive_after .clk .rel _) rfl).trans
    (drive_after .dat .rel _) rfl).trans (drive_after .rst .rel _) rfl)).congr fun _ => rfl

@[simp] theorem releaseAll_eng (c : Ctx) : (releaseAll c).eng = c.eng := rfl
@[simp] theorem releaseAll_cfg (c : Ctx) : (releaseAll c).cfg = c.cfg := rfl
@[simp] theorem releaseAll_free (c : Ctx) : (releaseAll c).free = c.free := rfl

/-! ## Returning to the idle phase, waiting, starting a reception, presenting a bit -/

theorem reinit_after (c : Ctx) : CtxAfter (idleEngine c.eng) released c (reinit c) :=
  ⟨rfl, (releaseAll_after c).lines, rfl, rfl⟩

theorem toWait_after (c : Ctx) : CtxAfter (waitingEngine c.eng) released c (toWait c) :=
  ⟨rfl, (releaseAll_after c).lines, rfl, rfl⟩

theorem beginRx_after (c : Ctx) : CtxAfter (startingReception c.eng) (withDat .act) c (beginRx c) :=
  ⟨rfl, (driveDat_after .act c).lines, rfl, rfl⟩

theorem putBit_after (c : Ctx) :
    CtxAfter { c.eng with state := .bitWait, time := 0 }
      (fun v => withDat (Level.ofBit (bitAt c.eng.tr.value c.eng.tr.cursor)) (withClk .act v)) c (putBit c) :=
  ⟨rfl, ((driveClk_after .act c).trans (driveDat_after _ _) rfl).lines, rfl, rfl⟩

@[simp] theorem reinit_eng (c : Ctx) : (reinit c).eng = idleEngine c.eng := rfl
@[simp] theorem reinit_cfg (c : Ctx) : (reinit c).cfg = c.cfg := rfl
@[simp] theorem reinit_free (c : Ctx) : (reinit c).free = c.free := rfl
@[simp] theorem toWait_eng (c : Ctx) : (toWait c).eng = waitingEngine c.eng := rfl
@[simp] theorem toWait_cfg (c : Ctx) : (toWait c).cfg = c.cfg := rfl
@[simp] theorem toWait_free (c : Ctx) : (toWait c).free = c.free := rfl
@[simp] theorem beginRx_eng (c : Ctx) : (beginRx c).eng = startingReception c.eng := rfl
@[simp] theorem beginRx_cfg (c : Ctx) : (beginRx c).cfg = c.cfg := rfl
@[simp] theorem beginRx_free (c : Ctx) : (beginRx c).free = c.free := rfl
@[simp] theorem putBit_eng (c : Ctx) : (putBit c).eng = { c.eng with state := .bitWait, time := 0 } := rfl
@[simp] theorem putBit_cfg (c : Ctx) : (putBit c).cfg = c.cfg := rfl
@[simp] theorem putBit_free (c : Ctx) : (putBit c).free = c.free := rfl

/-! ## Error conditions and the Storage Backend -/

theorem raiseEvent_wait (ev : Event) (c : Ctx) : raiseEvent ev .wait c = toWait (logEvent ev c) := rfl

theorem raiseEvent_idle (ev : Event) (c : Ctx) : raiseEvent ev .idle c = reinit (logEvent ev c) := rfl

theorem raiseEvent_after_wait (ev : Event) (c : Ctx) :
    CtxAfter (waitingEngine { c.eng with log := c.eng.log ++ [ev] }) released c (raiseEvent ev .wait c) :=
  ⟨rfl, (toWait_after (logEvent ev c)).lines, rfl, rfl⟩

theorem raiseEvent_after_idle (ev : Event) (c : Ctx) :
    CtxAfter (idleEngine { c.eng with log := c.eng.log ++ [ev] }) released c (raiseEvent ev .idle c) :=
  ⟨rfl, (reinit_after (logEvent ev c)).lines, rfl, rfl⟩

/-- Everything a read of the Storage Backend does: one call recorded, one answer used, or one free value. -/
theorem readBackend_eq (ch : Channel) (c : Ctx) :
    readBackend ch c = (c.eng.answers.head?.getD (Config.freeAnswer c.free),
      { c with
        eng := { c.eng with calls := c.eng.calls ++ [.readCall ch], answers := c.eng.answers.tail }
        free := c.free + (if c.eng.answers = [] then 1 else 0) }) := by
  unfold readBackend answerRead
  simp only [callBackend_answers]
  cases h : c.eng.answers <;> simp [callBackend, h]

@[simp] theorem readBackend_cfg (ch : Channel) (c : Ctx) : (readBackend ch c).2.cfg = c.cfg := by
  rw [readBackend_eq]

@[simp] theorem readBackend_bus (ch : Channel) (c : Ctx) : (readBackend ch c).2.bus = c.bus := by
  rw [readBackend_eq]

@[simp] theorem readBackend_unit (ch : Channel) (c : Ctx) : (readBackend ch c).2.eng.unit = c.eng.unit := by
  rw [readBackend_eq]

@[simp] theorem readBackend_port (ch : Channel) (c : Ctx) : (readBackend ch c).2.eng.port = c.eng.port := by
  rw [readBackend_eq]

@[simp] theorem readBackend_mode (ch : Channel) (c : Ctx) : (readBackend ch c).2.eng.mode = c.eng.mode := by
  rw [readBackend_eq]

@[simp] theorem readBackend_role (ch : Channel) (c : Ctx) : (readBackend ch c).2.eng.role = c.eng.role := by
  rw [readBackend_eq]

@[simp] theorem readBackend_state (ch : Channel) (c : Ctx) : (readBackend ch c).2.eng.state = c.eng.state := by
  rw [readBackend_eq]

@[simp] theorem readBackend_time (ch : Channel) (c : Ctx) : (readBackend ch c).2.eng.time = c.eng.time := by
  rw [readBackend_eq]

@[simp] theorem readBackend_cmd (ch : Channel) (c : Ctx) : (readBackend ch c).2.eng.cmd = c.eng.cmd := by
  rw [readBackend_eq]

@[simp] theorem readBackend_tr (ch : Channel) (c : Ctx) : (readBackend ch c).2.eng.tr = c.eng.tr := by
  rw [readBackend_eq]

@[simp] theorem readBackend_log (ch : Channel) (c : Ctx) : (readBackend ch c).2.eng.log = c.eng.log := by
  rw [readBackend_eq]

@[simp] theorem readBackend_calls (ch : Channel) (c : Ctx) :
    (readBackend ch c).2.eng.calls = c.eng.calls ++ [.readCall ch] := by
  rw [readBackend_eq]

@[simp] theorem readBackend_answers (ch : Channel) (c : Ctx) :
    (readBackend ch c).2.eng.answers = c.eng.answers.tail := by
  rw [readBackend_eq]

/-- What a line reads as depends on the multiplexer alone. -/
theorem lineLevel_congr {c c' : Ctx} (h : c'.bus = c.bus) (l : Line) : lineLevel l c' = lineLevel l c := by
  unfold lineLevel
  rw [h]

theorem lineLevel_eq (l : Line) (c : Ctx) : lineLevel l c = c.bus.merged.get l := rfl

/-! ## Loading and storing one engine -/

theorem loadCtx_none {e : Nat} {s : State} (h : s.engines[e]? = none) : loadCtx e s = none := by
  simp [loadCtx, h]

theorem onDispatching_eq {f : Ctx → Ctx} {s : State} {e : Nat} {E : Engine} (hd : s.dispatching = some e)
    (he : s.engines[e]? = some E) :
    onDispatching f s = .next { storeCtx e (f ⟨s.cfg, s.bus, E, s.free⟩) s with dispatching := none } := by
  simp [onDispatching, hd, loadCtx_of_engine he]

/-- A command whose effect on the engine is known runs, and leaves the machine with just that effect. -/
theorem commandRan_of_after {f : Ctx → Ctx} {s : State} {e : Nat} {E E' : Engine} {g : SignalSet → SignalSet}
    (hd : s.dispatching = some e) (he : s.engines[e]? = some E)
    (h : CtxAfter E' g ⟨s.cfg, s.bus, E, s.free⟩ (f ⟨s.cfg, s.bus, E, s.free⟩)) :
    ∃ t, onDispatching f s = .next t ∧ CommandRan e E.port E' g s t :=
  ⟨_, onDispatching_eq hd he, by rw [← h.eng]; rfl, h.lines, rfl, rfl, rfl, rfl, h.free⟩

theorem onPort_eq {p : Nat} {f : Slot → State} {s : State} {sl : Slot} (h : s.bus.slots[p]? = some sl) :
    onPort p f s = .next (f sl) := by
  simp [onPort, h]

end Sys2Proof.Machine
end

