-- ==== Sys2Proof/Laws/Passes.lean ====
section
/-! SUPPORT. Inversion lemmas for the receive machine, the transmit machine and one pass of the dispatcher: everything a
step of each can do, guards included. -/

namespace Sys2Proof.Machine

theorem timeReached_iff (E : Engine) (n : Nat) : timeReached E n = true ↔ n ≤ E.time := by simp [timeReached]

theorem timeReached_false (E : Engine) (n : Nat) : timeReached E n = false ↔ E.time < n := by simp [timeReached]

theorem Level.act_or_rel (lv : Level) : lv = .act ∨ lv = .rel := by cases lv <;> simp

/-! ## The receive machine (43_byte_rx.md) -/

/-- A receive step without progress changes nothing, but that the end of the EOI acknowledge lets go of DAT (R153). -/
theorem rxStep_noProgress {cl d : Level} {c c' : Ctx} (h : rxStep cl d c = (c', .noProgress)) :
    c' = c ∨ (c.eng.state = .eoi ∧ c.cfg.tEoiAck ≤ c.eng.time ∧ cl ≠ .act ∧ c' = drive .dat .rel c) := by
  unfold rxStep at h
  split at h <;> (try simp only [rxInit, rxReady, rxEoi, rxBitWait, rxBitDone, rxFrame] at h) <;> (repeat' split at h) <;>
    cases h <;> simp_all [timeReached_iff]

/-- The eight ways a receive step progresses without delivering a byte (R151 to R156). -/
theorem rxStep_progress {cl d : Level} {c c' : Ctx} (h : rxStep cl d c = (c', .progress)) :
    (c.eng.state = .init ∧ cl = .rel ∧ c' = setState .ready (drive .dat .rel c)) ∨
    (c.eng.state = .ready ∧ cl = .act ∧ c' = setState .bitWait c) ∨
    (c.eng.state = .ready ∧ cl = .rel ∧ c.cfg.tEoi ≤ c.eng.time ∧
      c' = setState .eoi (drive .dat .act (setTr (markLast c.eng.tr) c))) ∨
    (c.eng.state = .eoi ∧ cl = .act ∧ c.cfg.tEoiAck ≤ c.eng.time ∧ c' = setState .bitWait (drive .dat .rel c)) ∨
    (c.eng.state = .bitWait ∧ cl = .rel ∧ c' = setState .bitDone (setTr { c.eng.tr with
      value := sampleBit c.eng.tr.value c.eng.tr.cursor d, cursor := c.eng.tr.cursor + 1 } c)) ∨
    (c.eng.state = .bitDone ∧ cl = .act ∧ c.eng.tr.cursor = 8 ∧ c' = setState .frame (drive .dat .act c)) ∨
    (c.eng.state = .bitDone ∧ cl = .act ∧ c.eng.tr.cursor ≠ 8 ∧ c' = setState .bitWait c) ∨
    (c.eng.state = .bitDone ∧ cl = .rel ∧ c.cfg.tBitDoneTimeout ≤ c.eng.time ∧
      c' = raiseEvent .bitDoneTimeout .wait c) := by
  unfold rxStep at h
  cases cl <;> split at h <;> (try simp only [rxInit, rxReady, rxEoi, rxBitWait, rxBitDone, rxFrame] at h) <;>
    (repeat' split at h) <;> simp_all [timeReached_iff]

/-- A byte is delivered in state Frame only, and it is the transceiver's (R157). -/
theorem rxStep_complete {cl d : Level} {c c' : Ctx} {b : Byte} (h : rxStep cl d c = (c', .complete b)) :
    c.eng.state = .frame ∧ c.cfg.tFrameHold ≤ c.eng.time ∧ b = c.eng.tr.value ∧
      c' = setState .idle (setTr (markReady c.eng.tr) c) := by
  unfold rxStep at h
  split at h <;> (try simp only [rxInit, rxReady, rxEoi, rxBitWait, rxBitDone, rxFrame] at h) <;> (repeat' split at h) <;>
    cases h <;> simp_all [timeReached_iff]

/-! ## The transmit machine (44_byte_tx.md) -/

/-- A transmit step without progress changes nothing. -/
theorem txStep_noProgress {d : Level} {c c' : Ctx} (h : txStep d c = (c', false)) : c' = c := by
  unfold txStep at h
  split at h <;> (try simp only [txInit, txReady, txEoi, txBitWait, txBitDone, txFrame, txFrameWait] at h) <;>
    (repeat' split at h) <;> cases h <;> rfl

/-- The ways a transmit step progresses (R172 to R179). -/
theorem txStep_progress {d : Level} {c c' : Ctx} (h : txStep d c = (c', true)) :
    (c.eng.state = .init ∧ c' = setState .ready (drive .clk .rel c)) ∨
    (c.eng.state = .ready ∧ d = .rel ∧ c.eng.tr.last = true ∧ c' = setState .eoi c) ∨
    (c.eng.state = .ready ∧ d = .rel ∧ c.eng.tr.last = false ∧ c' = putBit c) ∨
    (c.eng.state = .eoi ∧ d = .rel ∧ c.cfg.tEoiHold ≤ c.eng.time ∧ c' = putBit c) ∨
    (c.eng.state = .bitWait ∧ c.cfg.tSetup ≤ c.eng.time ∧ c' = setState .bitDone (drive .clk .rel c)) ∨
    (c.eng.state = .bitDone ∧ c.cfg.tValid ≤ c.eng.time ∧ c.eng.tr.cursor + 1 < 8 ∧ c' = putBit (bumpCursor c)) ∨
    (c.eng.state = .bitDone ∧ c.cfg.tValid ≤ c.eng.time ∧ 8 ≤ c.eng.tr.cursor + 1 ∧
      c' = setState .frame (drive .dat .rel (drive .clk .act (bumpCursor c)))) ∨
    (c.eng.state = .frame ∧ d = .act ∧ c.eng.tr.last = true ∧ c' = reinit (setTr (markReady c.eng.tr) c)) ∨
    (c.eng.state = .frame ∧ d = .act ∧ c.eng.tr.last = false ∧ c' = txNextByte (setTr (markReady c.eng.tr) c)) ∨
    (c.eng.state = .frame ∧ d = .rel ∧ c.cfg.tFrameTimeout ≤ c.eng.time ∧ c' = raiseEvent .frameTimeout .idle c) ∨
    (c.eng.state = .frameWait ∧ c.cfg.tBb ≤ c.eng.time ∧ c' = setState .init c) := by
  unfold txStep at h
  cases d <;> split at h <;>
    (try simp only [txInit, txReady, txEoi, txBitWait, txBitDone, txFrame, txFrameWait] at h) <;>
    (repeat' split at h) <;> simp_all [timeReached_iff]

/-- The next byte of a transmission: everything R178 and R183 do with the read's answer. -/
theorem txNextByte_eq (c : Ctx) :
    txNextByte c =
      if (readBackend (channelOfArg c.eng.cmd.arg) c).1.eos then
        reinit (readBackend (channelOfArg c.eng.cmd.arg) c).2
      else
        setState .frameWait (setTr (txLoad (readBackend (channelOfArg c.eng.cmd.arg) c).1)
          (readBackend (channelOfArg c.eng.cmd.arg) c).2) := rfl

/-- The first byte of a transmission (41_mode_dispatcher.md R114). -/
theorem firstByte_eq (c : Ctx) :
    firstByte c =
      if (readBackend (channelOfArg c.eng.cmd.arg) c).1.eos then
        reinit (readBackend (channelOfArg c.eng.cmd.arg) c).2
      else
        setState .init (setMode .talker (setTr (txLoad (readBackend (channelOfArg c.eng.cmd.arg) c).1)
          (readBackend (channelOfArg c.eng.cmd.arg) c).2)) := rfl

/-! ## One pass (41_mode_dispatcher.md) -/

/-- What a pass of the receive machine in mode Command or Secondary can do (R107, R108). -/
theorem receiveCommand_cases {cl d : Level} {c c' : Ctx} {p : Bool} (h : receiveCommand cl d c = (c', p)) :
    (p = false ∧ rxStep cl d c = (c', .noProgress)) ∨ (p = true ∧ rxStep cl d c = (c', .progress)) ∨
    (p = true ∧ ∃ c1 b, rxStep cl d c = (c1, .complete b) ∧ c' = dispatchCommandByte b c1) := by
  unfold receiveCommand at h
  split at h <;> simp_all [eq_comm]

/-- What dispatching a byte can do (42_commands.md R131): one of the seven commands, or the fall-back. -/
theorem dispatchCommandByte_cases (b : Byte) (c : Ctx) :
    (∃ u, dispatchCommandByte b c = listenAt u c) ∨ (∃ u, dispatchCommandByte b c = talkAt u c) ∨
    dispatchCommandByte b c = unlistenAt c ∨ dispatchCommandByte b c = untalkAt c ∨
    (∃ ch, dispatchCommandByte b c = openAt ch c) ∨ (∃ ch, dispatchCommandByte b c = closeAt ch c) ∨
    (∃ ch, dispatchCommandByte b c = reopenAt ch c) ∨ dispatchCommandByte b c = invalidByte b c := by
  unfold dispatchCommandByte decodeCommand
  split
  · rename_i i hi
    (repeat' split at hi) <;> cases hi <;> simp only [runCommand]
    · exact .inr (.inr (.inl trivial))
    · exact .inr (.inr (.inr (.inl trivial)))
    · exact .inl ⟨_, rfl⟩
    · exact .inr (.inl ⟨_, rfl⟩)
    · exact .inr (.inr (.inr (.inr (.inr (.inr (.inl ⟨_, rfl⟩))))))
    · exact .inr (.inr (.inr (.inr (.inr (.inl ⟨_, rfl⟩)))))
    · exact .inr (.inr (.inr (.inr (.inl ⟨_, rfl⟩))))
  · exact .inr (.inr (.inr (.inr (.inr (.inr (.inr rfl))))))

/-- A pass that does not progress changes nothing, but that a receiver at the end of its EOI acknowledge lets go of
DAT. -/
theorem advance_noProgress {c c' : Ctx} (h : advance c = (c', false)) :
    c' = c ∨ (c.eng.state = .eoi ∧ c.cfg.tEoiAck ≤ c.eng.time ∧ lineLevel .clk c = .rel ∧ c' = drive .dat .rel c) := by
  have rx : ∀ cl d, rxStep cl d c = (c', .noProgress) → cl = lineLevel .clk c →
      c' = c ∨ (c.eng.state = .eoi ∧ c.cfg.tEoiAck ≤ c.eng.time ∧ lineLevel .clk c = .rel ∧ c' = drive .dat .rel c) := by
    intro cl d hr hcl
    rcases rxStep_noProgress hr with h1 | ⟨h1, h2, h3, h4⟩
    · exact .inl h1
    · subst hcl
      refine .inr ⟨h1, h2, ?_, h4⟩
      rcases Level.act_or_rel (lineLevel .clk c) with h5 | h5
      · exact absurd h5 h3
      · exact h5
  have rc : receiveCommand (lineLevel .clk c) (lineLevel .dat c) c = (c', false) →
      c' = c ∨ (c.eng.state = .eoi ∧ c.cfg.tEoiAck ≤ c.eng.time ∧ lineLevel .clk c = .rel ∧ c' = drive .dat .rel c) := by
    intro hr
    rcases receiveCommand_cases hr with ⟨-, h1⟩ | ⟨h1, -⟩ | ⟨h1, -⟩
    · exact rx _ _ h1 rfl
    · cases h1
    · cases h1
  have same : ∀ {x : Ctx}, (x, false) = (c', false) → x = c' := fun h1 => by simpa using h1
  have no : ∀ {x : Ctx}, (x, true) ≠ (c', false) := by simp
  unfold advance advanceWith at h
  split at h
  · unfold modeIdle at h
    split at h
    · exact absurd h no
    · exact .inl (same h).symm
  · unfold modeCommand at h
    split at h
    · simp_all
    · exact rc h
  · unfold modeSecondary at h
    split at h
    · simp_all
    · exact rc h
  · unfold modeData at h
    split at h
    · simp_all
    · split at h <;> simp_all
      exact rx _ _ ‹_› rfl
  · unfold modeTurnaround at h
    (repeat' split at h) <;> first | exact absurd h no | exact .inl (same h).symm
  · unfold modeTurnHold at h
    (repeat' split at h) <;> first | exact absurd h no | exact .inl (same h).symm
  · unfold modeTalker at h
    split at h
    · simp_all
    · exact .inl (txStep_noProgress h)
  · unfold modeWait at h
    split at h
    · exact absurd h no
    · exact .inl (same h).symm

/-- Everything a pass that progresses can do, one constructor a rule. `lineLevel l c` is the level read at the start of
the pass. -/
inductive Progresses (c : Ctx) : Ctx → Prop where
  | enterCommand : c.eng.mode = .idle → lineLevel .atn c = .act → lineLevel .clk c = .act →
      Progresses c (beginRx (setMode .command (setCmd .empty c)))
  | leaveCommand : c.eng.mode = .command → c.eng.state = .init → lineLevel .atn c = .rel → Progresses c (reinit c)
  | leaveSecondary : c.eng.mode = .secondary → c.eng.state = .init → lineLevel .atn c = .rel →
      Progresses c (leaveSecondary c)
  | receive {c' : Ctx} : (c.eng.mode = .command ∨ c.eng.mode = .secondary ∨ c.eng.mode = .data) →
      (c.eng.mode = .data → ¬ (lineLevel .atn c = .act ∧ lineLevel .clk c = .act)) →
      (c.eng.mode ≠ .data → ¬ (c.eng.state = .init ∧ lineLevel .atn c = .rel)) →
      rxStep (lineLevel .clk c) (lineLevel .dat c) c = (c', .progress) → Progresses c c'
  | dispatch {c1 : Ctx} {b : Byte} : (c.eng.mode = .command ∨ c.eng.mode = .secondary) →
      rxStep (lineLevel .clk c) (lineLevel .dat c) c = (c1, .complete b) → Progresses c (dispatchCommandByte b c1)
  | dataToCommand : c.eng.mode = .data → lineLevel .atn c = .act → lineLevel .clk c = .act →
      Progresses c (beginRx (setMode .command (setCmd .empty c)))
  | collect {c1 : Ctx} {b : Byte} : c.eng.mode = .data → ¬ (lineLevel .atn c = .act ∧ lineLevel .clk c = .act) →
      rxStep (lineLevel .clk c) (lineLevel .dat c) c = (c1, .complete b) → Progresses c (dataByte b c1)
  | abandonTurn : (c.eng.mode = .turnaround ∨ c.eng.mode = .turnHold) → lineLevel .atn c = .act → Progresses c (reinit c)
  | takeClock : c.eng.mode = .turnaround → lineLevel .atn c = .rel → lineLevel .clk c = .rel →
      Progresses c (setState .idle (setMode .turnHold (drive .dat .rel (drive .clk .act c))))
  | startTalking : c.eng.mode = .turnHold → lineLevel .atn c = .rel → c.cfg.tTurnHold ≤ c.eng.time →
      Progresses c (firstByte c)
  | abort : c.eng.mode = .talker → lineLevel .atn c = .act → Progresses c (abortTransmission c)
  | send {c' : Ctx} : c.eng.mode = .talker → lineLevel .atn c = .rel → txStep (lineLevel .dat c) c = (c', true) →
      Progresses c c'
  | leaveWait : c.eng.mode = .wait → lineLevel .atn c = .rel → Progresses c (reinit c)

theorem advance_progress {c c' : Ctx} (h : advance c = (c', true)) : Progresses c c' := by
  have no : ∀ {x : Ctx}, (x, false) ≠ (c', true) := by simp
  have rel : ∀ {l : Line}, lineLevel l c ≠ .act → lineLevel l c = .rel := fun h1 =>
    (Level.act_or_rel _).resolve_left h1
  unfold advance advanceWith at h
  split at h
  · unfold modeIdle at h
    split at h
    · rename_i hm hg
      cases h
      exact .enterCommand hm hg.1 hg.2
    · exact absurd h no
  · unfold modeCommand at h
    rename_i hm
    split at h
    · rename_i hg
      cases h
      exact .leaveCommand hm hg.1 hg.2
    · rename_i hg
      rcases receiveCommand_cases h with ⟨h1, -⟩ | ⟨-, h1⟩ | ⟨-, c1, b, h1, rfl⟩
      · cases h1
      · exact .receive (.inl hm) (by simp [hm]) (fun _ => hg) h1
      · exact .dispatch (.inl hm) h1
  · unfold modeSecondary at h
    rename_i hm
    split at h
    · rename_i hg
      cases h
      exact .leaveSecondary hm hg.1 hg.2
    · rename_i hg
      rcases receiveCommand_cases h with ⟨h1, -⟩ | ⟨-, h1⟩ | ⟨-, c1, b, h1, rfl⟩
      · cases h1
      · exact .receive (.inr (.inl hm)) (by simp [hm]) (fun _ => hg) h1
      · exact .dispatch (.inr hm) h1
  · unfold modeData at h
    rename_i hm
    split at h
    · rename_i hg
      cases h
      exact .dataToCommand hm hg.1 hg.2
    · rename_i hg
      split at h
      · exact absurd h no
      · rename_i c1 h1
        cases h
        exact .receive (.inr (.inr hm)) (fun _ => hg) (fun h2 => absurd hm h2) h1
      · rename_i c1 b h1
        cases h
        exact .collect hm hg h1
  · unfold modeTurnaround at h
    rename_i hm
    split at h
    · rename_i hg
      cases h
      exact .abandonTurn (.inl hm) hg
    · rename_i hg
      split at h
      · rename_i hc
        cases h
        exact .takeClock hm (rel hg) hc
      · exact absurd h no
  · unfold modeTurnHold at h
    rename_i hm
    split at h
    · rename_i hg
      cases h
      exact .abandonTurn (.inr hm) hg
    · rename_i hg
      split at h
      · rename_i ht
        cases h
        exact .startTalking hm (rel hg) ((timeReached_iff _ _).1 ht)
      · exact absurd h no
  · unfold modeTalker at h
    rename_i hm
    split at h
    · rename_i hg
      cases h
      exact .abort hm hg
    · rename_i hg
      exact .send hm (rel hg) h
  · unfold modeWait at h
    rename_i hm
    split at h
    · rename_i hg
      cases h
      exact .leaveWait hm hg
    · exact absurd h no

/-! ## The loop of passes -/

theorem runPasses_stop {n : Nat} {c c' : Ctx} (h : advance c = (c', false)) : runPasses (n + 1) c = some c' := by
  simp [runPasses, h]

theorem runPasses_pass {n : Nat} {c c' : Ctx} (h : advance c = (c', true)) :
    runPasses (n + 1) c = runPasses n c' := by
  simp [runPasses, h]

/-- More passes allowed change nothing once the loop has ended. -/
theorem runPasses_mono {n m : Nat} {c c' : Ctx} (h : runPasses n c = some c') (hm : n ≤ m) :
    runPasses m c = some c' := by
  induction n generalizing c m with
  | zero => cases h
  | succ n ih =>
    obtain ⟨m, rfl⟩ : ∃ k, m = k + 1 := ⟨m - 1, by omega⟩
    cases ha : advance c with
    | mk c1 p =>
      cases p with
      | false =>
        rw [runPasses_stop ha] at h ⊢
        exact h
      | true =>
        rw [runPasses_pass ha] at h ⊢
        exact ih h (by omega)

/-- A loop that ends within the limit has made passes until one reported no progress. -/
theorem settles_of_runPasses {n : Nat} {c c' : Ctx} (h : runPasses n c = some c') : Settles c c' := by
  induction n generalizing c with
  | zero => cases h
  | succ n ih =>
    cases ha : advance c with
    | mk c1 p =>
      cases p with
      | false =>
        rw [runPasses_stop ha] at h
        cases h
        exact .rest ha
      | true =>
        rw [runPasses_pass ha] at h
        exact .pass ha (ih h)

/-- A property that every pass keeps is kept by the loop. -/
theorem runPasses_keeps {P : Ctx → Prop} (hP : ∀ c c' p, P c → advance c = (c', p) → P c') {n : Nat} {c c' : Ctx}
    (hc : P c) (h : runPasses n c = some c') : P c' := by
  induction n generalizing c with
  | zero => cases h
  | succ n ih =>
    cases ha : advance c with
    | mk c1 p =>
      have h1 := hP c c1 p hc ha
      cases p with
      | false =>
        rw [runPasses_stop ha] at h
        cases h
        exact h1
      | true =>
        rw [runPasses_pass ha] at h
        exact ih h1 h

/-! ## TICK -/

/-- Everything a tick can do when it answers a next state. -/
theorem execTick_next {e k : Nat} {s t : State} (h : execTick e k s = .next t) :
    ∃ E, s.engines[e]? = some E ∧
      ((s.cfg.clockModeImplemented = false ∧
          t = { storeCtx e (logEvent .unimplementedClockMode ⟨s.cfg, s.bus, E, s.free⟩) s with
            result := .tick (.cycles s.cfg.tickCycles) }) ∨
       (s.cfg.clockModeImplemented = true ∧
          ∃ c, runPasses passLimit (addTime k ⟨s.cfg, s.bus, E, s.free⟩) = some c ∧
            t = { storeCtx e c s with result := .tick (.cycles s.cfg.tickCycles) })) := by
  unfold execTick at h
  cases he : s.engines[e]? with
  | none => simp [loadCtx_none he] at h
  | some E =>
    rw [loadCtx_of_engine he] at h
    simp only at h
    split at h
    · rename_i hc
      unfold settle at h
      split at h
      · rename_i c hr
        cases h
        exact ⟨E, rfl, .inr ⟨hc, c, hr, rfl⟩⟩
      · cases h
    · rename_i hc
      cases h
      exact ⟨E, rfl, .inl ⟨by simpa using hc, rfl⟩⟩

/-- A tick whose loop of passes ends answers the next state that loop leaves. -/
theorem execTick_eq {e k : Nat} {s : State} {E : Engine} {c : Ctx} (he : s.engines[e]? = some E)
    (hm : s.cfg.clockModeImplemented = true)
    (h : runPasses passLimit (addTime k ⟨s.cfg, s.bus, E, s.free⟩) = some c) :
    execTick e k s = .next { storeCtx e c s with result := .tick (.cycles s.cfg.tickCycles) } := by
  simp [execTick, loadCtx_of_engine he, hm, settle, h]

/-- Everything the rest of a tick can do after its command byte has been dispatched. -/
theorem finishTick_next {e : Nat} {o : Host.Outcome State Fault Refusal} {t : State} (h : finishTick e o = .next t) :
    ∃ s E c, o = .next s ∧ s.engines[e]? = some E ∧ runPasses passLimit ⟨s.cfg, s.bus, E, s.free⟩ = some c ∧
      t = { storeCtx e c s with result := .tick (.cycles s.cfg.tickCycles) } := by
  unfold finishTick at h
  split at h
  · rename_i s
    cases he : s.engines[e]? with
    | none => simp [loadCtx_none he] at h
    | some E =>
      rw [loadCtx_of_engine he] at h
      simp only at h
      unfold settle at h
      split at h
      · rename_i c hr
        cases h
        exact ⟨s, E, c, rfl, he, hr, rfl⟩
      · cases h
  · cases h
  · cases h

end Sys2Proof.Machine
end

