-- ==== Sys2Proof/Laws/Frame.lean ====
section
/-! SUPPORT. What no rule of the engine does, whatever else it does: `Untouched c c'` says what of a context survives,
and every pass, and so every tick, keeps it. -/

namespace Sys2Proof.Machine

/-- What a tick leaves alone: parameters, the engine's unit and port, the other slots and every registration, SRQ, ATN
and RST but for a release; what it appends to only: the log and the call trace; and that it keeps the wired-AND. -/
structure Untouched (c c' : Ctx) : Prop where
  cfg : c'.cfg = c.cfg
  unit : c'.eng.unit = c.eng.unit
  port : c'.eng.port = c.eng.port
  lines : ∃ f : SignalSet → SignalSet, c'.bus.slots = c.bus.slots.modify c.eng.port (fun sl => { sl with own := f sl.own }) ∧
    ∀ v, ((f v).srq = .rel ∨ (f v).srq = v.srq) ∧ ((f v).atn = .rel ∨ (f v).atn = v.atn) ∧
      ((f v).rst = .rel ∨ (f v).rst = v.rst)
  wired : WiredAnd c.bus → WiredAnd c'.bus
  log : ∃ evs, c'.eng.log = c.eng.log ++ evs
  calls : ∃ cs, c'.eng.calls = c.eng.calls ++ cs

theorem Untouched.trans {c c1 c2 : Ctx} (h1 : Untouched c c1) (h2 : Untouched c1 c2) : Untouched c c2 where
  cfg := h2.cfg.trans h1.cfg
  unit := h2.unit.trans h1.unit
  port := h2.port.trans h1.port
  lines := by
    obtain ⟨f, hf, hv⟩ := h1.lines
    obtain ⟨g, hg, hw⟩ := h2.lines
    refine ⟨fun v => g (f v), ?_, fun v => ?_⟩
    · rw [hg, hf, h1.port, List.modify_modify_eq]
      rfl
    · have a := hv v
      have b := hw (f v)
      refine ⟨?_, ?_, ?_⟩ <;> grind
  wired := fun h => h2.wired (h1.wired h)
  log := by
    obtain ⟨a, ha⟩ := h1.log
    obtain ⟨b, hb⟩ := h2.log
    exact ⟨a ++ b, by rw [hb, ha, List.append_assoc]⟩
  calls := by
    obtain ⟨a, ha⟩ := h1.calls
    obtain ⟨b, hb⟩ := h2.calls
    exact ⟨a ++ b, by rw [hb, ha, List.append_assoc]⟩

theorem modify_own_id (slots : List Slot) (p : Nat) :
    slots.modify p (fun sl => { sl with own := (fun v => v) sl.own }) = slots := by
  apply List.ext_getElem?
  intro i
  rw [List.getElem?_modify]
  cases slots[i]? <;> by_cases h : p = i <;> simp [h]

/-- A change of the engine's record alone, of fields that may change. -/
theorem untouched_record {c c' : Ctx} (hcfg : c'.cfg = c.cfg) (hbus : c'.bus = c.bus) (hu : c'.eng.unit = c.eng.unit)
    (hp : c'.eng.port = c.eng.port) (hl : ∃ evs, c'.eng.log = c.eng.log ++ evs)
    (hc : ∃ cs, c'.eng.calls = c.eng.calls ++ cs) : Untouched c c' where
  cfg := hcfg
  unit := hu
  port := hp
  lines := ⟨fun v => v, by rw [hbus, modify_own_id], fun _ => ⟨.inr rfl, .inr rfl, .inr rfl⟩⟩
  wired := fun h => by rw [hbus]; exact h
  log := hl
  calls := hc

theorem Untouched.rfl' (c : Ctx) : Untouched c c := untouched_record rfl rfl rfl rfl ⟨[], by simp⟩ ⟨[], by simp⟩

theorem untouched_setState (st : Handshake) (c : Ctx) : Untouched c (setState st c) :=
  untouched_record rfl rfl rfl rfl ⟨[], by simp⟩ ⟨[], by simp⟩

theorem untouched_setMode (m : Mode) (c : Ctx) : Untouched c (setMode m c) :=
  untouched_record rfl rfl rfl rfl ⟨[], by simp⟩ ⟨[], by simp⟩

theorem untouched_setRole (r : Role) (c : Ctx) : Untouched c (setRole r c) :=
  untouched_record rfl rfl rfl rfl ⟨[], by simp⟩ ⟨[], by simp⟩

theorem untouched_setCmd (k : ParsedCommand) (c : Ctx) : Untouched c (setCmd k c) :=
  untouched_record rfl rfl rfl rfl ⟨[], by simp⟩ ⟨[], by simp⟩

theorem untouched_recordCommand (code : CommandCode) (arg : BitVec 5) (c : Ctx) :
    Untouched c (recordCommand code arg c) := untouched_setCmd _ c

theorem untouched_setParam (bs : List Byte) (c : Ctx) : Untouched c (setParam bs c) := untouched_setCmd _ c

theorem untouched_setTr (t : Transceiver) (c : Ctx) : Untouched c (setTr t c) :=
  untouched_record rfl rfl rfl rfl ⟨[], by simp⟩ ⟨[], by simp⟩

theorem untouched_addTime (k : Nat) (c : Ctx) : Untouched c (addTime k c) :=
  untouched_record rfl rfl rfl rfl ⟨[], by simp⟩ ⟨[], by simp⟩

theorem untouched_bumpCursor (c : Ctx) : Untouched c (bumpCursor c) := untouched_setTr _ c

theorem untouched_logEvent (ev : Event) (c : Ctx) : Untouched c (logEvent ev c) :=
  untouched_record rfl rfl rfl rfl ⟨[ev], rfl⟩ ⟨[], by simp⟩

theorem untouched_callBackend (k : BackendCall) (c : Ctx) : Untouched c (callBackend k c) :=
  untouched_record rfl rfl rfl rfl ⟨[], by simp⟩ ⟨[k], rfl⟩

theorem untouched_readBackend (ch : Channel) (c : Ctx) : Untouched c (readBackend ch c).2 :=
  untouched_record (by simp) (by simp) (by simp) (by simp) ⟨[], by simp⟩ ⟨[.readCall ch], by simp⟩

/-- Driving CLK or DAT, or letting any line go. -/
theorem untouched_drive {l : Line} {lv : Level} (h : lv = .rel ∨ l = .clk ∨ l = .dat) (c : Ctx) :
    Untouched c (drive l lv c) where
  cfg := rfl
  unit := rfl
  port := rfl
  lines := ⟨fun v => v.set l lv, rfl, fun v => by
    rcases h with rfl | rfl | rfl
    · cases l <;> simp [SignalSet.set]
    · simp [withClk]
    · simp [withDat]⟩
  wired := fun _ => (drive_after l lv c).wired
  log := ⟨[], by simp⟩
  calls := ⟨[], by simp⟩

theorem untouched_driveDat (lv : Level) (c : Ctx) : Untouched c (drive .dat lv c) := untouched_drive (.inr (.inr rfl)) c

theorem untouched_driveClk (lv : Level) (c : Ctx) : Untouched c (drive .clk lv c) := untouched_drive (.inr (.inl rfl)) c

theorem untouched_releaseAll (c : Ctx) : Untouched c (releaseAll c) :=
  ((((untouched_drive (.inl rfl) c).trans (untouched_drive (.inl rfl) _)).trans (untouched_drive (.inl rfl) _)).trans
    (untouched_drive (.inl rfl) _)).trans (untouched_drive (.inl rfl) _)

theorem untouched_reinit (c : Ctx) : Untouched c (reinit c) :=
  (((((untouched_releaseAll c).trans (untouched_setMode _ _)).trans (untouched_setRole _ _)).trans
    (untouched_setCmd _ _)).trans (untouched_setTr _ _)).trans (untouched_setState _ _)

theorem untouched_toWait (c : Ctx) : Untouched c (toWait c) :=
  ((untouched_releaseAll c).trans (untouched_setMode _ _)).trans (untouched_setState _ _)

theorem untouched_beginRx (c : Ctx) : Untouched c (beginRx c) :=
  ((untouched_setTr _ c).trans (untouched_driveDat _ _)).trans (untouched_setState _ _)

theorem untouched_putBit (c : Ctx) : Untouched c (putBit c) :=
  ((untouched_driveClk _ c).trans (untouched_driveDat _ _)).trans (untouched_setState _ _)

theorem untouched_raiseEvent (ev : Event) (l : Landing) (c : Ctx) : Untouched c (raiseEvent ev l c) := by
  cases l
  · exact (untouched_logEvent ev c).trans (untouched_toWait _)
  · exact (untouched_logEvent ev c).trans (untouched_reinit _)

/-! ## The commands -/

theorem untouched_afterAddressing (c : Ctx) : Untouched c (afterAddressing c) := by
  unfold afterAddressing
  split
  · exact untouched_toWait c
  · exact (untouched_setMode _ c).trans (untouched_beginRx _)

theorem untouched_straySecondary (code : CommandCode) (ch : Channel) (c : Ctx) :
    Untouched c (straySecondary code ch c) :=
  ((untouched_recordCommand _ _ c).trans (untouched_setRole _ _)).trans (untouched_toWait _)

theorem untouched_processSecondary (code : CommandCode) (ch : Channel) (c : Ctx) :
    Untouched c (processSecondary code ch c) :=
  (untouched_recordCommand _ _ c).trans (untouched_beginRx _)

theorem untouched_dispatchCommandByte (b : Byte) (c : Ctx) : Untouched c (dispatchCommandByte b c) := by
  rcases dispatchCommandByte_cases b c with ⟨u, h⟩ | ⟨u, h⟩ | h | h | ⟨u, h⟩ | ⟨u, h⟩ | ⟨u, h⟩ | h <;> rw [h]
  · exact ((untouched_recordCommand _ _ c).trans (untouched_setRole _ _)).trans (untouched_afterAddressing _)
  · exact ((untouched_recordCommand _ _ c).trans (untouched_setRole _ _)).trans (untouched_afterAddressing _)
  · exact ((untouched_recordCommand _ _ c).trans (untouched_setRole _ _)).trans (untouched_afterAddressing _)
  · exact ((untouched_recordCommand _ _ c).trans (untouched_setRole _ _)).trans (untouched_afterAddressing _)
  · unfold openAt
    split
    · exact untouched_processSecondary _ _ c
    · exact untouched_straySecondary _ _ c
  · unfold closeAt
    split
    · exact ((untouched_recordCommand _ _ c).trans (untouched_callBackend _ _)).trans (untouched_beginRx _)
    · exact untouched_straySecondary _ _ c
  · unfold reopenAt
    split
    · exact untouched_processSecondary _ _ c
    · exact untouched_straySecondary _ _ c
  · exact untouched_raiseEvent _ _ c

theorem untouched_executeDeferred (c : Ctx) : Untouched c (executeDeferred c) := by
  unfold executeDeferred
  split <;> first | exact untouched_callBackend _ c | exact Untouched.rfl' c

/-! ## The machines and the pass -/

theorem untouched_rxStep (cl d : Level) (c : Ctx) : Untouched c (rxStep cl d c).1 := by
  cases h : rxStep cl d c with
  | mk c' r =>
    cases r with
    | noProgress =>
      rcases rxStep_noProgress h with rfl | ⟨-, -, -, rfl⟩
      · exact Untouched.rfl' _
      · exact untouched_driveDat _ _
    | progress =>
      rcases rxStep_progress h with ⟨-, -, rfl⟩ | ⟨-, -, rfl⟩ | ⟨-, -, -, rfl⟩ | ⟨-, -, -, rfl⟩ | ⟨-, -, rfl⟩ |
        ⟨-, -, -, rfl⟩ | ⟨-, -, -, rfl⟩ | ⟨-, -, -, rfl⟩
      · exact (untouched_driveDat _ _).trans (untouched_setState _ _)
      · exact untouched_setState _ _
      · exact ((untouched_setTr _ _).trans (untouched_driveDat _ _)).trans (untouched_setState _ _)
      · exact (untouched_driveDat _ _).trans (untouched_setState _ _)
      · exact (untouched_setTr _ _).trans (untouched_setState _ _)
      · exact (untouched_driveDat _ _).trans (untouched_setState _ _)
      · exact untouched_setState _ _
      · exact untouched_raiseEvent .bitDoneTimeout .wait c
    | complete b =>
      obtain ⟨-, -, -, rfl⟩ := rxStep_complete h
      exact (untouched_setTr _ _).trans (untouched_setState _ _)

theorem untouched_txNextByte (c : Ctx) : Untouched c (txNextByte c) := by
  rw [txNextByte_eq]
  split
  · exact (untouched_readBackend _ c).trans (untouched_reinit _)
  · exact ((untouched_readBackend _ c).trans (untouched_setTr _ _)).trans (untouched_setState _ _)

theorem untouched_firstByte (c : Ctx) : Untouched c (firstByte c) := by
  rw [firstByte_eq]
  split
  · exact (untouched_readBackend _ c).trans (untouched_reinit _)
  · exact (((untouched_readBackend _ c).trans (untouched_setTr _ _)).trans (untouched_setMode _ _)).trans
      (untouched_setState _ _)

theorem untouched_abortTransmission (c : Ctx) : Untouched c (abortTransmission c) := by
  unfold abortTransmission
  split
  · exact untouched_reinit c
  · exact (untouched_callBackend _ c).trans (untouched_reinit _)

theorem untouched_txStep (d : Level) (c : Ctx) : Untouched c (txStep d c).1 := by
  cases h : txStep d c with
  | mk c' p =>
    cases p with
    | false =>
      rw [txStep_noProgress h]
      exact Untouched.rfl' c
    | true =>
      rcases txStep_progress h with ⟨-, rfl⟩ | ⟨-, -, -, rfl⟩ | ⟨-, -, -, rfl⟩ | ⟨-, -, -, rfl⟩ | ⟨-, -, rfl⟩ |
        ⟨-, -, -, rfl⟩ | ⟨-, -, -, rfl⟩ | ⟨-, -, -, rfl⟩ | ⟨-, -, -, rfl⟩ | ⟨-, -, -, rfl⟩ | ⟨-, -, rfl⟩
      · exact (untouched_driveClk _ _).trans (untouched_setState _ _)
      · exact untouched_setState _ _
      · exact untouched_putBit _
      · exact untouched_putBit _
      · exact (untouched_driveClk _ _).trans (untouched_setState _ _)
      · exact (untouched_bumpCursor _).trans (untouched_putBit _)
      · exact (((untouched_bumpCursor _).trans (untouched_driveClk _ _)).trans (untouched_driveDat _ _)).trans
          (untouched_setState _ _)
      · exact (untouched_setTr _ _).trans (untouched_reinit _)
      · exact (untouched_setTr _ _).trans (untouched_txNextByte _)
      · exact untouched_raiseEvent .frameTimeout .idle c
      · exact untouched_setState _ _

theorem untouched_dataByte (b : Byte) (c : Ctx) : Untouched c (dataByte b c) := by
  unfold dataByte
  split
  · exact (((untouched_setParam _ c).trans (untouched_executeDeferred _)).trans (untouched_setParam _ _)).trans
      (untouched_beginRx _)
  · exact (untouched_setParam _ c).trans (untouched_beginRx _)

/-- A pass keeps what `Untouched` says. -/
theorem untouched_advance (c c' : Ctx) (p : Bool) (h : advance c = (c', p)) : Untouched c c' := by
  have rx : ∀ {cl d : Level} {x : Ctx} {r : RxResult}, rxStep cl d c = (x, r) → Untouched c x := fun {cl d x r} hr => by
    have := untouched_rxStep cl d c
    rwa [hr] at this
  cases p with
  | false =>
    rcases advance_noProgress h with rfl | ⟨-, -, -, rfl⟩
    · exact Untouched.rfl' _
    · exact untouched_driveDat _ _
  | true =>
    cases advance_progress h with
    | enterCommand => exact ((untouched_setCmd _ c).trans (untouched_setMode _ _)).trans (untouched_beginRx _)
    | leaveCommand => exact untouched_reinit c
    | leaveSecondary =>
      unfold leaveSecondary
      split
      · split
        · exact (untouched_setMode _ c).trans (untouched_beginRx _)
        · exact (untouched_setMode _ c).trans (untouched_setState _ _)
      · exact untouched_reinit c
    | receive _ _ _ h1 => exact rx h1
    | dispatch _ h1 => exact (rx h1).trans (untouched_dispatchCommandByte _ _)
    | dataToCommand => exact ((untouched_setCmd _ c).trans (untouched_setMode _ _)).trans (untouched_beginRx _)
    | collect _ _ h1 => exact (rx h1).trans (untouched_dataByte _ _)
    | abandonTurn => exact untouched_reinit c
    | takeClock =>
      exact (((untouched_driveClk _ c).trans (untouched_driveDat _ _)).trans (untouched_setMode _ _)).trans
        (untouched_setState _ _)
    | startTalking => exact untouched_firstByte c
    | abort => exact untouched_abortTransmission c
    | send _ _ h1 =>
      have := untouched_txStep (lineLevel .dat c) c
      rwa [h1] at this
    | leaveWait => exact untouched_reinit c

/-- The loop of a tick keeps it too. -/
theorem untouched_runPasses {n : Nat} {c c' : Ctx} (h : runPasses n c = some c') : Untouched c c' :=
  runPasses_keeps (P := Untouched c) (fun c1 c2 p h1 h2 => h1.trans (untouched_advance c1 c2 p h2)) (Untouched.rfl' c) h

end Sys2Proof.Machine
end

