-- ==== Sys2Proof/Laws/PerInstr.lean ====
section
/-! SUPPORT. Statements made for every instruction, one lemma per constructor. -/

namespace Sys2Proof.Laws.EncodeHead

/-- The encoding of an instruction is not empty, and its first byte says which kind it is: 16 and above for a command
byte, below 16 for an operation. The seven commands stand at 0x20 and above (30_encoding.md R66), the eight operations
at their `opsel` 0 to 7 (R69). -/
def Statement (i : Instr) : Prop :=
  ∃ (b : Byte) (bs : List Byte), encode i = b :: bs ∧ (i.isCommand = true ↔ 16 ≤ b.toNat)

theorem unlisten : Statement .unlisten := ⟨_, _, rfl, by decide⟩
theorem untalk : Statement .untalk := ⟨_, _, rfl, by decide⟩
theorem listen (u : BitVec 5) : Statement (.listen u) := ⟨_, _, rfl, by revert u; decide⟩
theorem talk (u : BitVec 5) : Statement (.talk u) := ⟨_, _, rfl, by revert u; decide⟩
theorem reopenChannel (c : Channel) : Statement (.reopenChannel c) := ⟨_, _, rfl, by revert c; decide⟩
theorem closeChannel (c : Channel) : Statement (.closeChannel c) := ⟨_, _, rfl, by revert c; decide⟩
theorem openChannel (c : Channel) : Statement (.openChannel c) := ⟨_, _, rfl, by revert c; decide⟩
theorem reset : Statement .reset := ⟨_, _, rfl, by decide⟩
theorem attach (p : Nat) (u : UnitNumber) : Statement (.attach p u) := ⟨_, _, rfl, by simp [Instr.isCommand]⟩
theorem detach (p : Nat) : Statement (.detach p) := ⟨_, _, rfl, by simp [Instr.isCommand]⟩
theorem merged : Statement .merged := ⟨_, _, rfl, by decide⟩
theorem recompute : Statement .recompute := ⟨_, _, rfl, by decide⟩
theorem pinWrite (p : Nat) (l : Line) (lv : Level) : Statement (.pinWrite p l lv) :=
  ⟨_, _, rfl, by simp [Instr.isCommand]⟩
theorem pinRead (p : Nat) : Statement (.pinRead p) := ⟨_, _, rfl, by simp [Instr.isCommand]⟩
theorem tick (e elapsed : Nat) : Statement (.tick e elapsed) := ⟨_, _, rfl, by simp [Instr.isCommand]⟩

end Sys2Proof.Laws.EncodeHead
end

