-- ==== Sys2Proof/Laws/Step.lean ====
section
/-! SUPPORT. What the decoders can answer and what a step can do: one inversion lemma for `step`, guards included. -/

namespace Sys2Proof

theorem withNat_ok {bs : List Byte} {k : Nat → List Byte → Except DecodeError (Instr × List Byte)}
    {x : Instr × List Byte} (h : withNat bs k = .ok x) : ∃ n r, decodeNat bs = some (n, r) ∧ k n r = .ok x := by
  unfold withNat at h
  split at h
  · cases h
  · exact ⟨_, _, ‹_›, h⟩

theorem withByte_ok {bs : List Byte} {k : Byte → List Byte → Except DecodeError (Instr × List Byte)}
    {x : Instr × List Byte} (h : withByte bs k = .ok x) : ∃ b r, bs = b :: r ∧ k b r = .ok x := by
  unfold withByte at h
  split at h
  · cases h
  · exact ⟨_, _, rfl, h⟩

/-- The decoder of operations answers no command. -/
theorem decodeOperation_isCommand {bs rest : List Byte} {i : Instr} (h : decodeOperation bs = .ok (i, rest)) :
    i.isCommand = false := by
  unfold decodeOperation at h
  split at h
  · cases h
  · (repeat' split at h)
    · cases h; rfl
    · obtain ⟨_, _, -, h⟩ := withNat_ok h
      obtain ⟨_, _, -, h⟩ := withByte_ok h
      cases h; rfl
    · obtain ⟨_, _, -, h⟩ := withNat_ok h
      cases h; rfl
    · cases h; rfl
    · cases h; rfl
    · obtain ⟨_, _, -, h⟩ := withNat_ok h
      obtain ⟨_, _, -, h⟩ := withByte_ok h
      obtain ⟨_, _, -, h⟩ := withByte_ok h
      (repeat' split at h) <;> cases h
      rfl
    · obtain ⟨_, _, -, h⟩ := withNat_ok h
      cases h; rfl
    · obtain ⟨_, _, -, h⟩ := withNat_ok h
      obtain ⟨_, _, -, h⟩ := withNat_ok h
      cases h; rfl
    · cases h

/-- The decoder of command bytes answers commands only. -/
theorem decodeCommand_isCommand {b : Byte} {i : Instr} (h : decodeCommand b = .ok i) : i.isCommand = true := by
  unfold decodeCommand at h
  (repeat' split at h) <;> cases h <;> rfl

namespace Machine

/-- A command as an instruction is the command on the engine that completed its byte. -/
theorem exec_command {i : Instr} (h : i.isCommand = true) (s : State) : exec i s = onDispatching (runCommand i) s := by
  cases i <;> first | rfl | cases h

theorem untouched_runCommand (i : Instr) (c : Ctx) : Untouched c (runCommand i c) := by
  have addr : ∀ (k : CommandCode) (a : BitVec 5) (r : Role),
      Untouched c (afterAddressing (setRole r (recordCommand k a c))) := fun k a r =>
    ((untouched_recordCommand k a c).trans (untouched_setRole r _)).trans (untouched_afterAddressing _)
  cases i <;> simp only [runCommand]
  · exact addr _ _ _
  · exact addr _ _ _
  · exact addr _ _ _
  · exact addr _ _ _
  · unfold reopenAt
    split
    · exact untouched_processSecondary _ _ c
    · exact untouched_straySecondary _ _ c
  · unfold closeAt
    split
    · exact ((untouched_recordCommand _ _ c).trans (untouched_callBackend _ _)).trans (untouched_beginRx _)
    · exact untouched_straySecondary _ _ c
  · unfold openAt
    split
    · exact untouched_processSecondary _ _ c
    · exact untouched_straySecondary _ _ c
  all_goals exact Untouched.rfl' c

/-- Everything a step that answers a next state can have done. -/
inductive StepDid (s t : State) : Prop where
  /-- There was nothing to do. -/
  | held : s.dispatching = none → s.schedule = [] → t = s → StepDid s t
  /-- The operation at the head of the schedule ran. -/
  | operation (i : Instr) (rest : List Byte) : i.isCommand = false → s.dispatching = none →
      decodeOperation s.schedule = .ok (i, rest) → exec i { s with schedule := rest } = .next t → StepDid s t
  /-- The byte engine `e` had completed was dispatched, and the rest of its tick ran. -/
  | dispatched (e : Nat) (E : Engine) (c : Ctx) : s.dispatching = some e → s.engines[e]? = some E →
      runPasses passLimit (dispatchCommandByte E.tr.value ⟨s.cfg, s.bus, E, s.free⟩) = some c →
      t = { storeCtx e c s with dispatching := none, result := .tick (.cycles s.cfg.tickCycles) } → StepDid s t

/-- The step after a command has run on engine `e`: the loop of passes from where the command left the engine. -/
theorem finishTick_onDispatching {f : Ctx → Ctx} {s t : State} {e : Nat} {E : Engine} (hd : s.dispatching = some e)
    (he : s.engines[e]? = some E) (hf : Untouched ⟨s.cfg, s.bus, E, s.free⟩ (f ⟨s.cfg, s.bus, E, s.free⟩))
    (h : finishTick e (onDispatching f s) = .next t) :
    ∃ c, runPasses passLimit (f ⟨s.cfg, s.bus, E, s.free⟩) = some c ∧
      t = { storeCtx e c s with dispatching := none, result := .tick (.cycles s.cfg.tickCycles) } := by
  rw [onDispatching_eq hd he] at h
  obtain ⟨s1, E1, c, h1, h2, h3, h4⟩ := finishTick_next h
  cases h1
  obtain ⟨hl, -⟩ := List.getElem?_eq_some_iff.1 he
  simp [hl] at h2
  subst h2
  have hcfg := hf.cfg
  refine ⟨c, ?_, by rw [h4]; simp [storeCtx, List.set_set]⟩
  rw [← h3]
  cases hx : f ⟨s.cfg, s.bus, E, s.free⟩
  simp only [hx] at hcfg
  simp [hcfg]

theorem step_did {s t : State} (h : step s = .next t) : StepDid s t := by
  unfold step at h
  cases hd : s.dispatching with
  | none =>
    cases hs : s.schedule with
    | nil =>
      simp [fetch, hd, hs] at h
      exact .held hd hs h.symm
    | cons b bs =>
      cases ho : decodeOperation (b :: bs) with
      | error err => simp [fetch, hd, hs, ho] at h
      | ok x =>
        obtain ⟨i, rest⟩ := x
        simp [fetch, hd, hs, ho] at h
        exact .operation i rest (decodeOperation_isCommand ho) hd (by rw [hs]; exact ho) (by rw [hd]; exact h)
  | some e =>
    cases he : s.engines[e]? with
    | none => simp [fetch, hd, he] at h
    | some E =>
      cases hb : decodeCommand E.tr.value with
      | ok i =>
        simp [fetch, hd, he, hb] at h
        rw [exec_command (decodeCommand_isCommand hb)] at h
        obtain ⟨c, h1, h2⟩ := finishTick_onDispatching hd he (untouched_runCommand i _) h
        exact .dispatched e E c hd he (by rw [dispatchCommandByte, hb]; exact h1) h2
      | error err =>
        simp [fetch, hd, he, hb] at h
        obtain ⟨c, h1, h2⟩ := finishTick_onDispatching hd he (untouched_raiseEvent _ _ _) h
        exact .dispatched e E c hd he (by rw [dispatchCommandByte, hb]; exact h1) h2

end Machine
end Sys2Proof
end

