-- ==== Sys2Proof/Tests/Slice0.lean ====
section
/-! SUPPORT. The model's own tests. Expected results are the spec's: the examples of its rules, its opcode map and its
vectors (95_test_vectors.md); each comment names the one it comes from. The last part shows, for every statement of
Certificates/Slice0/Obligations.lean that has hypotheses, a state and operands that meet all of them together. -/

namespace Sys2Proof.Tests

open Sys2Proof Sys2Proof.Machine

/-! ## Well-formedness: each check refuses an ill-formed term -/

theorem test_wf_listen_31 : (Instr.listen 31).wf 4 2 = false := by decide
theorem test_wf_talk_31 : (Instr.talk 31).wf 4 2 = false := by decide
theorem test_wf_attach_port : (Instr.attach 4 8).wf 4 2 = false := by decide
theorem test_wf_detach_port : (Instr.detach 4).wf 4 2 = false := by decide
theorem test_wf_pinWrite_port : (Instr.pinWrite 4 .clk .act).wf 4 2 = false := by decide
theorem test_wf_pinRead_port : (Instr.pinRead 4).wf 4 2 = false := by decide
theorem test_wf_tick_engine : (Instr.tick 2 10).wf 4 2 = false := by decide
theorem test_wf_boundaries :
    (Instr.listen 30).wf 4 2 && (Instr.talk 0).wf 4 2 && (Instr.attach 3 255).wf 4 2 && (Instr.tick 1 0).wf 4 2 := by
  decide

/-! ## Decoding: words written out from 30_encoding.md R61 to R65 and R69 -/

/-- One word for every command (R65), read by the decoder. -/
theorem test_decode_commands :
    decode [0b00111111#8] = .ok (.unlisten, []) ∧ decode [0b01011111#8] = .ok (.untalk, []) ∧
    decode [0b00101000#8] = .ok (.listen 8, []) ∧ decode [0b01001000#8] = .ok (.talk 8, []) ∧
    decode [0b01100010#8] = .ok (.reopenChannel 2, []) ∧ decode [0b11100010#8] = .ok (.closeChannel 2, []) ∧
    decode [0b11110010#8] = .ok (.openChannel 2, []) := by decide

/-- One word for every operation (R69); the operand bytes are the model's (log 4). -/
theorem test_decode_operations :
    decode [0b00000000#8] = .ok (.reset, []) ∧ decode [0b00000001#8, 3#8, 8#8] = .ok (.attach 3 8, []) ∧
    decode [0b00000010#8, 1#8] = .ok (.detach 1, []) ∧ decode [0b00000011#8] = .ok (.merged, []) ∧
    decode [0b00000100#8] = .ok (.recompute, []) ∧
    decode [0b00000101#8, 2#8, 3#8, 1#8] = .ok (.pinWrite 2 .dat .rel, []) ∧
    decode [0b00000110#8, 0#8] = .ok (.pinRead 0, []) ∧
    decode [0b00000111#8, 1#8, 10#8] = .ok (.tick 1 10, []) := by decide

/-- A number operand above 127 takes a second byte (log 4): 1000 is 7 * 128 + 104. -/
theorem test_decode_long_number : decode [7#8, 0#8, 232#8, 7#8, 0xAA#8] = .ok (.tick 0 1000, [0xAA#8]) := by decide

/-- The boundary values of the opcode map (95_test_vectors.md, parse table). -/
theorem test_parse_table :
    decodeCommand 0x00 = .error (.invalidCommand 0x00) ∧ decodeCommand 0x1F = .error (.invalidCommand 0x1F) ∧
    decodeCommand 0x20 = .ok (.listen 0) ∧ decodeCommand 0x3E = .ok (.listen 30) ∧
    decodeCommand 0x3F = .ok .unlisten ∧ decodeCommand 0x40 = .ok (.talk 0) ∧
    decodeCommand 0x5E = .ok (.talk 30) ∧ decodeCommand 0x5F = .ok .untalk ∧
    decodeCommand 0x60 = .ok (.reopenChannel 0) ∧ decodeCommand 0x6F = .ok (.reopenChannel 15) ∧
    decodeCommand 0x70 = .error (.invalidCommand 0x70) ∧ decodeCommand 0xDF = .error (.invalidCommand 0xDF) ∧
    decodeCommand 0xE0 = .ok (.closeChannel 0) ∧ decodeCommand 0xEF = .ok (.closeChannel 15) ∧
    decodeCommand 0xF0 = .ok (.openChannel 0) ∧ decodeCommand 0xFF = .ok (.openChannel 15) := by decide

/-- Every ill-formed byte string is rejected by name. -/
theorem test_decode_rejects :
    decode [] = .error .noBytes ∧ decode [0x08#8] = .error (.unusedOpsel 0x08) ∧
    decode [0x10#8] = .error (.invalidCommand 0x10) ∧ decode [0x01#8, 0#8] = .error .missingOperand ∧
    decode [0x06#8, 0x80#8] = .error .missingOperand ∧ decode [0x05#8, 0#8, 5#8, 0#8] = .error (.noSuchLine 5) ∧
    decode [0x05#8, 0#8, 4#8, 2#8] = .error (.noSuchLevel 2) := by decide

/-- The encoder writes the words of spec/opcode_table.json. -/
theorem test_encode_words :
    encode .unlisten = [0x3F#8] ∧ encode .untalk = [0x5F#8] ∧ encode (.listen 30) = [0x3E#8] ∧
    encode (.talk 8) = [0x48#8] ∧ encode (.reopenChannel 15) = [0x6F#8] ∧ encode (.closeChannel 0) = [0xE0#8] ∧
    encode (.openChannel 2) = [0xF2#8] ∧ encode .recompute = [4#8] ∧
    encode (.pinWrite 200 .rst .rel) = [5#8, 200#8, 1#8, 4#8, 1#8] := by decide

/-- The first word of every table row, numbered as the table numbers bits. -/
theorem test_decodeTableWord :
    decodeTableWord 8 0x3F = some .unlisten ∧ decodeTableWord 8 0x5F = some .untalk ∧
    decodeTableWord 8 0x20 = some (.listen 0) ∧ decodeTableWord 8 0x40 = some (.talk 0) ∧
    decodeTableWord 8 0x60 = some (.reopenChannel 0) ∧ decodeTableWord 8 0xE0 = some (.closeChannel 0) ∧
    decodeTableWord 8 0xF0 = some (.openChannel 0) ∧ decodeTableWord 8 0 = some .reset ∧
    decodeTableWord 8 1 = some (.attach 0 0) ∧ decodeTableWord 8 2 = some (.detach 0) ∧
    decodeTableWord 8 3 = some .merged ∧ decodeTableWord 8 4 = some .recompute ∧
    decodeTableWord 8 5 = some (.pinWrite 0 .srq .act) ∧ decodeTableWord 8 6 = some (.pinRead 0) ∧
    decodeTableWord 8 7 = some (.tick 0 0) ∧ decodeTableWord 8 8 = none := by decide

/-! ## Small states and the parts of an outcome -/

/-- A part of the next state, if there is one. -/
def after {α : Type} (o : Host.Outcome State Fault Refusal) (f : State → α) : Option α :=
  match o with
  | .next s => some (f s)
  | .fault _ => none
  | .refused _ => none

/-- The engine of the vectors: unit 8 on port 0. -/
def eng : Engine := Engine.atReset ⟨8, 0⟩

/-- Slot 0 is the engine's, slot 1 the controller's; slots 2 and 3 are free. -/
def busOf (own ctl : SignalSet) : Bus :=
  recompute ⟨[⟨true, 8, own⟩, ⟨true, 255, ctl⟩, Slot.atReset, Slot.atReset], .allRel⟩

/-- The machine with engine record `E`, its own lines and the controller's. -/
def mach (E : Engine) (own ctl : SignalSet) : State :=
  { State.reset with bus := busOf own ctl, engines := [E, Engine.atReset ⟨9, 2⟩] }

/-- The engine as the talker of channel 2. -/
def sendingEng : Engine := { eng with mode := .talker, role := .talker, cmd := ⟨.reopenChannel, 2, []⟩ }

def rrrrr : SignalSet := .allRel
def rAArr : SignalSet := ⟨.rel, .act, .act, .rel, .rel⟩
def rAAAr : SignalSet := ⟨.rel, .act, .act, .act, .rel⟩
def rArrr : SignalSet := ⟨.rel, .act, .rel, .rel, .rel⟩
def rrArr : SignalSet := ⟨.rel, .rel, .act, .rel, .rel⟩
def rrAAr : SignalSet := ⟨.rel, .rel, .act, .act, .rel⟩
def rrrAr : SignalSet := ⟨.rel, .rel, .rel, .act, .rel⟩

/-- The machine whose engine has just completed a command byte. -/
def dispatchingMach (E : Engine) : State := { mach E rrrAr rAArr with dispatching := some 0 }

/-- What the vectors say of an engine: mode, state, role, command, its own lines, its backend calls. -/
structure Seen where
  mode : Mode
  state : Handshake
  role : Role
  cmd : ParsedCommand
  own : SignalSet
  calls : List BackendCall
deriving DecidableEq, Repr

/-- What is seen of engine 0 after an outcome. -/
def seen (o : Host.Outcome State Fault Refusal) : Option Seen :=
  match o with
  | .next s =>
    match s.engines[0]?, s.bus.slots[0]? with
    | some E, some sl => some ⟨E.mode, E.state, E.role, E.cmd, sl.own, E.calls⟩
    | _, _ => none
  | .fault _ => none
  | .refused _ => none

/-! ## The multiplexer's operations -/

/-- `ALL_REL` is 0x1F, `rAAAr` is 0x11 (00_scope.md R7). -/
theorem test_signal_bits : SignalSet.allRel.toBits = 0x1F ∧ rAAAr.toBits = 0x11 := by decide

/-- Vectors B2a, B2e: a free slot with a free unit, and with the sentinel. -/
theorem test_attach_registers :
    after (exec (.attach 0 8) State.reset) (fun s => (s.result, s.bus.slots[0]?)) =
      some (.bool true, some ⟨true, 8, rrrrr⟩) ∧
    after (exec (.attach 2 255) (mach eng rrrrr rrrrr)) (·.result) = some (.bool true) := by decide

/-- Vectors B2b, B2c: a taken unit, a taken slot. -/
theorem test_attach_refuses :
    after (exec (.attach 2 8) (mach eng rrrAr rrrrr)) (fun s => (s.result, s.bus)) =
      some (.bool false, busOf rrrAr rrrrr) ∧
    after (exec (.attach 0 9) (mach eng rrrAr rrrrr)) (fun s => (s.result, s.bus)) =
      some (.bool false, busOf rrrAr rrrrr) := by decide

/-- 40_bus_ops.md R81's example, and vector B13. -/
theorem test_detach :
    after (exec (.detach 0) (mach eng rrrAr rrrrr)) (fun s => (s.bus.merged, s.bus.slots[0]?)) =
      some (rrrrr, some ⟨false, 8, rrrAr⟩) ∧
    after (exec (.detach 3) (mach eng rrrAr rrArr)) (·.bus) = some (busOf rrrAr rrArr) := by decide

/-- R82's example. -/
theorem test_merged : after (exec .merged (mach eng rArrr rrArr)) (·.result) = some (.lines rAArr) := by decide

/-- R83's example, on a bus whose `merged` is stale. -/
theorem test_recompute :
    after (exec .recompute { mach eng rrArr rrrAr with bus := { busOf rrArr rrrAr with merged := .allRel } })
      (·.bus.merged) = some rrAAr := by decide

/-- R85's example, its first step, and vector B8: a slot that is not attached. -/
theorem test_pinWrite :
    after (exec (.pinWrite 0 .dat .act) (mach eng rrrrr rrArr)) (fun s => (s.bus.merged, s.bus.slots[0]?.map (·.own))) =
      some (rrAAr, some rrrAr) ∧
    after (exec (.pinWrite 3 .atn .act) (mach eng rrrrr rrArr)) (fun s => (s.bus.merged, s.bus.slots[3]?.map (·.own))) =
      some (rrArr, some rArrr) := by decide

/-- R86's example. -/
theorem test_pinRead :
    after (exec (.pinRead 0) (mach eng rrrrr rAArr)) (·.result) = some (.lines rAArr) ∧
    after (exec (.pinRead 3) (mach eng rrrrr rAArr)) (·.result) = some (.lines rAArr) := by decide

/-- 10_state.md R27: after RESET no slot is attached, the lines are released and the engine is in its power-on record. -/
theorem test_reset :
    after (exec .reset (mach { eng with mode := .data, time := 7, log := [.frameTimeout] } rrrAr rAArr))
      (fun s => (s.bus.merged, s.bus.slots.map (fun sl => (sl.attached, sl.own)), s.engines)) =
      some (rrrrr, List.replicate 4 (false, rrrrr), [eng, Engine.atReset ⟨9, 2⟩]) := by decide

/-! ## The seven commands (95_test_vectors.md, vectors K) -/

/-- Vectors K1, K2. -/
theorem test_listen :
    seen (exec (.listen 8) (dispatchingMach { eng with mode := .command, tr := ⟨0x28, false, true, 8⟩ })) =
      some ⟨.secondary, .init, .listener, ⟨.listen, 8, []⟩, rrrAr, []⟩ ∧
    seen (exec (.listen 9) (dispatchingMach { eng with mode := .command, tr := ⟨0x29, false, true, 8⟩ })) =
      some ⟨.wait, .idle, .passive, ⟨.listen, 9, []⟩, rrrrr, []⟩ := by decide

/-- Vectors K3, K23. -/
theorem test_talk :
    seen (exec (.talk 8) (dispatchingMach { eng with mode := .command, tr := ⟨0x48, false, true, 8⟩ })) =
      some ⟨.secondary, .init, .talker, ⟨.talk, 8, []⟩, rrrAr, []⟩ ∧
    seen (exec (.talk 9)
        (dispatchingMach { eng with mode := .secondary, role := .listener, cmd := ⟨.listen, 8, []⟩ })) =
      some ⟨.wait, .idle, .passive, ⟨.talk, 9, []⟩, rrrrr, []⟩ := by decide

/-- Vector K9: a Listener left over from mode Data. -/
theorem test_unlisten :
    seen (exec .unlisten (dispatchingMach { eng with mode := .command, role := .listener })) =
      some ⟨.wait, .idle, .passive, ⟨.unlisten, 31, []⟩, rrrrr, []⟩ := by decide

/-- Vector K10, with a Talker (42_commands.md R135: the present role does not matter). -/
theorem test_untalk :
    seen (exec .untalk (dispatchingMach { eng with mode := .command, role := .talker })) =
      some ⟨.wait, .idle, .passive, ⟨.untalk, 31, []⟩, rrrrr, []⟩ := by decide

/-- Vectors K14, K11. -/
theorem test_open :
    seen (exec (.openChannel 2)
        (dispatchingMach { eng with mode := .secondary, role := .listener, cmd := ⟨.listen, 8, []⟩ })) =
      some ⟨.secondary, .init, .listener, ⟨.openChannel, 2, []⟩, rrrAr, []⟩ ∧
    seen (exec (.openChannel 2) (dispatchingMach { eng with mode := .command })) =
      some ⟨.wait, .idle, .passive, ⟨.openChannel, 2, []⟩, rrrrr, []⟩ := by decide

/-- Vectors K18, K12: the backend call as talker, and none without an address. -/
theorem test_close :
    seen (exec (.closeChannel 5)
        (dispatchingMach { eng with mode := .secondary, role := .talker, cmd := ⟨.talk, 8, []⟩ })) =
      some ⟨.secondary, .init, .talker, ⟨.closeChannel, 5, []⟩, rrrAr, [.closeCall 5]⟩ ∧
    seen (exec (.closeChannel 2) (dispatchingMach { eng with mode := .command })) =
      some ⟨.wait, .idle, .passive, ⟨.closeChannel, 2, []⟩, rrrrr, []⟩ := by decide

/-- Vectors K17, K20: as talker; a second secondary byte overwrites the first. -/
theorem test_reopen :
    seen (exec (.reopenChannel 2)
        (dispatchingMach { eng with mode := .secondary, role := .talker, cmd := ⟨.talk, 8, []⟩ })) =
      some ⟨.secondary, .init, .talker, ⟨.reopenChannel, 2, []⟩, rrrAr, []⟩ ∧
    seen (exec (.reopenChannel 3)
        (dispatchingMach { eng with mode := .secondary, role := .listener, cmd := ⟨.openChannel, 2, []⟩ })) =
      some ⟨.secondary, .init, .listener, ⟨.reopenChannel, 3, []⟩, rrrAr, []⟩ := by decide

/-! ## TICK -/

/-- Vector M1 (41_mode_dispatcher.md R100's example). -/
theorem test_tick_enters_command :
    seen (exec (.tick 0 10) (mach eng rrrrr rAArr)) =
      some ⟨.command, .init, .passive, ⟨.noCommand, 0, []⟩, rrrAr, []⟩ ∧
    after (exec (.tick 0 10) (mach eng rrrrr rAArr)) (fun s => (s.bus.merged, s.result)) =
      some (rAAAr, .tick (.cycles 10)) := by decide +kernel

/-- Vector TX17: ATN and CLK raised while a byte is being sent; one push-back, then Command in the same tick. -/
theorem test_tick_aborts :
    seen (exec (.tick 0 10)
        (mach { sendingEng with state := .bitWait, time := 30, tr := ⟨0x42, false, false, 3⟩ } rrArr rAArr)) =
      some ⟨.command, .init, .passive, ⟨.noCommand, 0, []⟩, rrrAr, [.pushBackCall 2]⟩ := by decide +kernel

/-! ## A table word placed by `withFetchWord` is what the next step runs -/

/-- The operations, as the first step after reset: what each answers. -/
theorem test_withFetchWord_operations :
    after (step (State.reset.withFetchWord 8 0)) (·.result) = some .noResult ∧
    after (step (State.reset.withFetchWord 8 1)) (·.result) = some (.bool true) ∧
    after (step (State.reset.withFetchWord 8 2)) (·.result) = some .noResult ∧
    after (step (State.reset.withFetchWord 8 3)) (·.result) = some (.lines rrrrr) ∧
    after (step (State.reset.withFetchWord 8 4)) (·.result) = some .noResult ∧
    after (step (State.reset.withFetchWord 8 5)) (fun s => s.bus.slots[0]?.map (·.own.srq)) = some (some .act) ∧
    after (step (State.reset.withFetchWord 8 6)) (·.result) = some (.lines rrrrr) ∧
    after (step (State.reset.withFetchWord 8 7)) (·.result) = some (.tick (.cycles 10)) := by decide +kernel

/-- The command whose byte has just completed. -/
def fetchedCommand (s : State) : Option Instr :=
  match fetch s with
  | .command _ i => some i
  | .nothing => none
  | .operation _ _ => none
  | .invalidByte _ _ => none
  | .stop _ => none

/-- The commands, as the byte engine 0 has just completed: what the command leaves before the tick goes on. -/
theorem test_withFetchWord_commands :
    after (exec .unlisten (State.reset.withFetchWord 8 0x3F)) (fun s => s.engines[0]?.map (·.cmd.code)) = some (some .unlisten) ∧
    fetchedCommand (State.reset.withFetchWord 8 0x3F) = some .unlisten ∧
    fetchedCommand (State.reset.withFetchWord 8 0x5F) = some .untalk ∧
    fetchedCommand (State.reset.withFetchWord 8 0x28) = some (.listen 8) ∧
    fetchedCommand (State.reset.withFetchWord 8 0x48) = some (.talk 8) ∧
    fetchedCommand (State.reset.withFetchWord 8 0x62) = some (.reopenChannel 2) ∧
    fetchedCommand (State.reset.withFetchWord 8 0xE2) = some (.closeChannel 2) ∧
    fetchedCommand (State.reset.withFetchWord 8 0xF2) = some (.openChannel 2) := by decide

/-- CLOSE placed as the fetched word makes its backend call in the very next step, whatever follows in the tick. -/
theorem test_withFetchWord_close_runs :
    after (step (State.reset.withFetchWord 8 0xE2)) (fun s => s.engines[0]?.map (·.calls)) = some (some [.closeCall 2]) := by
  decide +kernel

/-- With nothing scheduled the machine holds its state (60_exceptions.md R210). -/
theorem test_step_holds : after (step State.reset) id = some State.reset := by decide

/-! ## Witnesses: for every statement with hypotheses, a state and operands that meet them together -/

theorem wired (own ctl : SignalSet) : WiredAnd (busOf own ctl) := wiredAnd_recompute _

/-- The hypotheses common to the statements about a tick of engine 0 with record `E`. -/
def Tickable (s : State) (E : Engine) : Prop :=
  s.engines[0]? = some E ∧ s.cfg.clockModeImplemented = true ∧ WiredAnd s.bus

theorem tickable (E : Engine) (own ctl : SignalSet) : Tickable (mach E own ctl) E := ⟨rfl, rfl, wired own ctl⟩

theorem next_of_after {α : Type} {o : Host.Outcome State Fault Refusal} {f : State → α} {a : α}
    (h : after o f = some a) : ∃ t, o = .next t := by
  cases o with
  | next t => exact ⟨t, rfl⟩
  | fault _ => exact nomatch h
  | refused _ => exact nomatch h

/-- A taken slot; a free slot with a taken unit; a free slot with the sentinel, with a free unit; the last port. -/
theorem witness_AttachRegistersOrRefuses :
    (mach eng rrrrr rrrrr).bus.slots[0]? = some ⟨true, 8, rrrrr⟩ ∧
    (mach eng rrrrr rrrrr).bus.slots[3]? = some ⟨false, 0, rrrrr⟩ ∧
    ((8 : UnitNumber) ≠ (mach eng rrrrr rrrrr).cfg.unitSentinel ∧
      ∃ q ∈ (mach eng rrrrr rrrrr).bus.slots, q.attached = true ∧ q.unit = 8) ∧
    (255 : UnitNumber) = (mach eng rrrrr rrrrr).cfg.unitSentinel ∧
    (∀ q ∈ (mach eng rrrrr rrrrr).bus.slots, q.attached = true → q.unit ≠ 9) ∧
    WiredAnd (mach eng rrrrr rrrrr).bus :=
  ⟨rfl, rfl, by decide, rfl, by decide, wired _ _⟩

/-- An attached slot and one that is not, of DETACH and of PIN_WRITE. -/
theorem witness_DetachReleasesTheSlot :
    (mach eng rrrAr rrrrr).bus.slots[0]? = some ⟨true, 8, rrrAr⟩ ∧
    (mach eng rrrAr rrrrr).bus.slots[3]? = some ⟨false, 0, rrrrr⟩ ∧ WiredAnd (mach eng rrrAr rrrrr).bus :=
  ⟨rfl, rfl, wired _ _⟩

theorem witness_PinWriteSetsOneOwnLine :
    (mach eng rrArr rAArr).bus.slots[1]? = some ⟨true, 255, rAArr⟩ ∧
    (mach eng rrArr rAArr).bus.slots[2]? = some ⟨false, 0, rrrrr⟩ ∧ WiredAnd (mach eng rrArr rAArr).bus :=
  ⟨rfl, rfl, wired _ _⟩

theorem witness_PinReadIsTheSameThroughEveryPort : 0 < State.reset.bus.slots.length ∧ 3 < State.reset.bus.slots.length := by
  decide

/-- A line pulled; a line let go that another slot holds, and one that nobody holds. -/
theorem witness_PinWriteIsVisibleToEveryReader :
    (mach eng rrArr rrArr).bus.slots[0]? = some ⟨true, 8, rrArr⟩ ∧ 3 < (mach eng rrArr rrArr).bus.slots.length ∧
    (∃ t, exec (.pinWrite 0 .dat .act) (mach eng rrArr rrArr) = .next t) ∧
    (∃ t, exec (.pinWrite 0 .clk .rel) (mach eng rrArr rrArr) = .next t) ∧
    (∃ t, exec (.pinWrite 0 .clk .rel) (mach eng rrArr rrrrr) = .next t) :=
  ⟨rfl, by decide, ⟨_, rfl⟩, ⟨_, rfl⟩, ⟨_, rfl⟩⟩

theorem witness_PortOutOfRangeIsRefused : State.reset.bus.slots.length ≤ 4 := by decide

/-- A tick of engine 0 is scheduled, which takes it into Command. -/
def scheduledMach : State := { mach eng rrrrr rAArr with schedule := encode (.tick 0 10) }

theorem scheduledMach_steps : ∃ t, step scheduledMach = .next t :=
  next_of_after (f := fun _ => ()) (a := ()) (by decide +kernel)

theorem witness_EveryStepKeepsTheWiredAnd : WiredAnd scheduledMach.bus ∧ ∃ t, step scheduledMach = .next t :=
  ⟨wired _ _, scheduledMach_steps⟩

/-- Two participants with different units; two that share the sentinel. -/
theorem witness_EveryStepKeepsUnitsUnique :
    UnitsUnique scheduledMach.cfg scheduledMach.bus ∧
    UnitsUnique Config.defaults ⟨[⟨true, 255, rrrrr⟩, ⟨true, 255, rrrrr⟩], rrrrr⟩ ∧ ∃ t, step scheduledMach = .next t := by
  refine ⟨?_, ?_, scheduledMach_steps⟩ <;> intro p q sp sq hpq hp hq ap aq
  · rcases p with _ | _ | _ | _ | p <;> rcases q with _ | _ | _ | _ | q <;>
      simp [scheduledMach, mach, busOf, recompute, Slot.atReset] at hpq hp hq <;>
      (try subst hp) <;> (try subst hq) <;> simp_all
  · rcases p with _ | _ | p <;> rcases q with _ | _ | q <;> simp at hpq hp hq <;>
      (try subst hp) <;> (try subst hq) <;> exact .inr ⟨rfl, rfl⟩

/-- An idle engine about to enter Command, and the talker of channel 2 in the middle of its last bit. -/
theorem witness_EveryStepKeepsEnginesLegal :
    EnginesLegal scheduledMach ∧
    EnginesLegal (mach { sendingEng with state := .bitWait, tr := ⟨0x42, false, false, 7⟩ } rrArr rrrrr) ∧
    ∃ t, step scheduledMach = .next t := by
  refine ⟨⟨rfl, ?_⟩, ⟨rfl, ?_⟩, scheduledMach_steps⟩ <;> intro E hE <;>
    simp [scheduledMach, mach] at hE <;> rcases hE with rfl | rfl <;>
    simp [Legal, Sending, TalkingOnChannel, SecondaryCode, eng, sendingEng, Engine.atReset]

theorem witness_NoStepWritesTheConfiguration : ∃ t, step scheduledMach = .next t := scheduledMach_steps

/-- The boundary values of the operand (30_encoding.md R65), and an operation. -/
theorem witness_DecodeAfterEncodeGivesTheInstruction :
    (Instr.listen 0).unitAddressable = true ∧ (Instr.talk 30).unitAddressable = true ∧
    (Instr.openChannel 15).unitAddressable = true ∧ (Instr.pinWrite 200 .rst .act).unitAddressable = true := by decide

theorem witness_CommandByteHasOneMeaning :
    decodeCommand 0x3E = .ok (.listen 30) ∧ decodeCommand 0x3F = .ok .unlisten ∧
    decodeCommand 0xE0 = .ok (.closeChannel 0) := by decide

theorem witness_StepRunsTheScheduledOperation :
    (Instr.tick 0 10).isCommand = false ∧ scheduledMach.dispatching = none ∧
    scheduledMach.schedule = encode (.tick 0 10) ++ [] := by decide

/-- LISTEN 8 has just completed in mode Command. -/
def listening : Engine := { eng with mode := .command, tr := ⟨0x28, false, true, 8⟩ }

theorem witness_StepRunsTheCompletedCommand :
    (dispatchingMach listening).dispatching = some 0 ∧ (dispatchingMach listening).engines[0]? = some listening ∧
    decode [listening.tr.value] = .ok (.listen 8, []) ∧ (Instr.listen 8).isCommand = true ∧
    (∃ t, exec (.listen 8) (dispatchingMach listening) = .next t) ∧ WiredAnd (dispatchingMach listening).bus :=
  ⟨rfl, rfl, by decide, rfl, ⟨_, rfl⟩, wired _ _⟩

theorem witness_StepWithoutAnOperationHoldsTheState :
    (mach eng rrrrr rAArr).dispatching = none ∧ (mach eng rrrrr rAArr).schedule = [] := by decide

/-- `T_FRAME_HOLD` is reached by this very tick. -/
def completing : Engine := { listening with state := .frame, time := 50, tr := ⟨0x28, false, false, 8⟩ }

theorem witness_TickRunsACompletedCommandAsTheInstruction :
    Tickable (mach completing rrrAr rAArr) completing ∧ (mach completing rrrAr rAArr).dispatching = none ∧
    completing.mode = .command ∧ completing.state = .frame ∧
    (mach completing rrrAr rAArr).cfg.tFrameHold = completing.time + 10 ∧
    ∃ t, exec (.tick 0 10) (mach completing rrrAr rAArr) = .next t :=
  ⟨tickable _ _ _, rfl, rfl, rfl, rfl, next_of_after (f := fun _ => ()) (a := ()) (by decide +kernel)⟩

/-- The own unit, and the largest and smallest other one; LISTEN and TALK have the same hypotheses. -/
theorem witness_ListenAssignsTheRole :
    (dispatchingMach listening).dispatching = some 0 ∧ (dispatchingMach listening).engines[0]? = some listening ∧
    (8 : BitVec 5).setWidth 8 = listening.unit ∧ (30 : BitVec 5).setWidth 8 ≠ listening.unit ∧
    (0 : BitVec 5).setWidth 8 ≠ listening.unit := by decide

theorem witness_TalkAssignsTheRole :
    (dispatchingMach { eng with unit := 30 }).dispatching = some 0 ∧
    (dispatchingMach { eng with unit := 30 }).engines[0]? = some { eng with unit := 30 } ∧
    (30 : BitVec 5).setWidth 8 = ({ eng with unit := 30 } : Engine).unit ∧
    (29 : BitVec 5).setWidth 8 ≠ ({ eng with unit := 30 } : Engine).unit := by decide

/-- For UNLISTEN and UNTALK. -/
theorem witness_UnlistenMakesPassive :
    (dispatchingMach { listening with role := .listener }).dispatching = some 0 ∧
    (dispatchingMach { listening with role := .listener }).engines[0]? = some { listening with role := .listener } := by
  decide

theorem witness_UntalkMakesPassive :
    (dispatchingMach sendingEng).dispatching = some 0 ∧ (dispatchingMach sendingEng).engines[0]? = some sendingEng := by
  decide

/-- A Listener and a Talker in mode Secondary: the hypotheses of OPEN and REOPEN, and of CLOSE. -/
def secondaryEng (r : Role) : Engine := { eng with mode := .secondary, role := r, cmd := ⟨.listen, 8, []⟩ }

theorem witness_OpenAndReopenRecordTheChannel :
    (dispatchingMach (secondaryEng .listener)).dispatching = some 0 ∧
    (dispatchingMach (secondaryEng .listener)).engines[0]? = some (secondaryEng .listener) ∧
    (secondaryEng .listener).mode = .secondary := by decide

theorem witness_CloseCallsTheBackendAtOnce :
    (dispatchingMach (secondaryEng .talker)).dispatching = some 0 ∧
    (dispatchingMach (secondaryEng .talker)).engines[0]? = some (secondaryEng .talker) ∧
    (secondaryEng .talker).mode = .secondary := by decide

theorem witness_StraySecondaryIsNotObeyed :
    (dispatchingMach listening).dispatching = some 0 ∧ (dispatchingMach listening).engines[0]? = some listening ∧
    listening.mode = .command := by decide

theorem witness_CommandWithoutACompletedByteIsRefused :
    Instr.unlisten.isCommand = true ∧ State.reset.dispatching = none := by decide

theorem witness_TickRunsItsPassesToTheEnd : Tickable (mach eng rrrrr rAArr) eng := tickable _ _ _

theorem witness_ProgressChangesTheSequencingState :
    ∃ c', advance ⟨Config.defaults, busOf rrrrr rAArr, eng, 0⟩ = (c', true) := ⟨_, rfl⟩

/-- The machine whose bit-clocking mode is not the modelled one. -/
def unclocked : State := { mach eng rrrrr rAArr with cfg := { Config.defaults with clockModeImplemented := false } }

theorem witness_UnimplementedClockModeTicksAreNoOps :
    unclocked.engines[0]? = some eng ∧ unclocked.cfg.clockModeImplemented = false := by decide

/-- A tick that changes mode and lines, for the statements about every tick that answers. -/
theorem witness_tick_answers :
    (mach eng rrrrr rAArr).engines[0]? = some eng ∧ (∃ t, exec (.tick 0 10) (mach eng rrrrr rAArr) = .next t) ∧
    ∃ t, exec (.tick 0 10) unclocked = .next t :=
  ⟨rfl, next_of_after (f := fun _ => ()) (a := ()) (by decide +kernel),
    next_of_after (f := fun _ => ()) (a := ()) (by decide +kernel)⟩

theorem witness_NoTickReturnsHalt : ∃ t, exec (.tick 0 10) (mach eng rrrrr rAArr) = .next t := witness_tick_answers.2.1

theorem witness_TickTouchesOneEngineAndItsSlot :
    (mach eng rrrrr rAArr).engines[0]? = some eng ∧ ∃ t, exec (.tick 0 10) (mach eng rrrrr rAArr) = .next t :=
  ⟨rfl, witness_tick_answers.2.1⟩

theorem witness_TickOnlyAppendsToLogAndTrace :
    unclocked.engines[0]? = some eng ∧ ∃ t, exec (.tick 0 10) unclocked = .next t := ⟨rfl, witness_tick_answers.2.2⟩

theorem witness_TickNeverPullsSrqAtnOrRst :
    ∃ t, exec (.tick 0 10) (mach eng rrrrr rAArr) = .next t ∧
      (mach eng rrrrr rAArr).bus.slots[0]? = some ⟨true, 8, rrrrr⟩ ∧ t.bus.slots[0]? = some ⟨true, 8, rrrAr⟩ := by
  have h : after (exec (.tick 0 10) (mach eng rrrrr rAArr)) (fun s => s.bus.slots[0]?) = some (some ⟨true, 8, rrrAr⟩) := by
    decide +kernel
  obtain ⟨t, ht⟩ := next_of_after h
  rw [ht] at h
  exact ⟨t, ht, rfl, Option.some.inj h⟩

/-- The same machine with SRQ and RST pulled by the controller. -/
theorem witness_TickDoesNotDependOnSrqOrRst :
    (mach eng rrrrr ⟨.act, .act, .act, .rel, .act⟩).cfg = (mach eng rrrrr rAArr).cfg ∧
    (mach eng rrrrr ⟨.act, .act, .act, .rel, .act⟩).engines = (mach eng rrrrr rAArr).engines ∧
    (mach eng rrrrr ⟨.act, .act, .act, .rel, .act⟩).free = (mach eng rrrrr rAArr).free ∧
    WiredAnd (mach eng rrrrr rAArr).bus ∧ WiredAnd (mach eng rrrrr ⟨.act, .act, .act, .rel, .act⟩).bus ∧
    SameButSrqRst (mach eng rrrrr rAArr).bus (mach eng rrrrr ⟨.act, .act, .act, .rel, .act⟩).bus ∧
    ∃ t, exec (.tick 0 10) (mach eng rrrrr rAArr) = .next t := by
  refine ⟨rfl, rfl, rfl, wired _ _, wired _ _, ⟨by unfold SameHandshakeLines; decide, ?_⟩, witness_tick_answers.2.1⟩
  simp [mach, busOf, recompute, SameHandshakeLines, rAArr]

theorem witness_PassesFollowTheModeGraph :
    ∃ c', advance ⟨Config.defaults, busOf rrrrr rAArr, eng, 0⟩ = (c', true) := ⟨_, rfl⟩

theorem witness_TickOfNoEngineIsRefused : State.reset.engines.length ≤ 2 := by decide

/-- Both active; each of the two missing. -/
theorem witness_IdleEntersCommandOnAtnAndClk :
    Tickable (mach eng rrrrr rAArr) eng ∧ Tickable (mach eng rrrrr rArrr) eng ∧ Tickable (mach eng rrrrr rrArr) eng ∧
    eng.mode = .idle ∧
    ((mach eng rrrrr rAArr).bus.merged.atn = .act ∧ (mach eng rrrrr rAArr).bus.merged.clk = .act) ∧
    ¬ ((mach eng rrrrr rArrr).bus.merged.atn = .act ∧ (mach eng rrrrr rArrr).bus.merged.clk = .act) ∧
    ¬ ((mach eng rrrrr rrArr).bus.merged.atn = .act ∧ (mach eng rrrrr rrArr).bus.merged.clk = .act) :=
  ⟨tickable _ _ _, tickable _ _ _, tickable _ _ _, rfl, by decide, by decide, by decide⟩

/-- An engine sitting out the attention cycle. -/
def waiting : Engine := { eng with mode := .wait, cmd := ⟨.listen, 9, []⟩ }

theorem witness_WaitEndsWhenAtnIsReleased :
    Tickable (mach waiting rrrrr rrrrr) waiting ∧ Tickable (mach waiting rrrrr rArrr) waiting ∧ waiting.mode = .wait ∧
    (mach waiting rrrrr rrrrr).bus.merged.atn = .rel ∧ (mach waiting rrrrr rArrr).bus.merged.atn = .act :=
  ⟨tickable _ _ _, tickable _ _ _, rfl, by decide, by decide⟩

theorem witness_AbortPushesBackExactlyOnce :
    Tickable (mach sendingEng rrArr rAArr) sendingEng ∧ sendingEng.mode = .talker ∧
    (mach sendingEng rrArr rAArr).bus.merged.atn = .act := ⟨tickable _ _ _, rfl, by decide⟩

/-- `T_FRAME_TIMEOUT` is reached by this very tick. -/
def unanswered : Engine := { sendingEng with state := .frame, time := 990, tr := ⟨0x42, false, false, 8⟩ }

theorem witness_FrameTimeoutForcesIdle :
    Tickable (mach unanswered rrArr rrrrr) unanswered ∧ unanswered.mode = .talker ∧ unanswered.state = .frame ∧
    (mach unanswered rrArr rrrrr).bus.merged.atn = .rel ∧ (mach unanswered rrArr rrrrr).bus.merged.dat = .rel ∧
    (mach unanswered rrArr rrrrr).cfg.tFrameTimeout = unanswered.time + 10 :=
  ⟨tickable _ _ _, rfl, rfl, by decide, by decide, rfl⟩

/-- `T_BITDONE_TIMEOUT` is reached by this very tick. -/
def stalled : Engine := { eng with mode := .data, role := .listener, state := .bitDone, time := 990, tr := ⟨5, false, false, 3⟩ }

theorem witness_BitDoneTimeoutFallsBackToWait :
    Tickable (mach stalled rrrrr rrrrr) stalled ∧ stalled.mode = .data ∧ stalled.state = .bitDone ∧
    (mach stalled rrrrr rrrrr).bus.merged.clk = .rel ∧
    (mach stalled rrrrr rrrrr).cfg.tBitDoneTimeout = stalled.time + 10 :=
  ⟨tickable _ _ _, rfl, rfl, by decide, rfl⟩

/-- The engine with the byte `b` about to be delivered. -/
def delivering (b : Byte) : Engine := { completing with tr := ⟨b, false, false, 8⟩ }

theorem witness_InvalidByteFallsBackToWait :
    Tickable (mach (delivering 0x1F) rrrAr rAArr) (delivering 0x1F) ∧
    (delivering 0x1F).mode = .command ∧ (delivering 0x1F).state = .frame ∧
    Config.defaults.tFrameHold = (delivering 0x1F).time + 10 ∧
    (delivering 0x1F).tr.value.toNat < 0x20 ∧ (delivering 0).tr.value.toNat < 0x20 ∧
    (0x70 ≤ (delivering 0x70).tr.value.toNat ∧ (delivering 0x70).tr.value.toNat ≤ 0xDF) ∧
    (0x70 ≤ (delivering 0xDF).tr.value.toNat ∧ (delivering 0xDF).tr.value.toNat ≤ 0xDF) :=
  ⟨tickable _ _ _, rfl, rfl, rfl, by decide, by decide, by decide, by decide⟩

/-- The end of TurnHold, with the answer "end of stream" handed in. -/
def turning (r : ReadResult) : Engine := { sendingEng with mode := .turnHold, time := 70, answers := [r] }

theorem witness_EmptyStreamGoesStraightToIdle :
    Tickable (mach (turning ⟨0, false, true⟩) rrArr rrrrr) (turning ⟨0, false, true⟩) ∧
    (turning ⟨0, false, true⟩).mode = .turnHold ∧
    (mach (turning ⟨0, false, true⟩) rrArr rrrrr).bus.merged.atn = .rel ∧
    (mach (turning ⟨0, false, true⟩) rrArr rrrrr).cfg.tTurnHold = (turning ⟨0, false, true⟩).time + 10 ∧
    ((turning ⟨0, false, true⟩).answers.head?.getD (Config.freeAnswer 0)).eos = true :=
  ⟨tickable _ _ _, rfl, by decide, rfl, rfl⟩

/-- A data byte about to be delivered: not the last one, and the last one of an OPEN, a REOPEN and a CLOSE. -/
def collecting (last : Bool) (k : CommandCode) : Engine :=
  { eng with mode := .data, role := .listener, state := .frame, time := 50, cmd := ⟨k, 2, [0x41]⟩, tr := ⟨0x42, last, false, 8⟩ }

theorem witness_DataByteIsCollectedAndExecutedAtItsEnd :
    Tickable (mach (collecting false .openChannel) rrrAr rrArr) (collecting false .openChannel) ∧
    (∀ l k, (collecting l k).mode = .data ∧ (collecting l k).state = .frame ∧ (collecting l k).tr.last = l ∧
      (collecting l k).cmd.code = k ∧ Config.defaults.tFrameHold = (collecting l k).time + 10) ∧
    (mach (collecting true .openChannel) rrrAr rrArr).bus.merged.atn = .rel ∧
    (mach (collecting true .openChannel) rrrAr rrArr).bus.merged.clk = .act ∧
    SecondaryCode .openChannel ∧ SecondaryCode .reopenChannel ∧ SecondaryCode .closeChannel :=
  ⟨tickable _ _ _, fun _ _ => ⟨rfl, rfl, rfl, rfl, rfl⟩, by decide, by decide, .inl rfl, .inr (.inr rfl), .inr (.inl rfl)⟩

/-- What an engine's rules act on, with record `E`, its own lines and the controller's. -/
def ctx (E : Engine) (own ctl : SignalSet) : Ctx := ⟨Config.defaults, busOf own ctl, E, 0⟩

theorem witness_AttentionEndsCommandAndData :
    ((ctx { listening with state := .init } rrrAr rrrrr).eng.mode = .command ∧
      (ctx { listening with state := .init } rrrAr rrrrr).eng.state = .init ∧
      (ctx { listening with state := .init } rrrAr rrrrr).bus.merged.atn = .rel) ∧
    ((ctx (collecting false .openChannel) rrrAr rAArr).eng.mode = .data ∧
      (ctx (collecting false .openChannel) rrrAr rAArr).bus.merged.atn = .act ∧
      (ctx (collecting false .openChannel) rrrAr rAArr).bus.merged.clk = .act) := by decide

/-- Between bytes of mode Secondary, with and without a secondary command. -/
def parting (r : Role) (k : CommandCode) : Ctx :=
  ctx { eng with mode := .secondary, state := .init, role := r, cmd := ⟨k, 2, []⟩ } rrrAr rrrrr

theorem witness_SecondaryPartsByRole :
    ((parting .listener .openChannel).eng.mode = .secondary ∧ (parting .listener .openChannel).eng.state = .init ∧
      (parting .listener .openChannel).bus.merged.atn = .rel) ∧
    (SecondaryCode (parting .listener .openChannel).eng.cmd.code ∧ (parting .listener .openChannel).eng.role = .listener) ∧
    (SecondaryCode (parting .talker .closeChannel).eng.cmd.code ∧ (parting .talker .closeChannel).eng.role = .talker) ∧
    ¬ SecondaryCode (parting .listener .listen).eng.cmd.code := by
  refine ⟨by decide, ⟨.inl rfl, rfl⟩, ⟨.inr (.inl rfl), rfl⟩, ?_⟩
  simp [SecondaryCode, parting, ctx]

theorem witness_TurnaroundTakesTheClock :
    (ctx { sendingEng with mode := .turnaround } rrrAr rrrrr).eng.mode = .turnaround ∧
    (ctx { sendingEng with mode := .turnaround } rrrAr rArrr).bus.merged.atn = .act ∧
    ((ctx { sendingEng with mode := .turnaround } rrrAr rrrrr).bus.merged.atn = .rel ∧
      (ctx { sendingEng with mode := .turnaround } rrrAr rrrrr).bus.merged.clk = .rel) ∧
    ((ctx { sendingEng with mode := .turnaround } rrrAr rrArr).bus.merged.atn = .rel ∧
      (ctx { sendingEng with mode := .turnaround } rrrAr rrArr).bus.merged.clk = .act) := by decide

/-- One time unit before `T_TURN_HOLD`, and at it with a byte and with the end of the stream. -/
theorem witness_TurnHoldFetchesTheFirstByte :
    (ctx (turning ⟨0x41, true, false⟩) rrArr rrrrr).eng.mode = .turnHold ∧
    (ctx (turning ⟨0x41, true, false⟩) rrArr rAArr).bus.merged.atn = .act ∧
    (ctx (turning ⟨0x41, true, false⟩) rrArr rrrrr).bus.merged.atn = .rel ∧
    ({ turning ⟨0x41, true, false⟩ with time := 79 } : Engine).time < Config.defaults.tTurnHold ∧
    Config.defaults.tTurnHold ≤ ({ turning ⟨0x41, true, false⟩ with time := 80 } : Engine).time ∧
    ((turning ⟨0x41, true, false⟩).answers.head?.getD (Config.freeAnswer 0)).eos = false ∧
    ((turning ⟨0, false, true⟩).answers.head?.getD (Config.freeAnswer 0)).eos = true :=
  ⟨rfl, by decide, by decide, by decide, by decide, rfl, rfl⟩

/-- An engine in handshake state `h`, `t` time units after entering it, with the byte 0x42 and `n` bits moved. -/
def phase (h : Handshake) (t n : Nat) (last : Bool) : Ctx :=
  ctx { eng with mode := .data, state := h, time := t, tr := ⟨0x42, last, false, n⟩ } rrrrr rrrrr

theorem witness_ReceiverHandshakeBeforeTheBits :
    (phase .init 0 0 false).eng.state = .init ∧
    ((phase .ready 199 0 false).eng.state = .ready ∧ (phase .ready 199 0 false).eng.time < Config.defaults.tEoi ∧
      Config.defaults.tEoi ≤ (phase .ready 200 0 false).eng.time) ∧
    ((phase .eoi 59 0 true).eng.state = .eoi ∧ (phase .eoi 59 0 true).eng.time < Config.defaults.tEoiAck ∧
      Config.defaults.tEoiAck ≤ (phase .eoi 60 0 true).eng.time) := by decide

theorem witness_ReceiverSamplesEightBitsAndDelivers :
    ((phase .bitWait 0 7 false).eng.state = .bitWait ∧ (phase .bitWait 0 7 false).eng.tr.cursor < 8) ∧
    ((phase .bitDone 999 8 false).eng.state = .bitDone ∧ (phase .bitDone 999 8 false).eng.tr.cursor = 8 ∧
      (phase .bitDone 999 7 false).eng.tr.cursor ≠ 8 ∧
      (phase .bitDone 999 7 false).eng.time < Config.defaults.tBitDoneTimeout) ∧
    ((phase .frame 59 8 false).eng.state = .frame ∧ (phase .frame 59 8 false).eng.time < Config.defaults.tFrameHold ∧
      Config.defaults.tFrameHold ≤ (phase .frame 60 8 false).eng.time) := by decide

theorem witness_PutBitShowsTheBitOnTheBus :
    (ctx sendingEng rrArr rrrrr).bus.slots[(ctx sendingEng rrArr rrrrr).eng.port]? = some ⟨true, 8, rrArr⟩ ∧
    ∀ (q : Nat) (sq : Slot), q ≠ (ctx sendingEng rrArr rrrrr).eng.port →
      (ctx sendingEng rrArr rrrrr).bus.slots[q]? = some sq → sq.attached = true → sq.own.dat = .rel := by
  refine ⟨rfl, fun q sq _ hq _ => ?_⟩
  rcases q with _ | _ | _ | _ | q <;> simp [ctx, busOf, recompute, Slot.atReset] at hq <;> subst hq <;> rfl

theorem witness_SenderHandshakeAndTimes :
    (phase .init 0 0 false).eng.state = .init ∧
    ((phase .ready 0 0 true).eng.state = .ready ∧ (phase .ready 0 0 true).eng.tr.last = true ∧
      (phase .ready 0 0 false).eng.tr.last = false) ∧
    ((phase .eoi 249 0 true).eng.state = .eoi ∧ (phase .eoi 249 0 true).eng.time < Config.defaults.tEoiHold ∧
      Config.defaults.tEoiHold ≤ (phase .eoi 250 0 true).eng.time) ∧
    ((phase .bitWait 69 0 false).eng.state = .bitWait ∧ (phase .bitWait 69 0 false).eng.time < Config.defaults.tSetup ∧
      Config.defaults.tSetup ≤ (phase .bitWait 70 0 false).eng.time) ∧
    ((phase .frameWait 99 0 false).eng.state = .frameWait ∧
      (phase .frameWait 99 0 false).eng.time < Config.defaults.tBb ∧
      Config.defaults.tBb ≤ (phase .frameWait 100 0 false).eng.time) := by decide

theorem witness_SenderMovesToTheNextBitOrEndsTheByte :
    (phase .bitDone 59 0 false).eng.state = .bitDone ∧ (phase .bitDone 59 0 false).eng.time < Config.defaults.tValid ∧
    Config.defaults.tValid ≤ (phase .bitDone 60 6 false).eng.time ∧ (phase .bitDone 60 6 false).eng.tr.cursor + 1 < 8 ∧
    8 ≤ (phase .bitDone 60 7 false).eng.tr.cursor + 1 := by decide

/-- The last byte; a byte that is not, with an answer that is a byte and one that is the end of the stream. -/
theorem witness_FrameAcknowledgeFetchesTheNextByte :
    (ctx unanswered rrArr rrrAr).eng.state = .frame ∧
    (⟨0x41, true, false⟩ : ReadResult) =
      (ctx { unanswered with answers := [⟨0x41, true, false⟩] } rrArr rrrAr).eng.answers.head?.getD (Config.freeAnswer 0) ∧
    (⟨0, false, true⟩ : ReadResult) =
      (ctx { unanswered with answers := [⟨0, false, true⟩] } rrArr rrrAr).eng.answers.head?.getD (Config.freeAnswer 0) ∧
    (ctx { unanswered with tr := ⟨0x42, true, false, 8⟩ } rrArr rrrAr).eng.tr.last = true ∧
    (ctx unanswered rrArr rrrAr).eng.tr.last = false := ⟨rfl, rfl, rfl, rfl, rfl⟩

end Sys2Proof.Tests
end

section
/-! PROOFS. What of a machine is configuration, and that no operation, no command and no tick writes it. -/

namespace Sys2Proof.Machine

/-- `t` is configured as `s` is: every engine's unit and port (10_state.md R21), the parameters (00_scope.md R6) and the
number of slots (10_state.md R24). -/
structure SameConfiguration (s t : State) : Prop where
  wiring : t.engines.map (fun E => (E.unit, E.port)) = s.engines.map (fun E => (E.unit, E.port))
  cfg : t.cfg = s.cfg
  slots : t.bus.slots.length = s.bus.slots.length

theorem SameConfiguration.refl (s : State) : SameConfiguration s s := ⟨rfl, rfl, rfl⟩

/-! ## The multiplexer's operations keep the number of slots -/

theorem pinWrite_slots_length (p : Nat) (l : Line) (lv : Level) (b : Bus) :
    (pinWrite p l lv b).slots.length = b.slots.length := (linesAfter_pinWrite p l lv b).length

theorem attachSlot_slots_length (p : Nat) (u : UnitNumber) (b : Bus) :
    (attachSlot p u b).slots.length = b.slots.length := by
  rw [attachSlot_slots, List.length_set]

theorem detachSlot_slots_length (p : Nat) (b : Bus) : (detachSlot p b).slots.length = b.slots.length := by
  rw [detachSlot_slots, List.length_modify]

@[simp] theorem resetSlots_length (n : Nat) (slots : List Slot) : (resetSlots n slots).length = slots.length := by
  induction slots generalizing n with
  | nil => rfl
  | cons sl rest ih => simp [resetSlots, ih]

theorem Untouched.slots_length {c c' : Ctx} (h : Untouched c c') : c'.bus.slots.length = c.bus.slots.length := by
  obtain ⟨f, hf, -⟩ := h.lines
  rw [hf, List.length_modify]

/-! ## One engine's rules -/

/-- Putting back in engine `e`'s place a record of the same unit and port changes no unit and no port. -/
theorem map_wiring_set {engines : List Engine} {e : Nat} {E E' : Engine} (he : engines[e]? = some E)
    (hu : E'.unit = E.unit) (hp : E'.port = E.port) :
    (engines.set e E').map (fun E => (E.unit, E.port)) = engines.map (fun E => (E.unit, E.port)) := by
  obtain ⟨hlt, rfl⟩ := List.getElem?_eq_some_iff.1 he
  have hsame : (E'.unit, E'.port) = (engines.map fun E => (E.unit, E.port))[e]'(by simpa using hlt) := by
    simp [hu, hp]
  rw [List.map_set, hsame, List.set_getElem_self]

/-- Whatever engine `e`'s rules leave behind, storing it keeps the configuration. -/
theorem Untouched.storeCtx_sameConfiguration {e : Nat} {s : State} {E : Engine} {c : Ctx} (he : s.engines[e]? = some E)
    (h : Untouched ⟨s.cfg, s.bus, E, s.free⟩ c) : SameConfiguration s (storeCtx e c s) where
  wiring := map_wiring_set he h.unit h.port
  cfg := rfl
  slots := h.slots_length

/-- The model's own fields (logs 6 and 7) are no part of the configuration. -/
theorem SameConfiguration.with_dispatching_result {s t : State} (h : SameConfiguration s t)
    (d : Option Nat) (r : OpResult) : SameConfiguration s { t with dispatching := d, result := r } :=
  ⟨h.wiring, h.cfg, h.slots⟩

/-! ## The operations -/

theorem execReset_sameConfiguration {s t : State} (h : execReset s = .next t) : SameConfiguration s t := by
  cases h
  exact ⟨by simp [resetEngine, Engine.atReset, Function.comp_def], rfl, resetSlots_length _ _⟩

theorem execAttach_sameConfiguration {p : Nat} {u : UnitNumber} {s t : State} (h : execAttach p u s = .next t) :
    SameConfiguration s t := by
  obtain ⟨sl, -, rfl⟩ := (onPort_eq_next _ _ _ _).1 h
  split
  · exact ⟨rfl, rfl, rfl⟩
  · split
    · exact ⟨rfl, rfl, attachSlot_slots_length p u s.bus⟩
    · exact ⟨rfl, rfl, rfl⟩

theorem execDetach_sameConfiguration {p : Nat} {s t : State} (h : execDetach p s = .next t) :
    SameConfiguration s t := by
  obtain ⟨sl, -, rfl⟩ := (onPort_eq_next _ _ _ _).1 h
  exact ⟨rfl, rfl, detachSlot_slots_length p s.bus⟩

theorem execPinWrite_sameConfiguration {p : Nat} {l : Line} {lv : Level} {s t : State}
    (h : execPinWrite p l lv s = .next t) : SameConfiguration s t := by
  obtain ⟨sl, -, rfl⟩ := (onPort_eq_next _ _ _ _).1 h
  exact ⟨rfl, rfl, pinWrite_slots_length p l lv s.bus⟩

theorem execPinRead_sameConfiguration {p : Nat} {s t : State} (h : execPinRead p s = .next t) :
    SameConfiguration s t := by
  obtain ⟨sl, -, rfl⟩ := (onPort_eq_next _ _ _ _).1 h
  exact ⟨rfl, rfl, rfl⟩

theorem execTick_sameConfiguration {e k : Nat} {s t : State} (h : execTick e k s = .next t) :
    SameConfiguration s t := by
  obtain ⟨E, he, ⟨-, rfl⟩ | ⟨-, c, hc, rfl⟩⟩ := execTick_next h
  · exact ((untouched_logEvent _ _).storeCtx_sameConfiguration he).with_dispatching_result _ _
  · have hk : Untouched ⟨s.cfg, s.bus, E, s.free⟩ c := (untouched_addTime k _).trans (untouched_runPasses hc)
    exact (hk.storeCtx_sameConfiguration he).with_dispatching_result _ _

/-- An operation keeps the configuration: each of the eight for its own reason. -/
theorem exec_operation_sameConfiguration {i : Instr} {s t : State} (hi : i.isCommand = false)
    (h : exec i s = .next t) : SameConfiguration s t := by
  cases i with
  | unlisten | untalk | listen | talk | reopenChannel | closeChannel | openChannel => cases hi
  | reset => exact execReset_sameConfiguration h
  | attach => exact execAttach_sameConfiguration h
  | detach => exact execDetach_sameConfiguration h
  | merged | recompute =>
    cases h
    exact ⟨rfl, rfl, rfl⟩
  | pinWrite => exact execPinWrite_sameConfiguration h
  | pinRead => exact execPinRead_sameConfiguration h
  | tick => exact execTick_sameConfiguration h

/-! ## The step -/

theorem step_sameConfiguration {s t : State} (h : step s = .next t) : SameConfiguration s t := by
  cases step_did h with
  | held _ _ hts => exact hts ▸ .refl s
  | operation i rest hi _ _ hx =>
    obtain ⟨hwiring, hcfg, hslots⟩ := exec_operation_sameConfiguration hi hx
    exact ⟨hwiring, hcfg, hslots⟩
  | dispatched e E c _ he hc ht =>
    subst ht
    have hk : Untouched ⟨s.cfg, s.bus, E, s.free⟩ c :=
      (untouched_dispatchCommandByte _ _).trans (untouched_runPasses hc)
    exact (hk.storeCtx_sameConfiguration he).with_dispatching_result _ _

end Sys2Proof.Machine

/-- Settles O14: every step keeps `SameConfiguration`, by what `StepDid` says a step can have done. -/
theorem noStepWritesTheConfiguration : Obligations.NoStepWritesTheConfiguration := by
  unfold Obligations.NoStepWritesTheConfiguration
  intro s t h
  obtain ⟨hwiring, hcfg, hslots⟩ := Sys2Proof.Machine.step_sameConfiguration h
  exact ⟨hwiring, hcfg, hslots⟩
end

section
/-! PROOFS. What a step can do to the multiplexer, said once, and the invariants of the multiplexer that follow from it. -/

namespace Sys2Proof.Machine

/-- Everything a step can do to the multiplexer. -/
inductive BusChange (cfg : Config) (b b' : Bus) : Prop where
  /-- The own lines of one slot changed, or nobody's did, and the wired-AND was kept. -/
  | lines (p : Nat) (f : SignalSet → SignalSet) :
      b'.slots = b.slots.modify p (fun sl => { sl with own := f sl.own }) → (WiredAnd b → WiredAnd b') → BusChange cfg b b'
  /-- A participant was registered under a unit number that was free (40_bus_ops.md R80). -/
  | attached (p : Nat) (u : UnitNumber) : unitFree cfg b.slots u = true → b' = attachSlot p u b → BusChange cfg b b'
  /-- A participant was removed (R81). -/
  | detached (p : Nat) : b' = detachSlot p b → BusChange cfg b b'
  /-- Every slot was emptied (70_reset_and_hazards.md R220). -/
  | cleared (n : Nat) : b' = ⟨resetSlots n b.slots, .allRel⟩ → BusChange cfg b b'

theorem BusChange.refl (cfg : Config) (b : Bus) : BusChange cfg b b :=
  .lines 0 (fun v => v) (modify_own_id b.slots 0).symm fun h => h

theorem BusChange.of_recompute (cfg : Config) (b : Bus) : BusChange cfg b (recompute b) :=
  .lines 0 (fun v => v) (modify_own_id b.slots 0).symm fun _ => wiredAnd_recompute b

theorem BusChange.of_pinWrite (cfg : Config) (p : Nat) (l : Line) (lv : Level) (b : Bus) :
    BusChange cfg b (pinWrite p l lv b) :=
  have h := linesAfter_pinWrite p l lv b
  .lines p (fun v => v.set l lv) h.1 fun _ => h.2

theorem Untouched.busChange {c c' : Ctx} (cfg : Config) (h : Untouched c c') : BusChange cfg c.bus c'.bus := by
  obtain ⟨f, hf, -⟩ := h.lines
  exact .lines c.eng.port f hf h.wired

/-! ## The step -/

theorem execAttach_busChange {p : Nat} {u : UnitNumber} {s t : State} (h : execAttach p u s = .next t) :
    BusChange s.cfg s.bus t.bus := by
  obtain ⟨sl, -, rfl⟩ := (onPort_eq_next _ _ _ _).1 h
  split
  · exact .refl _ _
  · split
    · rename_i hfree
      exact .attached p u hfree rfl
    · exact .refl _ _

theorem execTick_busChange {e k : Nat} {s t : State} (h : execTick e k s = .next t) :
    BusChange s.cfg s.bus t.bus := by
  obtain ⟨E, -, ⟨-, rfl⟩ | ⟨-, c, hc, rfl⟩⟩ := execTick_next h
  · exact .refl _ _
  · exact (untouched_runPasses hc).busChange s.cfg

/-- An operation changes the multiplexer in one of these ways, and each of the eight in its own. -/
theorem exec_operation_busChange {i : Instr} {s t : State} (hi : i.isCommand = false) (h : exec i s = .next t) :
    BusChange s.cfg s.bus t.bus := by
  cases i with
  | unlisten | untalk | listen | talk | reopenChannel | closeChannel | openChannel => cases hi
  | reset =>
    cases h
    exact .cleared s.free rfl
  | attach => exact execAttach_busChange h
  | detach p =>
    obtain ⟨sl, -, rfl⟩ := (onPort_eq_next _ _ _ _).1 h
    exact .detached p rfl
  | merged =>
    cases h
    exact .refl _ _
  | recompute =>
    cases h
    exact .of_recompute _ _
  | pinWrite =>
    obtain ⟨sl, -, rfl⟩ := (onPort_eq_next _ _ _ _).1 h
    exact .of_pinWrite _ _ _ _ _
  | pinRead =>
    obtain ⟨sl, -, rfl⟩ := (onPort_eq_next _ _ _ _).1 h
    exact .refl _ _
  | tick => exact execTick_busChange h

theorem step_busChange {s t : State} (h : step s = .next t) : BusChange s.cfg s.bus t.bus := by
  cases step_did h with
  | held _ _ hts => exact hts ▸ .refl _ _
  | operation i rest hi _ _ hx =>
    have hchange := exec_operation_busChange hi hx
    exact hchange
  | dispatched e E c _ _ hc ht =>
    subst ht
    exact ((untouched_dispatchCommandByte _ _).trans (untouched_runPasses hc)).busChange s.cfg

/-! ## The wired-AND -/

theorem not_attached_of_mem_resetSlots {n : Nat} {slots : List Slot} {sl : Slot} (h : sl ∈ resetSlots n slots) :
    sl.attached = false := by
  induction slots generalizing n with
  | nil => cases h
  | cons _ rest ih =>
    rcases List.mem_cons.1 h with rfl | hrest
    · rfl
    · exact ih hrest

/-- With nobody attached nobody holds a line. -/
theorem wiredAnd_of_none_attached {slots : List Slot} (h : ∀ sl ∈ slots, sl.attached = false) :
    WiredAnd ⟨slots, .allRel⟩ := by
  intro l
  refine iff_of_true (SignalSet.get_allRel l) fun sl hsl hatt => ?_
  simp [h sl hsl] at hatt

theorem BusChange.keeps_wiredAnd {cfg : Config} {b b' : Bus} (h : BusChange cfg b b') (hb : WiredAnd b) : WiredAnd b' := by
  cases h with
  | lines _ _ _ hw => exact hw hb
  | attached p u _ hb' => exact hb' ▸ wiredAnd_attachSlot p u b
  | detached p hb' => exact hb' ▸ wiredAnd_detachSlot p b
  | cleared n hb' => exact hb' ▸ wiredAnd_of_none_attached fun _ => not_attached_of_mem_resetSlots

/-! ## Unit numbers -/

/-- Whoever is registered in `slots'` is registered in the same slot of `slots`, under the same unit number. -/
def NoNewRegistration (slots slots' : List Slot) : Prop :=
  ∀ (p : Nat) (sl' : Slot), slots'[p]? = some sl' → sl'.attached = true →
    ∃ sl, slots[p]? = some sl ∧ sl.attached = true ∧ sl.unit = sl'.unit

theorem UnitsUnique.of_noNewRegistration {cfg : Config} {b b' : Bus} (hb : UnitsUnique cfg b)
    (h : NoNewRegistration b.slots b'.slots) : UnitsUnique cfg b' := by
  intro p q sp' sq' hpq hp hq hap haq
  obtain ⟨sp, hsp, hspa, hspu⟩ := h p sp' hp hap
  obtain ⟨sq, hsq, hsqa, hsqu⟩ := h q sq' hq haq
  rw [← hspu, ← hsqu]
  exact hb p q sp sq hpq hsp hsq hspa hsqa

/-- Changing one slot registers nobody if what it makes of a registered slot was registered under that unit number. -/
theorem noNewRegistration_modify (slots : List Slot) (p : Nat) (g : Slot → Slot)
    (hg : ∀ sl, (g sl).attached = true → sl.attached = true ∧ sl.unit = (g sl).unit) :
    NoNewRegistration slots (slots.modify p g) := by
  intro q sl' hq hatt
  rw [List.getElem?_modify, Option.map_eq_map, Option.map_eq_some_iff] at hq
  obtain ⟨sl, hsl, rfl⟩ := hq
  refine ⟨sl, hsl, ?_⟩
  by_cases hpq : p = q
  · simp only [if_pos hpq] at hatt ⊢
    exact hg sl hatt
  · simp only [if_neg hpq] at hatt ⊢
    exact ⟨hatt, trivial⟩

theorem noNewRegistration_resetSlots (n : Nat) (slots : List Slot) : NoNewRegistration slots (resetSlots n slots) := by
  intro p sl' hp hatt
  simp [not_attached_of_mem_resetSlots (List.mem_of_getElem? hp)] at hatt

/-- A unit number that is free goes with that of every attached slot: they differ, or both are the sentinel. -/
theorem compatible_of_unitFree {cfg : Config} {slots : List Slot} {u : UnitNumber} {p : Nat} {sl : Slot}
    (hu : unitFree cfg slots u = true) (hp : slots[p]? = some sl) (hatt : sl.attached = true) :
    sl.unit ≠ u ∨ (sl.unit = cfg.unitSentinel ∧ u = cfg.unitSentinel) := by
  rcases (unitFree_iff cfg slots u).1 hu with hs | hfree
  · by_cases hsl : sl.unit = u
    · exact .inr ⟨hsl.trans hs, hs⟩
    · exact .inl hsl
  · exact .inl (hfree sl (List.mem_of_getElem? hp) hatt)

theorem attachSlot_getElem? {a p : Nat} {u : UnitNumber} {b : Bus} {sl : Slot}
    (h : (attachSlot a u b).slots[p]? = some sl) :
    (p = a ∧ sl.unit = u) ∨ (p ≠ a ∧ b.slots[p]? = some sl) := by
  rw [attachSlot_slots, List.getElem?_set] at h
  by_cases hp : a = p
  · rw [if_pos hp] at h
    split at h
    · cases h
      exact .inl ⟨hp.symm, rfl⟩
    · cases h
  · rw [if_neg hp] at h
    exact .inr ⟨Ne.symm hp, h⟩

theorem UnitsUnique.attachSlot {cfg : Config} {a : Nat} {u : UnitNumber} {b : Bus} (hb : UnitsUnique cfg b)
    (hu : unitFree cfg b.slots u = true) : UnitsUnique cfg (attachSlot a u b) := by
  intro p q sp sq hpq hp hq hap haq
  rcases attachSlot_getElem? hp with ⟨rfl, hup⟩ | ⟨-, hpb⟩ <;>
    rcases attachSlot_getElem? hq with ⟨rfl, huq⟩ | ⟨-, hqb⟩
  · exact absurd rfl hpq
  · rw [hup]
    exact (compatible_of_unitFree hu hqb haq).imp Ne.symm And.symm
  · rw [huq]
    exact compatible_of_unitFree hu hpb hap
  · exact hb p q sp sq hpq hpb hqb hap haq

theorem BusChange.keeps_unitsUnique {cfg : Config} {b b' : Bus} (h : BusChange cfg b b') (hb : UnitsUnique cfg b) :
    UnitsUnique cfg b' := by
  cases h with
  | lines p f hs _ =>
    refine hb.of_noNewRegistration ?_
    rw [hs]
    exact noNewRegistration_modify _ _ _ fun _ hatt => ⟨hatt, rfl⟩
  | attached p u hu hb' => exact hb' ▸ hb.attachSlot hu
  | detached p hb' =>
    refine hb.of_noNewRegistration ?_
    rw [hb', detachSlot_slots]
    exact noNewRegistration_modify _ _ _ fun _ hatt => by cases hatt
  | cleared n hb' =>
    refine hb.of_noNewRegistration ?_
    rw [hb']
    exact noNewRegistration_resetSlots n b.slots

end Sys2Proof.Machine

/-- Settles O10: whatever a step does to the multiplexer (`BusChange`) ends in a recompute, or with nobody attached. -/
theorem everyStepKeepsTheWiredAnd : Obligations.EveryStepKeepsTheWiredAnd := by
  unfold Obligations.EveryStepKeepsTheWiredAnd
  intro s t hs h
  exact (Sys2Proof.Machine.step_busChange h).keeps_wiredAnd hs

/-- Settles O11: the one change that registers somebody is an ATTACH under a free unit number. -/
theorem everyStepKeepsUnitsUnique : Obligations.EveryStepKeepsUnitsUnique := by
  unfold Obligations.EveryStepKeepsUnitsUnique
  intro s t hs h
  rw [(Sys2Proof.Machine.step_sameConfiguration h).cfg]
  exact (Sys2Proof.Machine.step_busChange h).keeps_unitsUnique hs
end

section
/-! PROOFS. Every rule of the engine keeps `Legal`: first what the mode asks of role and command while a byte is in
transfer, then one lemma for each machine, then the pass, the tick and the step. -/

namespace Sys2Proof.Machine

/-- The part of an engine's record that outlasts the bytes of a transaction. -/
structure SameTransaction (E E' : Engine) : Prop where
  mode : E'.mode = E.mode
  role : E'.role = E.role
  cmd : E'.cmd = E.cmd

/-- What a receiving mode asks of role and command, wherever the byte in transfer stands; no other mode receives. -/
def ReceptionAllowed (E : Engine) : Prop :=
  match E.mode with
  | .command => E.cmd = .empty
  | .secondary =>
    E.role ≠ .passive ∧ E.cmd.param = [] ∧
    (E.cmd.code = .listen ∨ E.cmd.code = .talk ∨ (SecondaryCode E.cmd.code ∧ E.cmd.arg.toNat < 16))
  | .data => E.role = .listener ∧ SecondaryCode E.cmd.code ∧ E.cmd.arg.toNat < 16
  | .idle | .turnaround | .turnHold | .talker | .wait => False

/-- What mode Talker asks of role and command, wherever the byte in transfer stands. -/
def SendingAllowed (E : Engine) : Prop := E.mode = .talker ∧ TalkingOnChannel E ∧ E.cmd.param = []

theorem ReceptionAllowed.congr {E E' : Engine} (h : ReceptionAllowed E) (hs : SameTransaction E E') :
    ReceptionAllowed E' := by
  unfold ReceptionAllowed at h ⊢
  rwa [hs.mode, hs.role, hs.cmd]

theorem SendingAllowed.congr {E E' : Engine} (h : SendingAllowed E) (hs : SameTransaction E E') : SendingAllowed E' := by
  unfold SendingAllowed TalkingOnChannel at h ⊢
  rwa [hs.mode, hs.role, hs.cmd]

/-! ## Legal records, mode by mode -/

theorem legal_idleEngine (E : Engine) : Legal (idleEngine E) := ⟨rfl, rfl, rfl, rfl⟩

theorem legal_waitingEngine (E : Engine) : Legal (waitingEngine E) := rfl

theorem legal_of_receiving {E : Engine} (hr : Receiving E) (ha : ReceptionAllowed E) : Legal E := by
  unfold ReceptionAllowed at ha
  unfold Legal
  cases hm : E.mode <;> simp only [hm] at ha ⊢
  case command => exact ⟨hr, ha⟩
  case secondary => exact ⟨hr, ha⟩
  case data => exact ⟨hr, ha⟩

theorem Legal.receiving {E : Engine} (h : Legal E) (hm : E.mode = .command ∨ E.mode = .secondary ∨ E.mode = .data) :
    Receiving E ∧ ReceptionAllowed E := by
  unfold Legal at h
  unfold ReceptionAllowed
  rcases hm with hm | hm | hm <;> rw [hm] at h ⊢ <;> exact h

theorem legal_startingReception {E : Engine} (ha : ReceptionAllowed E) : Legal (startingReception E) :=
  legal_of_receiving ⟨rfl, rfl, rfl⟩ (ha.congr ⟨rfl, rfl, rfl⟩)

theorem legal_of_sending {E : Engine} (hs : Sending E) (ha : SendingAllowed E) : Legal E := by
  obtain ⟨hm, htalk, hparam⟩ := ha
  unfold Legal
  rw [hm]
  exact ⟨hs, htalk, hparam⟩

theorem Legal.sending {E : Engine} (h : Legal E) (hm : E.mode = .talker) : Sending E ∧ SendingAllowed E := by
  unfold Legal at h
  rw [hm] at h
  obtain ⟨hs, htalk, hparam⟩ := h
  exact ⟨hs, hm, htalk, hparam⟩

theorem Legal.turning {E : Engine} (h : Legal E) (hm : E.mode = .turnaround ∨ E.mode = .turnHold) :
    TalkingOnChannel E ∧ E.cmd.param = [] := by
  unfold Legal at h
  rcases hm with hm | hm <;> rw [hm] at h <;> exact h.2

/-- Time, log, call trace and the answers to come are no part of legality. -/
theorem Legal.congr {E E' : Engine} (h : Legal E) (hs : SameTransaction E E') (hst : E'.state = E.state)
    (htr : E'.tr = E.tr) : Legal E' := by
  unfold Legal Receiving Sending TalkingOnChannel at h ⊢
  rwa [hs.mode, hs.role, hs.cmd, hst, htr]

/-! ## The receive machine -/

/-- A receive step goes on with the byte where the cursor has it, or gives up and waits (43_byte_rx.md R156). -/
theorem Receiving.rxStep_progress {cl d : Level} {c c' : Ctx} (h : Receiving c.eng)
    (hr : rxStep cl d c = (c', .progress)) :
    (Receiving c'.eng ∧ SameTransaction c.eng c'.eng) ∨ ∃ E, c'.eng = waitingEngine E := by
  obtain ⟨hready, hcur⟩ := h
  rcases Machine.rxStep_progress hr with ⟨hs, -, rfl⟩ | ⟨hs, -, rfl⟩ | ⟨hs, -, -, rfl⟩ | ⟨hs, -, -, rfl⟩ |
    ⟨hs, -, rfl⟩ | ⟨hs, -, h8, rfl⟩ | ⟨hs, -, h8, rfl⟩ | ⟨hs, -, -, rfl⟩ <;> simp only [hs] at hcur
  · exact .inl ⟨⟨hready, hcur⟩, rfl, rfl, rfl⟩
  · have hlt : c.eng.tr.cursor < 8 := by omega
    exact .inl ⟨⟨hready, hlt⟩, rfl, rfl, rfl⟩
  · obtain ⟨hzero, -⟩ := hcur
    exact .inl ⟨⟨hready, hzero, rfl⟩, rfl, rfl, rfl⟩
  · have hlt : c.eng.tr.cursor < 8 := by omega
    exact .inl ⟨⟨hready, hlt⟩, rfl, rfl, rfl⟩
  · have hbits : 1 ≤ c.eng.tr.cursor + 1 ∧ c.eng.tr.cursor + 1 ≤ 8 := by omega
    exact .inl ⟨⟨hready, hbits⟩, rfl, rfl, rfl⟩
  · exact .inl ⟨⟨hready, h8⟩, rfl, rfl, rfl⟩
  · have hlt : c.eng.tr.cursor < 8 := by omega
    exact .inl ⟨⟨hready, hlt⟩, rfl, rfl, rfl⟩
  · exact .inr ⟨_, rfl⟩

/-! ## The commands (42_commands.md) -/

theorem isSecondary_iff (k : CommandCode) : k.isSecondary = true ↔ SecondaryCode k := by
  cases k <;> simp [CommandCode.isSecondary, SecondaryCode]

theorem argOfChannel_toNat_lt (ch : Channel) : (argOfChannel ch).toNat < 16 := by
  rw [argOfChannel, BitVec.toNat_setWidth]
  have := ch.isLt
  omega

theorem ReceptionAllowed.param_nil {E : Engine} (h : ReceptionAllowed E)
    (hm : E.mode = .command ∨ E.mode = .secondary) : E.cmd.param = [] := by
  unfold ReceptionAllowed at h
  rcases hm with hm | hm <;> rw [hm] at h
  · exact congrArg ParsedCommand.param h
  · obtain ⟨-, hparam, -⟩ := h
    exact hparam

/-- Addressing leaves the engine waiting, or with a role in Secondary, where the command recorded must belong. -/
theorem legal_afterAddressing {c : Ctx} (hparam : c.eng.cmd.param = [])
    (hcode : c.eng.role ≠ .passive → c.eng.cmd.code = .listen ∨ c.eng.cmd.code = .talk) :
    Legal (afterAddressing c).eng := by
  unfold afterAddressing
  split
  · exact legal_waitingEngine _
  · rename_i hrole
    exact legal_startingReception ⟨hrole, hparam, (hcode hrole).imp_right .inl⟩

/-- A secondary command recorded in mode Secondary (R140). -/
theorem ReceptionAllowed.recordSecondary {c : Ctx} {code : CommandCode} (h : ReceptionAllowed c.eng)
    (hm : c.eng.mode = .secondary) (hcode : SecondaryCode code) (ch : Channel) :
    ReceptionAllowed (recordCommand code (argOfChannel ch) c).eng := by
  unfold ReceptionAllowed at h ⊢
  simp only [hm, recordCommand_mode, recordCommand_role, recordCommand_cmd] at h ⊢
  obtain ⟨hrole, hparam, -⟩ := h
  exact ⟨hrole, hparam, .inr (.inr ⟨hcode, argOfChannel_toNat_lt ch⟩)⟩

theorem legal_processSecondary {c : Ctx} {code : CommandCode} (h : ReceptionAllowed c.eng)
    (hm : c.eng.mode = .secondary) (hcode : SecondaryCode code) (ch : Channel) :
    Legal (processSecondary code ch c).eng := legal_startingReception (h.recordSecondary hm hcode ch)

theorem legal_straySecondary (code : CommandCode) (ch : Channel) (c : Ctx) : Legal (straySecondary code ch c).eng :=
  legal_waitingEngine _

/-- A byte dispatched in Command or Secondary leaves a legal record, whichever command it is. -/
theorem legal_dispatchCommandByte {c : Ctx} (b : Byte) (h : ReceptionAllowed c.eng)
    (hm : c.eng.mode = .command ∨ c.eng.mode = .secondary) : Legal (dispatchCommandByte b c).eng := by
  have hparam := h.param_nil hm
  rcases dispatchCommandByte_cases b c with ⟨u, hb⟩ | ⟨u, hb⟩ | hb | hb | ⟨ch, hb⟩ | ⟨ch, hb⟩ | ⟨ch, hb⟩ | hb <;> rw [hb]
  · exact legal_afterAddressing hparam fun _ => .inl rfl
  · exact legal_afterAddressing hparam fun _ => .inr rfl
  · exact legal_afterAddressing hparam fun hrole => absurd rfl hrole
  · exact legal_afterAddressing hparam fun hrole => absurd rfl hrole
  · unfold openAt
    split
    · exact legal_processSecondary h ‹_› (.inl rfl) ch
    · exact legal_straySecondary _ ch c
  · unfold closeAt
    split
    · exact legal_startingReception ((h.recordSecondary ‹_› (.inr (.inl rfl)) ch).congr ⟨rfl, rfl, rfl⟩)
    · exact legal_straySecondary _ ch c
  · unfold reopenAt
    split
    · exact legal_processSecondary h ‹_› (.inr (.inr rfl)) ch
    · exact legal_straySecondary _ ch c
  · exact legal_waitingEngine _

/-- Where Secondary leads once ATN is released (41_mode_dispatcher.md R109). -/
theorem legal_leaveSecondary {c : Ctx} (h : ReceptionAllowed c.eng) (hm : c.eng.mode = .secondary) :
    Legal (leaveSecondary c).eng := by
  unfold ReceptionAllowed at h
  rw [hm] at h
  obtain ⟨hrole, hparam, hcode⟩ := h
  unfold leaveSecondary
  split
  · rename_i hsec
    have hk : SecondaryCode c.eng.cmd.code := (isSecondary_iff _).1 hsec
    have harg : c.eng.cmd.arg.toNat < 16 := by
      rcases hcode with hl | ht | ⟨-, harg⟩
      · simp [hl, CommandCode.isSecondary] at hsec
      · simp [ht, CommandCode.isSecondary] at hsec
      · exact harg
    split
    · rename_i hlistener
      exact legal_startingReception ⟨hlistener, hk, harg⟩
    · rename_i hlistener
      have htalker : c.eng.role = .talker := by
        cases hr : c.eng.role with
        | passive => exact absurd hr hrole
        | listener => exact absurd hr hlistener
        | talker => rfl
      exact ⟨rfl, ⟨htalker, hk, harg⟩, hparam⟩
  · exact legal_idleEngine _

/-! ## Mode Data -/

theorem executeDeferred_sameTransaction (c : Ctx) : SameTransaction c.eng (executeDeferred c).eng := by
  unfold executeDeferred
  split <;> exact ⟨rfl, rfl, rfl⟩

/-- Mode Data admits any parameter bytes. -/
theorem ReceptionAllowed.setParam {c : Ctx} (h : ReceptionAllowed c.eng) (hm : c.eng.mode = .data) (bs : List Byte) :
    ReceptionAllowed (setParam bs c).eng := by
  unfold ReceptionAllowed at h ⊢
  simp only [hm, setParam_mode, setParam_role, setParam_cmd] at h ⊢
  exact h

theorem legal_dataByte {c : Ctx} (b : Byte) (h : ReceptionAllowed c.eng) (hm : c.eng.mode = .data) :
    Legal (dataByte b c).eng := by
  have hcollected := h.setParam hm (c.eng.cmd.param ++ [b])
  have hexec := executeDeferred_sameTransaction (Machine.setParam (c.eng.cmd.param ++ [b]) c)
  unfold dataByte
  split
  · exact legal_startingReception ((hcollected.congr hexec).setParam (hexec.mode.trans hm) [])
  · exact legal_startingReception hcollected

/-! ## The transmit machine -/

theorem readBackend_sameTransaction (ch : Channel) (c : Ctx) : SameTransaction c.eng (readBackend ch c).2.eng :=
  ⟨readBackend_mode ch c, readBackend_role ch c, readBackend_cmd ch c⟩

/-- The next byte is loaded, or the stream is at its end (44_byte_tx.md R178, R183). -/
theorem legal_txNextByte {c : Ctx} (ha : SendingAllowed c.eng) : Legal (txNextByte c).eng := by
  have hread := readBackend_sameTransaction (channelOfArg c.eng.cmd.arg) c
  rw [txNextByte_eq]
  split
  · exact legal_idleEngine _
  · exact legal_of_sending ⟨rfl, rfl⟩ (ha.congr ⟨hread.mode, hread.role, hread.cmd⟩)

/-- The first byte is loaded, or the stream is empty (41_mode_dispatcher.md R114). -/
theorem legal_firstByte {c : Ctx} (ht : TalkingOnChannel c.eng) (hparam : c.eng.cmd.param = []) :
    Legal (firstByte c).eng := by
  have hread := readBackend_sameTransaction (channelOfArg c.eng.cmd.arg) c
  rw [firstByte_eq]
  split
  · exact legal_idleEngine _
  · refine legal_of_sending ⟨rfl, rfl⟩ ⟨rfl, ?_, ?_⟩
    · unfold TalkingOnChannel at ht ⊢
      simpa using ht
    · simpa using hparam

/-- A transmit step goes on with the byte where the cursor has it, fetches the next, or returns to Idle. -/
theorem legal_txStep {d : Level} {c c' : Ctx} (hs : Sending c.eng) (ha : SendingAllowed c.eng)
    (h : txStep d c = (c', true)) : Legal c'.eng := by
  obtain ⟨hready, hcur⟩ := hs
  have sent : ∀ {E' : Engine}, SameTransaction c.eng E' → Sending E' → Legal E' := fun hsame hs' =>
    legal_of_sending hs' (ha.congr hsame)
  rcases txStep_progress h with ⟨hs, rfl⟩ | ⟨hs, -, hlast, rfl⟩ | ⟨hs, -, -, rfl⟩ | ⟨hs, -, -, rfl⟩ | ⟨hs, -, rfl⟩ |
    ⟨hs, -, h8, rfl⟩ | ⟨hs, -, h8, rfl⟩ | ⟨hs, -, -, rfl⟩ | ⟨hs, -, -, rfl⟩ | ⟨hs, -, -, rfl⟩ | ⟨hs, -, rfl⟩ <;>
    simp only [hs] at hcur
  · exact sent ⟨rfl, rfl, rfl⟩ ⟨hready, hcur⟩
  · exact sent ⟨rfl, rfl, rfl⟩ ⟨hready, hcur, hlast⟩
  · have hlt : c.eng.tr.cursor < 8 := by omega
    exact sent ⟨rfl, rfl, rfl⟩ ⟨hready, hlt⟩
  · have hlt : c.eng.tr.cursor < 8 := by omega
    exact sent ⟨rfl, rfl, rfl⟩ ⟨hready, hlt⟩
  · exact sent ⟨rfl, rfl, rfl⟩ ⟨hready, hcur⟩
  · exact sent ⟨rfl, rfl, rfl⟩ ⟨hready, h8⟩
  · have heq : c.eng.tr.cursor + 1 = 8 := by omega
    exact sent ⟨rfl, rfl, rfl⟩ ⟨hready, heq⟩
  · exact legal_idleEngine _
  · exact legal_txNextByte (ha.congr ⟨rfl, rfl, rfl⟩)
  · exact legal_idleEngine _
  · exact sent ⟨rfl, rfl, rfl⟩ ⟨hready, hcur⟩

/-! ## The pass and the loop -/

/-- Every pass keeps the record legal. -/
theorem legal_advance {c c' : Ctx} {p : Bool} (hl : Legal c.eng) (h : advance c = (c', p)) : Legal c'.eng := by
  cases p with
  | false => rcases advance_noProgress h with rfl | ⟨-, -, -, rfl⟩ <;> exact hl
  | true =>
    cases advance_progress h with
    | enterCommand => exact legal_startingReception rfl
    | leaveCommand => exact legal_idleEngine _
    | leaveSecondary hm =>
      obtain ⟨-, ha⟩ := hl.receiving (.inr (.inl hm))
      exact legal_leaveSecondary ha hm
    | receive hm _ _ hr =>
      obtain ⟨hrecv, ha⟩ := hl.receiving hm
      rcases hrecv.rxStep_progress hr with ⟨hrecv', hsame⟩ | ⟨E, hE⟩
      · exact legal_of_receiving hrecv' (ha.congr hsame)
      · exact hE ▸ legal_waitingEngine E
    | dispatch hm hr =>
      obtain ⟨-, ha⟩ := hl.receiving (hm.imp_right .inl)
      obtain ⟨-, -, -, rfl⟩ := rxStep_complete hr
      exact legal_dispatchCommandByte _ (ha.congr ⟨rfl, rfl, rfl⟩) hm
    | dataToCommand => exact legal_startingReception rfl
    | collect hm _ hr =>
      obtain ⟨-, ha⟩ := hl.receiving (.inr (.inr hm))
      obtain ⟨-, -, -, rfl⟩ := rxStep_complete hr
      exact legal_dataByte _ (ha.congr ⟨rfl, rfl, rfl⟩) hm
    | abandonTurn => exact legal_idleEngine _
    | takeClock hm => exact ⟨rfl, hl.turning (.inl hm)⟩
    | startTalking hm =>
      obtain ⟨htalk, hparam⟩ := hl.turning (.inr hm)
      exact legal_firstByte htalk hparam
    | abort =>
      unfold abortTransmission
      split <;> exact legal_idleEngine _
    | send hm _ ht =>
      obtain ⟨hsend, ha⟩ := hl.sending hm
      exact legal_txStep hsend ha ht
    | leaveWait => exact legal_idleEngine _

theorem legal_runPasses {n : Nat} {c c' : Ctx} (hl : Legal c.eng) (h : runPasses n c = some c') : Legal c'.eng :=
  runPasses_keeps (P := fun x => Legal x.eng) (fun _ _ _ hx ha => legal_advance hx ha) hl h

/-! ## The operations, the step, and power-on -/

theorem EnginesLegal.congr {s t : State} (h : EnginesLegal s) (hd : t.dispatching = s.dispatching)
    (he : t.engines = s.engines) : EnginesLegal t := by
  unfold EnginesLegal at h ⊢
  rwa [hd, he]

/-- Putting back one engine, left legal. -/
theorem EnginesLegal.storeCtx {s : State} (h : EnginesLegal s) {c : Ctx} (hc : Legal c.eng) (e : Nat) (r : OpResult) :
    EnginesLegal { Machine.storeCtx e c s with result := r } := by
  obtain ⟨hd, hl⟩ := h
  refine ⟨hd, fun E hE => ?_⟩
  rcases List.mem_or_eq_of_mem_set hE with hE | rfl
  · exact hl E hE
  · exact hc

theorem legal_resetEngine (E : Engine) : Legal (resetEngine E) := ⟨rfl, rfl, rfl, rfl⟩

theorem legal_atReset (w : Wiring) : Legal (Engine.atReset w) := ⟨rfl, rfl, rfl, rfl⟩

theorem execReset_enginesLegal {s t : State} (h : execReset s = .next t) : EnginesLegal t := by
  cases h
  exact ⟨rfl, List.forall_mem_map.2 fun E _ => legal_resetEngine E⟩

theorem execTick_enginesLegal {e k : Nat} {s t : State} (hs : EnginesLegal s) (h : execTick e k s = .next t) :
    EnginesLegal t := by
  obtain ⟨E, he, hran⟩ := execTick_next h
  have hE : Legal E := hs.2 E (List.mem_of_getElem? he)
  rcases hran with ⟨-, rfl⟩ | ⟨-, c, hc, rfl⟩
  · exact hs.storeCtx (hE.congr ⟨rfl, rfl, rfl⟩ rfl rfl) e _
  · exact hs.storeCtx (legal_runPasses (hE.congr ⟨rfl, rfl, rfl⟩ rfl rfl) hc) e _

theorem execAttach_enginesLegal {p : Nat} {u : UnitNumber} {s t : State} (hs : EnginesLegal s)
    (h : execAttach p u s = .next t) : EnginesLegal t := by
  obtain ⟨sl, -, rfl⟩ := (onPort_eq_next _ _ _ _).1 h
  split
  · exact hs.congr rfl rfl
  · split <;> exact hs.congr rfl rfl

/-- RESET and TICK write engines, and the other operations of the multiplexer none. -/
theorem exec_operation_enginesLegal {i : Instr} {s t : State} (hi : i.isCommand = false) (hs : EnginesLegal s)
    (h : exec i s = .next t) : EnginesLegal t := by
  cases i with
  | unlisten | untalk | listen | talk | reopenChannel | closeChannel | openChannel => cases hi
  | reset => exact execReset_enginesLegal h
  | attach => exact execAttach_enginesLegal hs h
  | detach | pinWrite | pinRead =>
    obtain ⟨sl, -, rfl⟩ := (onPort_eq_next _ _ _ _).1 h
    exact hs.congr rfl rfl
  | merged | recompute =>
    cases h
    exact hs.congr rfl rfl
  | tick => exact execTick_enginesLegal hs h

theorem step_enginesLegal {s t : State} (hs : EnginesLegal s) (h : step s = .next t) : EnginesLegal t := by
  cases step_did h with
  | held _ _ hts => exact hts ▸ hs
  | operation i rest hi _ _ hx =>
    have hs' : EnginesLegal { s with schedule := rest } := hs.congr rfl rfl
    exact exec_operation_enginesLegal hi hs' hx
  | dispatched e _ _ hd => cases hs.1.symm.trans hd

theorem wiredAnd_atReset (cfg : Config) (engines : List Wiring) : WiredAnd (State.atReset cfg engines).bus :=
  wiredAnd_of_none_attached fun _ hsl => by rw [List.eq_of_mem_replicate hsl]; rfl

theorem unitsUnique_atReset (cfg : Config) (engines : List Wiring) : UnitsUnique cfg (State.atReset cfg engines).bus := by
  intro p q sp sq _ hp _ hap _
  rw [List.eq_of_mem_replicate (List.mem_of_getElem? hp)] at hap
  cases hap

theorem enginesLegal_atReset (cfg : Config) (engines : List Wiring) : EnginesLegal (State.atReset cfg engines) :=
  ⟨rfl, List.forall_mem_map.2 fun w _ => legal_atReset w⟩

end Sys2Proof.Machine

/-- Settles O12: a step leaves an engine alone, resets it, or makes passes on it, and each pass keeps `Legal`. -/
theorem everyStepKeepsEnginesLegal : Obligations.EveryStepKeepsEnginesLegal := by
  unfold Obligations.EveryStepKeepsEnginesLegal
  intro s t hs h
  exact Sys2Proof.Machine.step_enginesLegal hs h

/-- Settles O13, by what holds of the power-on state of every block. -/
theorem powerOnMeetsTheInvariants : Obligations.PowerOnMeetsTheInvariants := by
  unfold Obligations.PowerOnMeetsTheInvariants
  exact ⟨Sys2Proof.Machine.wiredAnd_atReset _ _, Sys2Proof.Machine.unitsUnique_atReset _ _,
    Sys2Proof.Machine.enginesLegal_atReset _ _⟩
end

section
/-! PROOFS. What every reader sees of a write, what a tick may do to its engine's log and call trace, what a step takes
off the schedule, and a byte's way over the bus bit by bit (20_memory.md). -/

namespace Sys2Proof.Machine

/-! ## A write through an attached port (20_memory.md R55) -/

/-- A line read back after a change made through an attached slot: what the change leaves there, wired with every other
attached slot. -/
theorem LinesAfter.merged_eq_rel {p : Nat} {f : SignalSet → SignalSet} {b b' : Bus} (h : LinesAfter p f b b')
    {sl : Slot} (hs : b.slots[p]? = some sl) (hatt : sl.attached = true) (l : Line) :
    b'.merged.get l = .rel ↔ (f sl.own).get l = .rel ∧
      ∀ (r : Nat) (sr : Slot), r ≠ p → b.slots[r]? = some sr → sr.attached = true → sr.own.get l = .rel := by
  have hwritten : b'.slots[p]? = some { sl with own := f sl.own } := by rw [h.slot, hs]; simp
  have hother : ∀ r, r ≠ p → b'.slots[r]? = b.slots[r]? := fun r hr => by rw [h.slot]; simp [hr]
  rw [h.2 l]
  constructor
  · intro hall
    exact ⟨hall _ (List.mem_of_getElem? hwritten) hatt,
      fun r sr hr hsr => hall sr (List.mem_of_getElem? ((hother r hr).trans hsr))⟩
  · rintro ⟨hown, hothers⟩ sl' hmem hatt'
    obtain ⟨r, hr⟩ := List.mem_iff_getElem?.1 hmem
    by_cases hrp : r = p
    · rw [hrp, hwritten] at hr
      cases hr
      exact hown
    · exact hothers r sl' hrp ((hother r hrp).symm.trans hr) hatt'

/-- Reading through a port that exists answers the stored register. -/
theorem execPinRead_eq {q : Nat} {s : State} (hq : q < s.bus.slots.length) :
    execPinRead q s = .next { s with result := .lines s.bus.merged } :=
  onPort_eq (List.getElem?_eq_getElem hq)

/-! ## The tick (60_exceptions.md R190, 20_memory.md R45) -/

/-- A tick that answers, whether it made its passes or only logged (R196), stores a context in which what no rule touches
stands as before. -/
theorem execTick_stores {e k : Nat} {s t : State} {E : Engine} (he : s.engines[e]? = some E)
    (h : execTick e k s = .next t) :
    ∃ c, Untouched ⟨s.cfg, s.bus, E, s.free⟩ c ∧
      t = { storeCtx e c s with result := .tick (.cycles s.cfg.tickCycles) } := by
  obtain ⟨E', he', hcases⟩ := execTick_next h
  obtain rfl : E = E' := Option.some.inj (he.symm.trans he')
  rcases hcases with ⟨-, ht⟩ | ⟨-, c, hc, ht⟩
  · exact ⟨_, untouched_logEvent _ _, ht⟩
  · exact ⟨c, (untouched_addTime k _).trans (untouched_runPasses hc), ht⟩

/-! ## The schedule (20_memory.md R54, 30_encoding.md R69) -/

theorem withNat_encodeNat (n : Nat) (rest : List Byte)
    (cont : Nat → List Byte → Except DecodeError (Instr × List Byte)) :
    withNat (encodeNat n ++ rest) cont = cont n rest := by
  simp [withNat, decodeNat_encodeNat]

/-- An operation's bytes decode to the operation, whatever follows them. -/
theorem decodeOperation_encode {i : Instr} (hi : i.isCommand = false) (rest : List Byte) :
    decodeOperation (encode i ++ rest) = .ok (i, rest) := by
  cases i with
  | unlisten | untalk | listen | talk | reopenChannel | closeChannel | openChannel => cases hi
  | reset | merged | recompute => rfl
  | attach | detach | pinRead | tick =>
    simp [encode, decodeOperation, withNat_encodeNat, withByte]
  | pinWrite =>
    simp [encode, decodeOperation, decodePinWrite, withNat_encodeNat, withByte]

theorem fetch_operation {s : State} {i : Instr} {rest : List Byte} (hd : s.dispatching = none)
    (ho : decodeOperation s.schedule = .ok (i, rest)) : fetch s = .operation i { s with schedule := rest } := by
  cases hs : s.schedule with
  | nil =>
    rw [hs] at ho
    cases ho
  | cons b bs =>
    rw [hs] at ho
    simp [fetch, hd, hs, ho]

/-! ## A byte on the bus (20_memory.md R52) -/

/-- After the first `n` bits the receiver holds those bits of the byte and zeros above them. -/
theorem sampledBits_getLsbD (v : Byte) (n : Nat) {j : Nat} (hj : j < 8) :
    ((List.range n).foldl (fun acc i => sampleBit acc i (Level.ofBit (bitAt v i))) 0).getLsbD j =
      (decide (j < n) && v.getLsbD j) := by
  induction n with
  | zero => simp
  | succ n ih =>
    rw [List.range_succ, List.foldl_append, List.foldl_cons, List.foldl_nil, sampleBit_getLsbD _ _ _ _ hj, ih]
    by_cases hjn : j = n
    · subst hjn
      simp [bitAt_eq]
    · have hlt : j < n + 1 ↔ j < n := by omega
      simp [hjn, hlt]

end Sys2Proof.Machine

/-- Settles O7: a PIN_WRITE ends in a recompute, and every port and MERGED read the register it leaves. -/
theorem pinWriteIsVisibleToEveryReader : Obligations.PinWriteIsVisibleToEveryReader := by
  unfold Obligations.PinWriteIsVisibleToEveryReader
  intro s t p q l lv sl hs hatt hq h
  obtain ⟨-, -, rfl⟩ := (Sys2Proof.Machine.onPort_eq_next _ _ _ _).1 h
  refine ⟨_, Sys2Proof.Machine.execPinRead_eq ?_, rfl, ?_⟩
  · exact (Sys2Proof.Machine.pinWrite_slots_length p l lv s.bus).symm ▸ hq
  · have hread := (Sys2Proof.Machine.linesAfter_pinWrite p l lv s.bus).merged_eq_rel hs hatt l
    rwa [Sys2Proof.SignalSet.get_set_same] at hread

/-- Settles O36, by what `Untouched` says of the context a tick stores. -/
theorem tickOnlyAppendsToLogAndTrace : Obligations.TickOnlyAppendsToLogAndTrace := by
  unfold Obligations.TickOnlyAppendsToLogAndTrace
  intro s t e k E he h
  obtain ⟨c, hc, rfl⟩ := Sys2Proof.Machine.execTick_stores he h
  obtain ⟨evs, hevs⟩ := hc.log
  obtain ⟨cs, hcs⟩ := hc.calls
  exact ⟨c.eng, evs, cs, List.getElem?_set_self (List.getElem?_eq_some_iff.1 he).1, hevs, hcs⟩

/-- Settles O19: the scheduled bytes decode to the operation they encode, which is what a step then runs. -/
theorem stepRunsTheScheduledOperation : Obligations.StepRunsTheScheduledOperation := by
  unfold Obligations.StepRunsTheScheduledOperation
  intro s i rest hi hd hs
  have hdecode := Sys2Proof.Machine.decodeOperation_encode hi rest
  rw [← hs] at hdecode
  rw [Sys2Proof.Machine.step, Sys2Proof.Machine.fetch_operation hd hdecode]

/-- Settles O55: after eight bits the receiver agrees with the byte at every bit. -/
theorem bitsSentAreTheByteReceived : Obligations.BitsSentAreTheByteReceived := by
  unfold Obligations.BitsSentAreTheByteReceived
  intro v
  refine BitVec.eq_of_getLsbD_eq fun j hj => ?_
  rw [Sys2Proof.Machine.sampledBits_getLsbD v 8 hj, decide_eq_true hj, Bool.true_and]
end

section
/-! PROOFS. Decode and encode agree (30_encoding.md): the decoder's bit tests as arithmetic, the opcode map range by
range, and the two ways round, from an instruction to its bytes and from a command byte to its instruction. -/

namespace Sys2Proof

/-! ## The bit patterns of R64 as arithmetic -/

/-- Clearing the lowest `n` bits of a byte rounds it down to a multiple of `2 ^ n`. -/
theorem toNat_and_upperMask (b : Byte) (n : Nat) :
    (b &&& BitVec.allOnes 8 <<< n).toNat = b.toNat / 2 ^ n * 2 ^ n := by
  have hle : b.toNat / 2 ^ n * 2 ^ n ≤ b.toNat := Nat.div_mul_le_self _ _
  rw [← BitVec.shiftLeft_ushiftRight, BitVec.toNat_shiftLeft, BitVec.toNat_ushiftRight, Nat.shiftLeft_eq,
    Nat.shiftRight_eq_div_pow, Nat.mod_eq_of_lt (by omega)]

/-- The test of a byte's upper bits, from bit `n` on, for the pattern `k`. -/
theorem and_upperMask_eq_iff (b : Byte) (n k : Nat) (hk : k * 2 ^ n < 256) :
    b &&& BitVec.allOnes 8 <<< n = BitVec.ofNat 8 (k * 2 ^ n) ↔ b.toNat / 2 ^ n = k := by
  rw [← BitVec.toNat_inj, toNat_and_upperMask, BitVec.toNat_ofNat, Nat.mod_eq_of_lt hk]
  exact Nat.mul_left_inj (Nat.two_pow_pos n).ne'

/-- The operand in the lowest `n` bits of a byte. -/
theorem setWidth_and_lowerMask (b : Byte) {n : Nat} (hn : n ≤ 8) :
    (b &&& BitVec.ofNat 8 (2 ^ n - 1)).setWidth n = BitVec.ofNat n b.toNat := by
  have hmask : 2 ^ n - 1 < 2 ^ 8 := by
    have := Nat.pow_le_pow_right (n := 2) (by decide) hn
    omega
  refine BitVec.eq_of_toNat_eq ?_
  rw [BitVec.toNat_setWidth, BitVec.toNat_and, BitVec.toNat_ofNat, BitVec.toNat_ofNat, Nat.mod_eq_of_lt hmask,
    Nat.and_two_pow_sub_one_eq_mod, Nat.mod_mod]

/-- The decoder of command bytes in arithmetic: the exact bytes first, then the patterns as quotients, with the
remainder as operand (R64). -/
theorem decodeCommand_eq (b : Byte) :
    decodeCommand b =
      if b.toNat = 0x3F then .ok .unlisten
      else if b.toNat = 0x5F then .ok .untalk
      else if b.toNat / 32 = 1 then .ok (.listen (BitVec.ofNat 5 b.toNat))
      else if b.toNat / 32 = 2 then .ok (.talk (BitVec.ofNat 5 b.toNat))
      else if b.toNat / 16 = 6 then .ok (.reopenChannel (BitVec.ofNat 4 b.toNat))
      else if b.toNat / 16 = 14 then .ok (.closeChannel (BitVec.ofNat 4 b.toNat))
      else if b.toNat / 16 = 15 then .ok (.openChannel (BitVec.ofNat 4 b.toNat))
      else .error (.invalidCommand b) := by
  have hbyte (k : Nat) (hk : k < 256) : b = BitVec.ofNat 8 k ↔ b.toNat = k := by
    rw [← BitVec.toNat_inj, BitVec.toNat_ofNat, Nat.mod_eq_of_lt hk]
  have hupper3 (k : Nat) (hk : k < 8) : b &&& 0xE0#8 = BitVec.ofNat 8 (k * 32) ↔ b.toNat / 32 = k :=
    and_upperMask_eq_iff b 5 k (by omega)
  have hupper4 (k : Nat) (hk : k < 16) : b &&& 0xF0#8 = BitVec.ofNat 8 (k * 16) ↔ b.toNat / 16 = k :=
    and_upperMask_eq_iff b 4 k (by omega)
  simp only [← hbyte 0x3F (by decide), ← hbyte 0x5F (by decide), ← hupper3 1 (by decide), ← hupper3 2 (by decide),
    ← hupper4 6 (by decide), ← hupper4 14 (by decide), ← hupper4 15 (by decide),
    ← setWidth_and_lowerMask b (show 5 ≤ 8 by decide), ← setWidth_and_lowerMask b (show 4 ≤ 8 by decide)]
  rfl

/-! ## The opcode map, one equation per row (R66) -/

/-- The low bits of a byte are the operand that stands below the pattern `k`. -/
theorem ofNat_toNat_eq_operand {n k : Nat} {b : Byte} {x : BitVec n} (h : b.toNat = 2 ^ n * k + x.toNat) :
    BitVec.ofNat n b.toNat = x := by
  refine BitVec.eq_of_toNat_eq ?_
  rw [BitVec.toNat_ofNat, h, Nat.mul_add_mod, Nat.mod_eq_of_lt x.isLt]

theorem decodeCommand_unlisten {b : Byte} (h : b.toNat = 0x3F) : decodeCommand b = .ok .unlisten := by
  rw [decodeCommand_eq, if_pos h]

theorem decodeCommand_untalk {b : Byte} (h : b.toNat = 0x5F) : decodeCommand b = .ok .untalk := by
  rw [decodeCommand_eq, if_neg (by omega), if_pos h]

/-- The byte of unit 31 is UNLISTEN's. -/
theorem decodeCommand_listen {b : Byte} {u : BitVec 5} (hu : u.toNat < 31) (h : b.toNat = 0x20 + u.toNat) :
    decodeCommand b = .ok (.listen u) := by
  rw [decodeCommand_eq, if_neg (by omega), if_neg (by omega), if_pos (by omega), ofNat_toNat_eq_operand (k := 1) h]

/-- The byte of unit 31 is UNTALK's. -/
theorem decodeCommand_talk {b : Byte} {u : BitVec 5} (hu : u.toNat < 31) (h : b.toNat = 0x40 + u.toNat) :
    decodeCommand b = .ok (.talk u) := by
  rw [decodeCommand_eq, if_neg (by omega), if_neg (by omega), if_neg (by omega), if_pos (by omega),
    ofNat_toNat_eq_operand (k := 2) h]

theorem decodeCommand_reopenChannel {b : Byte} {c : Channel} (h : b.toNat = 0x60 + c.toNat) :
    decodeCommand b = .ok (.reopenChannel c) := by
  rw [decodeCommand_eq, if_neg (by omega), if_neg (by omega), if_neg (by omega), if_neg (by omega), if_pos (by omega),
    ofNat_toNat_eq_operand (k := 6) h]

theorem decodeCommand_closeChannel {b : Byte} {c : Channel} (h : b.toNat = 0xE0 + c.toNat) :
    decodeCommand b = .ok (.closeChannel c) := by
  rw [decodeCommand_eq, if_neg (by omega), if_neg (by omega), if_neg (by omega), if_neg (by omega), if_neg (by omega),
    if_pos (by omega), ofNat_toNat_eq_operand (k := 14) h]

theorem decodeCommand_openChannel {b : Byte} {c : Channel} (h : b.toNat = 0xF0 + c.toNat) :
    decodeCommand b = .ok (.openChannel c) := by
  rw [decodeCommand_eq, if_neg (by omega), if_neg (by omega), if_neg (by omega), if_neg (by omega), if_neg (by omega),
    if_neg (by omega), if_pos (by omega), ofNat_toNat_eq_operand (k := 15) h]

theorem decodeCommand_invalid {b : Byte} (h : b.toNat < 0x20 ∨ 0x70 ≤ b.toNat ∧ b.toNat ≤ 0xDF) :
    decodeCommand b = .error (.invalidCommand b) := by
  rw [decodeCommand_eq, if_neg (by omega), if_neg (by omega), if_neg (by omega), if_neg (by omega), if_neg (by omega),
    if_neg (by omega), if_neg (by omega)]

/-! ## The command's byte (R65) -/

/-- A pattern `k` above an operand of `n` bits is a sum: the operand does not reach the pattern. -/
theorem toNat_pattern_or {n : Nat} (k : Nat) (x : BitVec n) (hn : n ≤ 8) (hk : 2 ^ n * k < 256) :
    (BitVec.ofNat 8 (2 ^ n * k) ||| x.setWidth 8).toNat = 2 ^ n * k + x.toNat := by
  rw [BitVec.toNat_or, BitVec.toNat_ofNat, Nat.mod_eq_of_lt hk, BitVec.toNat_setWidth_of_le hn,
    Nat.two_pow_add_eq_or_of_lt x.isLt]

/-- One byte made of a pattern and an operand is the byte whose value is their sum. -/
theorem pattern_or_singleton_iff {n : Nat} (k : Nat) (x : BitVec n) (b : Byte) (hn : n ≤ 8) (hk : 2 ^ n * k < 256) :
    [BitVec.ofNat 8 (2 ^ n * k) ||| x.setWidth 8] = [b] ↔ b.toNat = 2 ^ n * k + x.toNat := by
  rw [← toNat_pattern_or k x hn hk, BitVec.toNat_inj, List.singleton_inj, eq_comm]

theorem encode_listen_iff (u : BitVec 5) (b : Byte) : encode (.listen u) = [b] ↔ b.toNat = 0x20 + u.toNat :=
  pattern_or_singleton_iff 1 u b (by decide) (by decide)

theorem encode_talk_iff (u : BitVec 5) (b : Byte) : encode (.talk u) = [b] ↔ b.toNat = 0x40 + u.toNat :=
  pattern_or_singleton_iff 2 u b (by decide) (by decide)

theorem encode_reopenChannel_iff (c : Channel) (b : Byte) :
    encode (.reopenChannel c) = [b] ↔ b.toNat = 0x60 + c.toNat :=
  pattern_or_singleton_iff 6 c b (by decide) (by decide)

theorem encode_closeChannel_iff (c : Channel) (b : Byte) :
    encode (.closeChannel c) = [b] ↔ b.toNat = 0xE0 + c.toNat :=
  pattern_or_singleton_iff 14 c b (by decide) (by decide)

theorem encode_openChannel_iff (c : Channel) (b : Byte) :
    encode (.openChannel c) = [b] ↔ b.toNat = 0xF0 + c.toNat :=
  pattern_or_singleton_iff 15 c b (by decide) (by decide)

/-- Unit 31 is the one no command addresses (R66). -/
theorem bne_31_iff (u : BitVec 5) : (u != 31) = true ↔ u.toNat < 31 := by
  have hlt : u.toNat < 32 := u.isLt
  rw [bne_iff_ne, ← BitVec.toNat_ne_iff_ne]
  change u.toNat ≠ 31 ↔ u.toNat < 31
  omega

/-! ## From an instruction to its bytes and back -/

/-- A command is written as one byte, which decodes to it. -/
theorem decodeCommand_encode {i : Instr} (hi : i.isCommand = true) (hu : i.unitAddressable = true) :
    ∃ b, encode i = [b] ∧ decodeCommand b = .ok i := by
  cases i with
  | unlisten => exact ⟨_, rfl, decodeCommand_unlisten rfl⟩
  | untalk => exact ⟨_, rfl, decodeCommand_untalk rfl⟩
  | listen u => exact ⟨_, rfl, decodeCommand_listen ((bne_31_iff u).1 hu) ((encode_listen_iff u _).1 rfl)⟩
  | talk u => exact ⟨_, rfl, decodeCommand_talk ((bne_31_iff u).1 hu) ((encode_talk_iff u _).1 rfl)⟩
  | reopenChannel c => exact ⟨_, rfl, decodeCommand_reopenChannel ((encode_reopenChannel_iff c _).1 rfl)⟩
  | closeChannel c => exact ⟨_, rfl, decodeCommand_closeChannel ((encode_closeChannel_iff c _).1 rfl)⟩
  | openChannel c => exact ⟨_, rfl, decodeCommand_openChannel ((encode_openChannel_iff c _).1 rfl)⟩
  | reset | attach | detach | merged | recompute | pinWrite | pinRead | tick => cases hi

/-- `Laws.EncodeHead.Statement` of every instruction. -/
theorem encodeHead (i : Instr) : Laws.EncodeHead.Statement i := by
  cases i with
  | unlisten => exact Laws.EncodeHead.unlisten
  | untalk => exact Laws.EncodeHead.untalk
  | listen u => exact Laws.EncodeHead.listen u
  | talk u => exact Laws.EncodeHead.talk u
  | reopenChannel c => exact Laws.EncodeHead.reopenChannel c
  | closeChannel c => exact Laws.EncodeHead.closeChannel c
  | openChannel c => exact Laws.EncodeHead.openChannel c
  | reset => exact Laws.EncodeHead.reset
  | attach p u => exact Laws.EncodeHead.attach p u
  | detach p => exact Laws.EncodeHead.detach p
  | merged => exact Laws.EncodeHead.merged
  | recompute => exact Laws.EncodeHead.recompute
  | pinWrite p l lv => exact Laws.EncodeHead.pinWrite p l lv
  | pinRead p => exact Laws.EncodeHead.pinRead p
  | tick e k => exact Laws.EncodeHead.tick e k

theorem isCommand_iff_of_encode {i : Instr} {b : Byte} {bs : List Byte} (h : encode i = b :: bs) :
    i.isCommand = true ↔ 16 ≤ b.toNat := by
  obtain ⟨_, _, he, hiff⟩ := encodeHead i
  cases h.symm.trans he
  exact hiff

/-- Below 0x10 a byte is read as an `opsel` (R69). -/
theorem decode_opsel {b : Byte} (hb : b.toNat < 16) (rest : List Byte) :
    decode (b :: rest) = decodeOperation (b :: rest) := by
  rw [decode, if_pos hb]

theorem decode_command {b : Byte} {i : Instr} (hb : 16 ≤ b.toNat) (h : decodeCommand b = .ok i) (rest : List Byte) :
    decode (b :: rest) = .ok (i, rest) := by
  rw [decode, if_neg (Nat.not_lt.2 hb), h]

/-- The first byte says which decoder reads the instruction, and that decoder undoes the encoding. -/
theorem decode_encode {i : Instr} (hu : i.unitAddressable = true) (rest : List Byte) :
    decode (encode i ++ rest) = .ok (i, rest) := by
  cases hi : i.isCommand with
  | true =>
    obtain ⟨b, he, hd⟩ := decodeCommand_encode hi hu
    rw [he]
    exact decode_command ((isCommand_iff_of_encode he).1 hi) hd rest
  | false =>
    have hop := Machine.decodeOperation_encode hi rest
    obtain ⟨b, bs, he, hhead⟩ := encodeHead i
    have hb : b.toNat < 16 := Nat.not_le.1 fun hge => by simp [hhead.2 hge] at hi
    rw [he] at hop ⊢
    exact (decode_opsel hb _).trans hop

/-- A word that is an instruction's encoding decodes to it, and no byte is left. -/
theorem decode_word {i : Instr} {w : List Byte} (hw : encode i = w) (hu : i.unitAddressable = true) :
    decode w = .ok (i, []) := by
  have h := decode_encode hu []
  rwa [List.append_nil, hw] at h

/-! ## From a command byte to its instruction and back -/

/-- In a row of `2 ^ n` bytes from `base` on, a byte is `base` and its place in the row. -/
theorem toNat_eq_base_add {n base : Nat} {b : Byte} (hlo : base ≤ b.toNat) (hhi : b.toNat < base + 2 ^ n) :
    b.toNat = base + (BitVec.ofNat n (b.toNat - base)).toNat := by
  rw [BitVec.toNat_ofNat, Nat.mod_eq_of_lt (by omega)]
  omega

/-- A decoded command writes the byte it was read from, and LISTEN and TALK are not read with unit 31. -/
theorem encode_of_decodeCommand {b : Byte} {i : Instr} (h : decodeCommand b = .ok i) :
    encode i = [b] ∧ i.unitAddressable = true := by
  rw [decodeCommand_eq] at h
  split_ifs at h with hunl hunt hlis htal hreo hclo hope <;> cases h
  · exact ⟨congrArg (fun x => [x]) (BitVec.eq_of_toNat_eq hunl.symm), rfl⟩
  · exact ⟨congrArg (fun x => [x]) (BitVec.eq_of_toNat_eq hunt.symm), rfl⟩
  · refine ⟨(encode_listen_iff _ b).2 ?_, (bne_31_iff _).2 ?_⟩ <;> rw [BitVec.toNat_ofNat] <;> omega
  · refine ⟨(encode_talk_iff _ b).2 ?_, (bne_31_iff _).2 ?_⟩ <;> rw [BitVec.toNat_ofNat] <;> omega
  · exact ⟨(encode_reopenChannel_iff _ b).2 (by rw [BitVec.toNat_ofNat]; omega), rfl⟩
  · exact ⟨(encode_closeChannel_iff _ b).2 (by rw [BitVec.toNat_ofNat]; omega), rfl⟩
  · exact ⟨(encode_openChannel_iff _ b).2 (by rw [BitVec.toNat_ofNat]; omega), rfl⟩

end Sys2Proof

/-- Settles O15, by the decoder of each code space and the first byte that chooses between them. -/
theorem decodeAfterEncodeGivesTheInstruction : Obligations.DecodeAfterEncodeGivesTheInstruction := by
  unfold Obligations.DecodeAfterEncodeGivesTheInstruction
  intro i rest hu
  exact Sys2Proof.decode_encode hu rest

/-- Settles O16, by the decoder's tests one after the other. -/
theorem commandByteHasOneMeaning : Obligations.CommandByteHasOneMeaning := by
  unfold Obligations.CommandByteHasOneMeaning
  intro b i h
  obtain ⟨henc, hunit⟩ := Sys2Proof.encode_of_decodeCommand h
  exact ⟨henc, hunit, Sys2Proof.decodeCommand_isCommand h⟩

/-- Settles O17, row by row. -/
theorem opcodeMapIsComplete : Obligations.OpcodeMapIsComplete := by
  unfold Obligations.OpcodeMapIsComplete
  intro b
  refine ⟨fun h => ?invalidLow, fun ⟨hlo, hhi⟩ => ?listen, fun h => ?unlisten, fun ⟨hlo, hhi⟩ => ?talk,
    fun h => ?untalk, fun ⟨hlo, hhi⟩ => ?reopenChannel, fun h => ?invalidHigh, fun ⟨hlo, hhi⟩ => ?closeChannel,
    fun hlo => ?openChannel⟩
  case invalidLow => exact Sys2Proof.decodeCommand_invalid (.inl h)
  case listen =>
    have hb := Sys2Proof.toNat_eq_base_add (n := 5) hlo (by omega)
    exact Sys2Proof.decodeCommand_listen (by omega) hb
  case unlisten => exact Sys2Proof.decodeCommand_unlisten h
  case talk =>
    have hb := Sys2Proof.toNat_eq_base_add (n := 5) hlo (by omega)
    exact Sys2Proof.decodeCommand_talk (by omega) hb
  case untalk => exact Sys2Proof.decodeCommand_untalk h
  case reopenChannel =>
    exact Sys2Proof.decodeCommand_reopenChannel (Sys2Proof.toNat_eq_base_add (n := 4) hlo (by omega))
  case invalidHigh => exact Sys2Proof.decodeCommand_invalid (.inr h)
  case closeChannel =>
    exact Sys2Proof.decodeCommand_closeChannel (Sys2Proof.toNat_eq_base_add (n := 4) hlo (by omega))
  case openChannel =>
    exact Sys2Proof.decodeCommand_openChannel (Sys2Proof.toNat_eq_base_add (n := 4) hlo (by omega))

/-- Settles O18: each word is the encoding of its instruction with nothing after it. -/
theorem wordsOfTheTableDecode : Obligations.WordsOfTheTableDecode := by
  unfold Obligations.WordsOfTheTableDecode
  exact ⟨Sys2Proof.decode_word rfl rfl, Sys2Proof.decode_word rfl rfl, Sys2Proof.decode_word rfl rfl,
    Sys2Proof.decode_word rfl rfl, Sys2Proof.decode_word rfl rfl, Sys2Proof.decode_word rfl rfl,
    Sys2Proof.decode_word rfl rfl, Sys2Proof.decode_word rfl rfl, Sys2Proof.decode_word rfl rfl⟩
end

section
/-! PROOFS. What each operation of the multiplexer answers (40_bus_ops.md R80 to R86): one equation for each outcome, and
what becomes of `merged` when a slot that is not attached is rewritten. -/

namespace Sys2Proof.Machine

/-! ## Rewriting a slot that is not attached -/

/-- Replacing an entry by one that meets the same property changes nothing about whether all entries meet it. -/
theorem forall_mem_set_iff {α : Type} {P : α → Prop} {xs : List α} {p : Nat} {a a' : α} (hp : xs[p]? = some a)
    (ha : P a) (ha' : P a') : (∀ x ∈ xs.set p a', P x) ↔ ∀ x ∈ xs, P x := by
  constructor
  · intro hall x hx
    obtain ⟨r, hr⟩ := List.mem_iff_getElem?.1 hx
    by_cases hpr : p = r
    · rw [← hpr, hp] at hr
      cases hr
      exact ha
    · exact hall x (List.mem_of_getElem? ((List.getElem?_set_ne hpr).trans hr))
  · intro hall x hx
    rcases List.mem_or_eq_of_mem_set hx with hmem | rfl
    · exact hall x hmem
    · exact ha'

/-- A slot that is not attached holds no line, so the wired-AND does not see it replaced by one that holds no line
either (R80 iii, R85 ii). -/
theorem WiredAnd.merged_eq_of_set {b b' : Bus} (hb : WiredAnd b) (hb' : WiredAnd b') {p : Nat} {sl sl' : Slot}
    (hs : b.slots[p]? = some sl) (hset : b'.slots = b.slots.set p sl') (hsl : sl.attached = false)
    (hsl' : sl'.attached = true → sl'.own = .allRel) : b'.merged = b.merged := by
  refine SignalSet.ext_get _ _ fun l => Level.ext_rel ?_
  rw [hb' l, hb l, hset]
  refine forall_mem_set_iff hs (fun hatt => nomatch hsl.symm.trans hatt) fun hatt => ?_
  rw [hsl' hatt, SignalSet.get_allRel]

/-- With the wired-AND in place the slots fix the whole multiplexer. -/
theorem WiredAnd.eq_of_slots {b b' : Bus} (hb : WiredAnd b) (hb' : WiredAnd b') (h : b.slots = b'.slots) : b = b' := by
  have hm : b.merged = b'.merged := by rw [hb.merged_eq, hb'.merged_eq, h]
  cases b
  cases b'
  exact congr (congrArg Bus.mk h) hm

/-! ## DETACH and PIN_WRITE of a slot that exists -/

theorem detachSlot_slots_eq_set {p : Nat} {b : Bus} {sl : Slot} (hs : b.slots[p]? = some sl) :
    (detachSlot p b).slots = b.slots.set p { sl with attached := false } :=
  (detachSlot_slots p b).trans (modify_eq_set _ hs)

theorem pinWrite_slots_eq_set {p : Nat} {b : Bus} {sl : Slot} (l : Line) (lv : Level) (hs : b.slots[p]? = some sl) :
    (pinWrite p l lv b).slots = b.slots.set p { sl with own := sl.own.set l lv } :=
  (linesAfter_pinWrite p l lv b).1.trans (modify_eq_set _ hs)

/-- Removing a participant that is not there changes nothing (R81 i). -/
theorem detachSlot_of_not_attached {p : Nat} {b : Bus} {sl : Slot} (hb : WiredAnd b) (hs : b.slots[p]? = some sl)
    (hsl : sl.attached = false) : detachSlot p b = b := by
  refine (wiredAnd_detachSlot p b).eq_of_slots hb ?_
  obtain ⟨hp, rfl⟩ := List.getElem?_eq_some_iff.1 hs
  rw [detachSlot_slots_eq_set hs, ← hsl]
  exact List.set_getElem_self hp

/-! ## ATTACH: the slot is taken, the unit number is taken, or both are free -/

section
variable {s : State} {p : Nat} {u : UnitNumber} {sl : Slot}

theorem execAttach_of_attached (hs : s.bus.slots[p]? = some sl) (hsl : sl.attached = true) :
    execAttach p u s = .next { s with result := .bool false } := by
  rw [execAttach, onPort_eq hs, if_pos hsl]

theorem execAttach_of_unit_taken (hs : s.bus.slots[p]? = some sl) (hu : ¬ unitFree s.cfg s.bus.slots u = true) :
    execAttach p u s = .next { s with result := .bool false } := by
  rw [execAttach, onPort_eq hs, if_neg hu, ite_self]

theorem execAttach_of_free (hs : s.bus.slots[p]? = some sl) (hsl : sl.attached = false)
    (hu : unitFree s.cfg s.bus.slots u = true) :
    execAttach p u s = .next { s with bus := attachSlot p u s.bus, result := .bool true } := by
  rw [execAttach, onPort_eq hs, if_neg (Bool.eq_false_iff.1 hsl), if_pos hu]

end

/-- A unit number is taken when it is not the sentinel and somebody attached has it. -/
theorem not_unitFree {cfg : Config} {slots : List Slot} {u : UnitNumber} {q : Slot} (hu : u ≠ cfg.unitSentinel)
    (hq : q ∈ slots) (hatt : q.attached = true) (hqu : q.unit = u) : ¬ unitFree cfg slots u = true := by
  rw [unitFree_iff]
  rintro (hsentinel | hfree)
  · exact hu hsentinel
  · exact hfree q hq hatt hqu

end Sys2Proof.Machine

/-- Settles O1: what RECOMPUTE stores is the fold of the slots as they are. -/
theorem recomputeFoldsAttachedSlots : Obligations.RecomputeFoldsAttachedSlots := by
  unfold Obligations.RecomputeFoldsAttachedSlots
  intro s
  exact ⟨_, Sys2Proof.Machine.recompute_slots s.bus, Sys2Proof.Machine.wiredAnd_recompute s.bus, rfl⟩

/-- Settles O2, by the three outcomes of ATTACH. -/
theorem attachRegistersOrRefuses : Obligations.AttachRegistersOrRefuses := by
  unfold Obligations.AttachRegistersOrRefuses
  intro s p u sl hs
  constructor
  · rintro (hsl | ⟨hu, q, hq, hatt, hqu⟩)
    · exact Sys2Proof.Machine.execAttach_of_attached hs hsl
    · exact Sys2Proof.Machine.execAttach_of_unit_taken hs (Sys2Proof.Machine.not_unitFree hu hq hatt hqu)
  · rintro ⟨hsl, hfree⟩
    have hwired := Sys2Proof.Machine.wiredAnd_attachSlot p u s.bus
    have hslots := Sys2Proof.Machine.attachSlot_slots p u s.bus
    exact ⟨_, hslots, hwired, fun hb => hb.merged_eq_of_set hwired hs hslots hsl fun _ => rfl,
      Sys2Proof.Machine.execAttach_of_free hs hsl ((Sys2Proof.Machine.unitFree_iff _ _ _).2 hfree)⟩

/-- Settles O3: DETACH ends in a recompute, and of an empty slot it rewrites what was there. -/
theorem detachReleasesTheSlot : Obligations.DetachReleasesTheSlot := by
  unfold Obligations.DetachReleasesTheSlot
  intro s p sl hs
  exact ⟨_, Sys2Proof.Machine.detachSlot_slots_eq_set hs, Sys2Proof.Machine.wiredAnd_detachSlot p s.bus,
    fun hb hsl => Sys2Proof.Machine.detachSlot_of_not_attached hb hs hsl, Sys2Proof.Machine.onPort_eq hs⟩

/-- Settles O4: MERGED copies the register into the result, which is its definition. -/
theorem mergedAnswersTheStoredLines : Obligations.MergedAnswersTheStoredLines := by
  unfold Obligations.MergedAnswersTheStoredLines
  exact fun _ => rfl

/-- Settles O5: PIN_WRITE sets one line of the slot's own set and ends in a recompute. -/
theorem pinWriteSetsOneOwnLine : Obligations.PinWriteSetsOneOwnLine := by
  unfold Obligations.PinWriteSetsOneOwnLine
  intro s p l lv sl hs
  obtain ⟨-, hwired⟩ := Sys2Proof.Machine.linesAfter_pinWrite p l lv s.bus
  have hslots := Sys2Proof.Machine.pinWrite_slots_eq_set l lv hs
  refine ⟨_, sl.own.set l lv, Sys2Proof.SignalSet.get_set_same _ _ _,
    fun l' hl' => Sys2Proof.SignalSet.get_set_other _ _ _ _ hl', hslots, hwired, fun hb hsl => ?_,
    Sys2Proof.Machine.onPort_eq hs⟩
  exact hb.merged_eq_of_set hwired hs hslots hsl fun hatt => nomatch hsl.symm.trans hatt

/-- Settles O6: a port that exists is all that PIN_READ asks for. -/
theorem pinReadIsTheSameThroughEveryPort : Obligations.PinReadIsTheSameThroughEveryPort := by
  unfold Obligations.PinReadIsTheSameThroughEveryPort
  intro s p hp
  exact Sys2Proof.Machine.execPinRead_eq hp

/-- Settles O9: the four operations that name a port look its slot up before anything else. -/
theorem portOutOfRangeIsRefused : Obligations.PortOutOfRangeIsRefused := by
  unfold Obligations.PortOutOfRangeIsRefused
  intro s p u l lv hp
  exact ⟨Sys2Proof.Machine.onPort_out_of_range hp, Sys2Proof.Machine.onPort_out_of_range hp,
    Sys2Proof.Machine.onPort_out_of_range hp, Sys2Proof.Machine.onPort_out_of_range hp⟩
end

section
/-! PROOFS. One pass of the dispatcher (41_mode_dispatcher.md R106 to R117): the rule of each mode, where a pass leads,
and what a pass that progresses must have changed. -/

namespace Sys2Proof.Machine

/-! ## One pass, mode by mode -/

section
variable {c : Ctx}

theorem advance_of_idle (h : c.eng.mode = .idle) : advance c = modeIdle c.bus.merged.atn c.bus.merged.clk c := by
  rw [advance, advanceWith, h]
  rfl

theorem advance_of_command (h : c.eng.mode = .command) :
    advance c = modeCommand c.bus.merged.atn c.bus.merged.clk c.bus.merged.dat c := by
  rw [advance, advanceWith, h]
  rfl

theorem advance_of_secondary (h : c.eng.mode = .secondary) :
    advance c = modeSecondary c.bus.merged.atn c.bus.merged.clk c.bus.merged.dat c := by
  rw [advance, advanceWith, h]
  rfl

theorem advance_of_data (h : c.eng.mode = .data) :
    advance c = modeData c.bus.merged.atn c.bus.merged.clk c.bus.merged.dat c := by
  rw [advance, advanceWith, h]
  rfl

theorem advance_of_turnaround (h : c.eng.mode = .turnaround) :
    advance c = modeTurnaround c.bus.merged.atn c.bus.merged.clk c := by
  rw [advance, advanceWith, h]
  rfl

theorem advance_of_turnHold (h : c.eng.mode = .turnHold) : advance c = modeTurnHold c.bus.merged.atn c := by
  rw [advance, advanceWith, h]
  rfl

theorem advance_of_talker (h : c.eng.mode = .talker) : advance c = modeTalker c.bus.merged.atn c.bus.merged.dat c := by
  rw [advance, advanceWith, h]
  rfl

theorem advance_of_wait (h : c.eng.mode = .wait) : advance c = modeWait c.bus.merged.atn c := by
  rw [advance, advanceWith, h]
  rfl

end

/-! ## Where the rules lead -/

/-- Where a dispatched command byte leaves the engine (42_commands.md R131): waiting, or receiving in Secondary with the
lines as they were but for DAT. -/
inductive CommandLands (c : Ctx) : Ctx → Prop where
  | waits (c1 : Ctx) : CommandLands c (toWait c1)
  | receives (c1 : Ctx) : c1.eng.mode = .secondary → c1.bus = c.bus → CommandLands c (beginRx c1)

theorem afterAddressing_lands {c c1 : Ctx} (hbus : c1.bus = c.bus) : CommandLands c (afterAddressing c1) := by
  unfold afterAddressing
  split
  · exact .waits _
  · exact .receives _ rfl hbus

theorem dispatchCommandByte_lands (b : Byte) (c : Ctx) : CommandLands c (dispatchCommandByte b c) := by
  rcases dispatchCommandByte_cases b c with ⟨u, h⟩ | ⟨u, h⟩ | h | h | ⟨ch, h⟩ | ⟨ch, h⟩ | ⟨ch, h⟩ | h <;> rw [h]
  · exact afterAddressing_lands rfl
  · exact afterAddressing_lands rfl
  · exact afterAddressing_lands rfl
  · exact afterAddressing_lands rfl
  · unfold openAt
    split
    · exact .receives _ ‹_› rfl
    · exact .waits _
  · unfold closeAt
    split
    · exact .receives _ ‹_› rfl
    · exact .waits _
  · unfold reopenAt
    split
    · exact .receives _ ‹_› rfl
    · exact .waits _
  · exact .waits _

theorem CommandLands.mode_state {c c' : Ctx} (h : CommandLands c c') :
    (c'.eng.mode = .wait ∧ c'.eng.state = .idle) ∨ (c'.eng.mode = .secondary ∧ c'.eng.state = .init) := by
  cases h with
  | waits => exact .inl ⟨rfl, rfl⟩
  | receives _ hm => exact .inr ⟨hm, rfl⟩

/-- The three ways out of Secondary once ATN is released (R109). -/
theorem leaveSecondary_lands (c : Ctx) :
    leaveSecondary c = beginRx (setMode .data c) ∨ leaveSecondary c = setState .idle (setMode .turnaround c) ∨
      leaveSecondary c = reinit c := by
  unfold leaveSecondary
  split
  · split
    · exact .inl rfl
    · exact .inr (.inl rfl)
  · exact .inr (.inr rfl)

/-- The backend calls a deferred command makes (42_commands.md R141). -/
def deferredCalls (k : ParsedCommand) : List BackendCall :=
  match k.code with
  | .openChannel => [.openCall (channelOfArg k.arg) k.param]
  | .reopenChannel => [.writeCall (channelOfArg k.arg) k.param]
  | .closeChannel | .noCommand | .listen | .talk | .unlisten | .untalk => []

theorem executeDeferred_eq (c : Ctx) :
    executeDeferred c = { c with eng := { c.eng with calls := c.eng.calls ++ deferredCalls c.eng.cmd } } := by
  rw [executeDeferred, deferredCalls]
  cases c.eng.cmd.code <;> simp [callBackend]

/-- The record in which a data byte has been collected, and with end-of-information the deferred command executed
(R112). -/
def collectedEngine (b : Byte) (E : Engine) : Engine :=
  if E.tr.last then
    { E with
      cmd := { E.cmd with param := [] }
      calls := E.calls ++ deferredCalls { E.cmd with param := E.cmd.param ++ [b] } }
  else { E with cmd := { E.cmd with param := E.cmd.param ++ [b] } }

/-- A byte of mode Data is collected, and a new reception begins. -/
theorem dataByte_eq (b : Byte) (c : Ctx) : dataByte b c = beginRx { c with eng := collectedEngine b c.eng } := by
  unfold dataByte collectedEngine
  split
  · rw [executeDeferred_eq]
    rfl
  · rfl

theorem collectedEngine_mode (b : Byte) (E : Engine) : (collectedEngine b E).mode = E.mode := by
  unfold collectedEngine
  split <;> rfl

theorem collectedEngine_port (b : Byte) (E : Engine) : (collectedEngine b E).port = E.port := by
  unfold collectedEngine
  split <;> rfl

/-- The first read ends the turn or begins the talk (R114). -/
theorem firstByte_lands (c : Ctx) :
    (∃ c1, firstByte c = reinit c1) ∨ ∃ c1, firstByte c = setState .init (setMode .talker c1) := by
  rw [firstByte_eq]
  split
  · exact .inl ⟨_, rfl⟩
  · exact .inr ⟨_, rfl⟩

/-- A read between bytes ends the talk or puts the next byte in flight, the lines left as they were (44_byte_tx.md R178,
R183). -/
theorem txNextByte_lands (c : Ctx) :
    (∃ c1, txNextByte c = reinit c1) ∨
      ∃ c1, txNextByte c = setState .frameWait c1 ∧ c1.eng.mode = c.eng.mode ∧ c1.bus = c.bus := by
  rw [txNextByte_eq]
  split
  · exact .inl ⟨_, rfl⟩
  · exact .inr ⟨_, rfl, readBackend_mode _ _, readBackend_bus _ _⟩

/-- An abort is a return to the idle phase, with one call more if the byte in flight was not consumed (44_byte_tx.md
R182). -/
theorem abortTransmission_eq (c : Ctx) :
    abortTransmission c = reinit { c with eng := { c.eng with
      calls := c.eng.calls ++ (if c.eng.tr.ready then [] else [.pushBackCall (channelOfArg c.eng.cmd.arg)]) } } := by
  unfold abortTransmission
  split
  · rw [List.append_nil]
  · rfl

/-- A receive step that progresses changes the state, and the mode only to Wait (43_byte_rx.md R151 to R156). -/
theorem rxStep_progress_state_mode {cl d : Level} {c c' : Ctx} (h : rxStep cl d c = (c', .progress)) :
    c'.eng.state ≠ c.eng.state ∧ (c'.eng.mode = c.eng.mode ∨ c'.eng.mode = .wait) := by
  rcases rxStep_progress h with ⟨hs, -, rfl⟩ | ⟨hs, -, rfl⟩ | ⟨hs, -, -, rfl⟩ | ⟨hs, -, -, rfl⟩ | ⟨hs, -, rfl⟩ |
    ⟨hs, -, -, rfl⟩ | ⟨hs, -, -, rfl⟩ | ⟨hs, -, -, rfl⟩ <;> simp [hs, raiseEvent_wait, waitingEngine]

/-- A transmit step that progresses changes the state, and the mode only to Idle (44_byte_tx.md R172 to R179). -/
theorem txStep_progress_state_mode {d : Level} {c c' : Ctx} (h : txStep d c = (c', true)) :
    c'.eng.state ≠ c.eng.state ∧ (c'.eng.mode = c.eng.mode ∨ c'.eng.mode = .idle) := by
  rcases txStep_progress h with ⟨hs, rfl⟩ | ⟨hs, -, -, rfl⟩ | ⟨hs, -, -, rfl⟩ | ⟨hs, -, -, rfl⟩ | ⟨hs, -, rfl⟩ |
    ⟨hs, -, -, rfl⟩ | ⟨hs, -, -, rfl⟩ | ⟨hs, -, -, rfl⟩ | ⟨hs, -, -, rfl⟩ | ⟨hs, -, -, rfl⟩ | ⟨hs, -, rfl⟩
  · simp [hs]
  · simp [hs]
  · simp [hs]
  · simp [hs]
  · simp [hs]
  · simp [hs]
  · simp [hs]
  · simp [hs, idleEngine]
  · rcases txNextByte_lands (setTr (markReady c.eng.tr) c) with ⟨c1, hn⟩ | ⟨c1, hn, hm, -⟩ <;> rw [hn]
    · simp [hs, idleEngine]
    · exact ⟨by simp [hs], .inl hm⟩
  · simp [hs, raiseEvent_idle, idleEngine]
  · simp [hs]

/-! ## The mode graph and progress (R116, R117) -/

/-- A pass that progresses changes the mode or the state, and the mode along an edge only. -/
theorem Progresses.mode_state {c c' : Ctx} (h : Progresses c c') :
    (ModeEdge c.eng.mode c'.eng.mode ∧ c'.eng.mode ≠ c.eng.mode) ∨
      (c'.eng.mode = c.eng.mode ∧ c'.eng.state ≠ c.eng.state) := by
  cases h with
  | enterCommand hm => simp [hm, ModeEdge, startingReception]
  | leaveCommand hm => simp [hm, ModeEdge, idleEngine]
  | leaveSecondary hm =>
    rcases leaveSecondary_lands c with h | h | h <;> simp [h, hm, ModeEdge, startingReception, idleEngine]
  | receive hm _ _ hr =>
    obtain ⟨hst, hmode | hwait⟩ := rxStep_progress_state_mode hr
    · exact .inr ⟨hmode, hst⟩
    · rcases hm with hm | hm | hm <;> simp [hwait, hm, ModeEdge]
  | @dispatch c1 b hm hr =>
    obtain ⟨hs, -, -, -⟩ := rxStep_complete hr
    rcases (dispatchCommandByte_lands b c1).mode_state with ⟨hm', hs'⟩ | ⟨hm', hs'⟩ <;>
      rcases hm with hm | hm <;> simp [hm', hs', hm, hs, ModeEdge]
  | dataToCommand hm => simp [hm, ModeEdge, startingReception]
  | @collect c1 b hm _ hr =>
    obtain ⟨hs, -, -, rfl⟩ := rxStep_complete hr
    rw [dataByte_eq]
    exact .inr ⟨collectedEngine_mode b _, by simp [hs, startingReception]⟩
  | abandonTurn hm => rcases hm with hm | hm <;> simp [hm, ModeEdge, idleEngine]
  | takeClock hm => simp [hm, ModeEdge]
  | startTalking hm =>
    rcases firstByte_lands c with ⟨c1, h⟩ | ⟨c1, h⟩ <;> simp [h, hm, ModeEdge, idleEngine]
  | abort hm => simp [abortTransmission_eq, hm, ModeEdge, idleEngine]
  | send hm _ ht =>
    obtain ⟨hst, hmode | hidle⟩ := txStep_progress_state_mode ht
    · exact .inr ⟨hmode, hst⟩
    · simp [hidle, hm, ModeEdge]
  | leaveWait hm => simp [hm, ModeEdge, idleEngine]

/-- A pass without progress leaves the record as it is. -/
theorem advance_noProgress_eng {c c' : Ctx} (h : advance c = (c', false)) : c'.eng = c.eng := by
  rcases advance_noProgress h with rfl | ⟨-, -, -, rfl⟩
  · rfl
  · rfl

/-! ## Single passes, rule by rule -/

theorem modeCommand_init_rel {a cl d : Level} {c : Ctx} (hs : c.eng.state = .init) (ha : a = .rel) :
    modeCommand a cl d c = (reinit c, true) := by rw [modeCommand, if_pos ⟨hs, ha⟩]

theorem modeSecondary_init_rel {a cl d : Level} {c : Ctx} (hs : c.eng.state = .init) (ha : a = .rel) :
    modeSecondary a cl d c = (leaveSecondary c, true) := by rw [modeSecondary, if_pos ⟨hs, ha⟩]

theorem leaveSecondary_of_listener {c : Ctx} (hk : SecondaryCode c.eng.cmd.code) (hr : c.eng.role = .listener) :
    leaveSecondary c = beginRx (setMode .data c) := by
  rw [leaveSecondary, if_pos ((isSecondary_iff _).2 hk), if_pos hr]

theorem leaveSecondary_of_talker {c : Ctx} (hk : SecondaryCode c.eng.cmd.code) (hr : c.eng.role = .talker) :
    leaveSecondary c = setState .idle (setMode .turnaround c) := by
  rw [leaveSecondary, if_pos ((isSecondary_iff _).2 hk), if_neg (by simp [hr])]

theorem leaveSecondary_of_none {c : Ctx} (hk : ¬ SecondaryCode c.eng.cmd.code) : leaveSecondary c = reinit c := by
  rw [leaveSecondary, if_neg (mt (isSecondary_iff _).1 hk)]

/-- ATN and CLK active start a command cycle, the command cleared and the role kept (R106, R111). -/
theorem enterCommand_after (c : Ctx) :
    CtxAfter (startingReception { c.eng with mode := .command, cmd := ⟨.noCommand, 0, []⟩ }) (withDat .act) c
      (beginRx (setMode .command (setCmd .empty c))) := beginRx_after _

/-- CLK is taken before DAT is let go (R113). -/
theorem takeClock_after (c : Ctx) :
    CtxAfter { c.eng with mode := .turnHold, state := .idle, time := 0 } (fun v => withDat .rel (withClk .act v)) c
      (setState .idle (setMode .turnHold (drive .dat .rel (drive .clk .act c)))) :=
  ⟨rfl, ((driveClk_after .act c).trans (driveDat_after .rel _) rfl).lines, rfl, rfl⟩

/-- The first read says that the stream is empty (R114 i). -/
theorem firstByte_of_eos {c : Ctx} (h : (c.eng.answers.head?.getD (Config.freeAnswer c.free)).eos = true) :
    firstByte c = reinit (readBackend (channelOfArg c.eng.cmd.arg) c).2 := by
  rw [firstByte_eq, if_pos (by rwa [readBackend_eq])]

/-- The first read brings a byte (R114, 44_byte_tx.md R170). -/
theorem firstByte_of_byte {c : Ctx} (h : (c.eng.answers.head?.getD (Config.freeAnswer c.free)).eos = false) :
    firstByte c = setState .init (setMode .talker (setTr (txLoad (c.eng.answers.head?.getD (Config.freeAnswer c.free)))
      (readBackend (channelOfArg c.eng.cmd.arg) c).2)) := by
  rw [firstByte_eq, if_neg (by rw [readBackend_eq]; simp [h]), readBackend_eq]

end Sys2Proof.Machine

open Sys2Proof Sys2Proof.Machine

/-- Settles O32: a pass that progresses changes the mode or the state. -/
theorem progressChangesTheSequencingState : Obligations.ProgressChangesTheSequencingState := by
  unfold Obligations.ProgressChangesTheSequencingState
  intro c c' h heq
  obtain ⟨hmode, hstate, -⟩ : c'.eng.mode = c.eng.mode ∧ c'.eng.state = c.eng.state ∧ _ := by simpa using heq
  rcases (advance_progress h).mode_state with ⟨-, hne⟩ | ⟨-, hne⟩
  · exact hne hmode
  · exact hne hstate

/-- Settles O39: without progress the record stays, and with it the mode does or takes an edge. -/
theorem passesFollowTheModeGraph : Obligations.PassesFollowTheModeGraph := by
  unfold Obligations.PassesFollowTheModeGraph
  intro c c' progressed h
  cases progressed with
  | false => exact .inl (congrArg Engine.mode (advance_noProgress_eng h))
  | true =>
    rcases (advance_progress h).mode_state with ⟨hedge, -⟩ | ⟨hsame, -⟩
    · exact .inr hedge
    · exact .inl hsame

/-- Settles O49: both rules are the first line of their mode's pass. -/
theorem attentionEndsCommandAndData : Obligations.AttentionEndsCommandAndData := by
  unfold Obligations.AttentionEndsCommandAndData
  intro c
  constructor
  · intro hm hs ha
    exact ⟨reinit c, by rw [advance_of_command hm, modeCommand_init_rel hs ha], reinit_after c⟩
  · intro hm ha hcl
    exact ⟨_, by rw [advance_of_data hm, modeData, if_pos ⟨ha, hcl⟩], enterCommand_after c⟩

/-- Settles O50: the first line of a pass in Secondary, by code and role. -/
theorem secondaryPartsByRole : Obligations.SecondaryPartsByRole := by
  unfold Obligations.SecondaryPartsByRole
  intro c hm hs ha
  rw [advance_of_secondary hm, modeSecondary_init_rel hs ha]
  refine ⟨fun hk hr => ?_, fun hk hr => ?_, fun hk => ?_⟩
  · rw [leaveSecondary_of_listener hk hr]
    exact ⟨_, rfl, beginRx_after (setMode .data c)⟩
  · rw [leaveSecondary_of_talker hk hr]
    rfl
  · rw [leaveSecondary_of_none hk]
    exact ⟨_, rfl, reinit_after c⟩

/-- Settles O51: the three branches of a pass in Turnaround. -/
theorem turnaroundTakesTheClock : Obligations.TurnaroundTakesTheClock := by
  unfold Obligations.TurnaroundTakesTheClock
  intro c hm
  rw [advance_of_turnaround hm, modeTurnaround]
  refine ⟨fun ha => ?_, fun ha hcl => ?_, fun ha hcl => ?_⟩
  · exact ⟨_, if_pos ha, reinit_after c⟩
  · exact ⟨_, by rw [if_neg (by simp [ha]), if_pos hcl], takeClock_after c⟩
  · rw [if_neg (by simp [ha]), if_neg (by simp [hcl])]

/-- Settles O52: the three branches of a pass in TurnHold, the last by the answer to the first read. -/
theorem turnHoldFetchesTheFirstByte : Obligations.TurnHoldFetchesTheFirstByte := by
  unfold Obligations.TurnHoldFetchesTheFirstByte
  rintro c r hm rfl
  rw [advance_of_turnHold hm, modeTurnHold]
  refine ⟨fun ha => ?_, fun ha ht => ?_, fun ha ht hr => ?_, fun ha ht hr => ?_⟩
  · exact ⟨_, if_pos ha, reinit_after c⟩
  · rw [if_neg (by simp [ha]), if_neg (by simpa [timeReached_iff] using ht)]
  · rw [if_neg (by simp [ha]), if_pos ((timeReached_iff _ _).2 ht), firstByte_of_byte hr, readBackend_eq]
    exact ⟨_, rfl⟩
  · rw [if_neg (by simp [ha]), if_pos ((timeReached_iff _ _).2 ht), firstByte_of_eos hr, readBackend_eq]
    exact ⟨_, rfl, (reinit_after _).lines, rfl, rfl⟩
end

section
/-! PROOFS. The loop of passes ends (41_mode_dispatcher.md R100, R117): a rank that every pass with progress lowers.
What a tick and the step of a completed command byte then answer. -/

namespace Sys2Proof.Machine

/-! ## A line that a change does not reach -/

/-- Driving another line leaves a merged line as it was. -/
theorem drive_merged {l l' : Line} {lv : Level} {c : Ctx} (hw : WiredAnd c.bus) (hl : l' ≠ l) :
    (drive l lv c).bus.merged.get l' = c.bus.merged.get l' :=
  (drive_after l lv c).lines.merged_same hw fun v => SignalSet.get_set_other v l l' lv hl

/-- A new reception drives DAT only. -/
theorem beginRx_atn_clk {c : Ctx} (hw : WiredAnd c.bus) :
    (beginRx c).bus.merged.atn = c.bus.merged.atn ∧ (beginRx c).bus.merged.clk = c.bus.merged.clk :=
  have h := (beginRx_after c).lines
  ⟨h.merged_same hw (l := .atn) fun _ => rfl, h.merged_same hw (l := .clk) fun _ => rfl⟩

/-- Letting go of all lines leaves a released ATN released. -/
theorem reinit_atn_rel {c : Ctx} (hw : WiredAnd c.bus) (ha : c.bus.merged.atn = .rel) :
    (reinit c).bus.merged.atn = .rel :=
  (reinit_after c).lines.rel_of_rel hw (l := .atn) (fun _ _ => rfl) ha

/-! ## The rank -/

/-- How many passes a receive state is from rest, `start` being the number for state Init. A state that waits for the
level CLK has is not at rest; Frame stands above every start, and only BitDone and BitWait stand above Frame. -/
def receiveRank (start : Nat) (cl : Level) : Handshake → Nat
  | .init => start
  | .ready => 1
  | .eoi => if cl = .act then 1 else 0
  | .bitWait => if cl = .act then 0 else 32
  | .bitDone => 31
  | .frame => 30
  | .idle => 0
  | .frameWait => 0

/-- The same for a transmit state: two passes a bit, and one each for the states around them. A listener that holds DAT
stops the talker in Ready. -/
def transmitRank (cursor : Nat) (d : Level) : Handshake → Nat
  | .init => if d = .act then 3 else 24
  | .ready => if d = .act then 2 else 23
  | .eoi => 8 + 2 * (7 - cursor)
  | .bitWait => 7 + 2 * (7 - cursor)
  | .bitDone => 6 + 2 * (7 - cursor)
  | .frame => if d = .act then 5 else 2
  | .frameWait => if d = .act then 4 else 25
  | .idle => 2

/-- The number of passes a reception in Command that has just begun can still make. -/
def commandStart (v : SignalSet) : Nat := if v.atn = .act ∧ v.clk = .act then 0 else 2

/-- The same in Secondary, where a released ATN leads on to the turn (R109). -/
def secondaryStart (v : SignalSet) : Nat := if v.atn = .rel then 28 else 2

/-- The rank of a context: an upper bound on the passes with progress that can follow, from the mode, the state, the
cursor and the levels on the bus. -/
def passRank (c : Ctx) : Nat :=
  match c.eng.mode with
  | .idle => 1
  | .wait => 2
  | .command => receiveRank (commandStart c.bus.merged) c.bus.merged.clk c.eng.state
  | .secondary => receiveRank (secondaryStart c.bus.merged) c.bus.merged.clk c.eng.state
  | .data =>
    if c.bus.merged.atn = .act ∧ c.bus.merged.clk = .act then 1 else receiveRank 2 c.bus.merged.clk c.eng.state
  | .turnaround => 27
  | .turnHold => 26
  | .talker => transmitRank c.eng.tr.cursor c.bus.merged.dat c.eng.state

theorem commandStart_le (v : SignalSet) : commandStart v ≤ 2 := by unfold commandStart; split <;> decide

theorem commandStart_of_clk_rel {v : SignalSet} (h : v.clk = .rel) : 2 ≤ commandStart v := by simp [commandStart, h]

theorem secondaryStart_bounds (v : SignalSet) : 2 ≤ secondaryStart v ∧ secondaryStart v ≤ 28 := by
  unfold secondaryStart
  split <;> decide

theorem transmitRank_bounds (k : Nat) (d : Level) (st : Handshake) :
    2 ≤ transmitRank k d st ∧ transmitRank k d st ≤ 25 := by
  cases st <;> simp only [transmitRank] <;> (try split) <;> omega

theorem receiveRank_le {x : Nat} (hx : x ≤ 32) (cl : Level) (st : Handshake) : receiveRank x cl st ≤ 32 := by
  cases st <;> simp only [receiveRank] <;> (try split) <;> omega

theorem passRank_le (c : Ctx) : passRank c ≤ 32 := by
  unfold passRank
  split
  · decide
  · decide
  · exact receiveRank_le ((commandStart_le _).trans (by decide)) _ _
  · exact receiveRank_le ((secondaryStart_bounds _).2.trans (by decide)) _ _
  · split
    · decide
    · exact receiveRank_le (by decide) _ _
  · decide
  · decide
  · exact (transmitRank_bounds _ _ _).2.trans (by decide)

/-! ## Each machine lowers its rank -/

/-- A receive step that progresses is one pass nearer to rest on unchanged ATN and CLK, or gives up and waits. -/
theorem rxStep_progress_lowers {d : Level} {c c' : Ctx} {x : Nat} (hw : WiredAnd c.bus)
    (hx : c.bus.merged.clk = .rel → 2 ≤ x) (h : rxStep c.bus.merged.clk d c = (c', .progress)) :
    (c'.eng.mode = c.eng.mode ∧ c'.bus.merged.atn = c.bus.merged.atn ∧ c'.bus.merged.clk = c.bus.merged.clk ∧
      receiveRank x c.bus.merged.clk c'.eng.state < receiveRank x c.bus.merged.clk c.eng.state) ∨
    (c'.eng.mode = .wait ∧ 2 < receiveRank x c.bus.merged.clk c.eng.state) := by
  have hatn : ∀ lv, (drive .dat lv c).bus.merged.atn = c.bus.merged.atn :=
    fun lv => drive_merged hw (l' := .atn) (by decide)
  have hclk : ∀ lv, (drive .dat lv c).bus.merged.clk = c.bus.merged.clk :=
    fun lv => drive_merged hw (l' := .clk) (by decide)
  rcases rxStep_progress h with ⟨hs, hcl, rfl⟩ | ⟨hs, hcl, rfl⟩ | ⟨hs, hcl, -, rfl⟩ | ⟨hs, hcl, -, rfl⟩ |
    ⟨hs, hcl, rfl⟩ | ⟨hs, hcl, -, rfl⟩ | ⟨hs, hcl, -, rfl⟩ | ⟨hs, hcl, -, rfl⟩
  · exact .inl ⟨rfl, hatn _, hclk _, by have := hx hcl; simp [receiveRank, hs]; omega⟩
  · exact .inl ⟨rfl, rfl, rfl, by simp [receiveRank, hs, hcl]⟩
  · exact .inl ⟨rfl, hatn _, hclk _, by simp [receiveRank, hs, hcl]⟩
  · exact .inl ⟨rfl, hatn _, hclk _, by simp [receiveRank, hs, hcl]⟩
  · exact .inl ⟨rfl, rfl, rfl, by simp [receiveRank, hs, hcl]⟩
  · exact .inl ⟨rfl, hatn _, hclk _, by simp [receiveRank, hs]⟩
  · exact .inl ⟨rfl, rfl, rfl, by simp [receiveRank, hs, hcl]⟩
  · exact .inr ⟨rfl, by simp [receiveRank, hs]⟩

/-- A transmit step that progresses is one pass nearer to rest, or ends in Idle. -/
theorem txStep_progress_lowers {c c' : Ctx} (hw : WiredAnd c.bus) (h : txStep c.bus.merged.dat c = (c', true)) :
    (c'.eng.mode = c.eng.mode ∧ transmitRank c'.eng.tr.cursor c'.bus.merged.dat c'.eng.state <
      transmitRank c.eng.tr.cursor c.bus.merged.dat c.eng.state) ∨ c'.eng.mode = .idle := by
  have hdat : (drive .clk .rel c).bus.merged.dat = c.bus.merged.dat := drive_merged hw (l' := .dat) (by decide)
  rcases txStep_progress h with ⟨hs, rfl⟩ | ⟨hs, hd, -, rfl⟩ | ⟨hs, hd, -, rfl⟩ | ⟨hs, hd, -, rfl⟩ | ⟨hs, -, rfl⟩ |
    ⟨hs, -, h8, rfl⟩ | ⟨hs, -, h8, rfl⟩ | ⟨hs, -, -, rfl⟩ | ⟨hs, hd, -, rfl⟩ | ⟨hs, -, -, rfl⟩ | ⟨hs, -, rfl⟩
  · refine .inl ⟨rfl, ?_⟩
    rw [setState_bus, hdat, hs]
    cases c.bus.merged.dat <;> simp [transmitRank]
  · exact .inl ⟨rfl, by simp [transmitRank, hs, hd]; omega⟩
  · exact .inl ⟨rfl, by simp [transmitRank, hs, hd]; omega⟩
  · exact .inl ⟨rfl, by simp [transmitRank, hs]⟩
  · exact .inl ⟨rfl, by simp [transmitRank, hs]⟩
  · exact .inl ⟨rfl, by simp [transmitRank, hs]; omega⟩
  · exact .inl ⟨rfl, by simp only [transmitRank, hs, setState_state]; split <;> omega⟩
  · exact .inr rfl
  · rcases txNextByte_lands (setTr (markReady c.eng.tr) c) with ⟨c1, hn⟩ | ⟨c1, hn, hm, hb⟩
    · exact .inr (by rw [hn]; rfl)
    · refine .inl ⟨by rw [hn]; exact hm, ?_⟩
      have hd1 : c1.bus.merged.dat = .act := by rw [hb]; exact hd
      simp [hn, transmitRank, hs, hd, hd1]
  · exact .inr rfl
  · refine .inl ⟨rfl, ?_⟩
    rw [setState_bus, hs]
    cases c.bus.merged.dat <;> simp [transmitRank]

/-! ## Every pass with progress lowers the rank -/

section
variable {c : Ctx}

theorem passRank_idle (h : c.eng.mode = .idle) : passRank c = 1 := by rw [passRank, h]

theorem passRank_wait (h : c.eng.mode = .wait) : passRank c = 2 := by rw [passRank, h]

theorem passRank_turnHold (h : c.eng.mode = .turnHold) : passRank c = 26 := by rw [passRank, h]

theorem passRank_turnaround (h : c.eng.mode = .turnaround) : passRank c = 27 := by rw [passRank, h]

theorem passRank_talker (h : c.eng.mode = .talker) :
    passRank c = transmitRank c.eng.tr.cursor c.bus.merged.dat c.eng.state := by rw [passRank, h]

theorem passRank_command (h : c.eng.mode = .command) :
    passRank c = receiveRank (commandStart c.bus.merged) c.bus.merged.clk c.eng.state := by rw [passRank, h]

theorem passRank_secondary (h : c.eng.mode = .secondary) :
    passRank c = receiveRank (secondaryStart c.bus.merged) c.bus.merged.clk c.eng.state := by rw [passRank, h]

theorem passRank_data_attention (h : c.eng.mode = .data) (ha : c.bus.merged.atn = .act ∧ c.bus.merged.clk = .act) :
    passRank c = 1 := by rw [passRank, h]; exact if_pos ha

theorem passRank_data (h : c.eng.mode = .data) (ha : ¬ (c.bus.merged.atn = .act ∧ c.bus.merged.clk = .act)) :
    passRank c = receiveRank 2 c.bus.merged.clk c.eng.state := by rw [passRank, h]; exact if_neg ha

end

/-- A command cycle that begins with ATN and CLK active is at rest at once. -/
theorem passRank_enterCommand {c : Ctx} (hw : WiredAnd c.bus) (ha : c.bus.merged.atn = .act)
    (hcl : c.bus.merged.clk = .act) : passRank (beginRx (setMode .command (setCmd .empty c))) = 0 := by
  obtain ⟨hatn, hclk⟩ := beginRx_atn_clk (c := setMode .command (setCmd .empty c)) hw
  rw [passRank_command rfl, commandStart, if_pos ⟨hatn.trans ha, hclk.trans hcl⟩]
  rfl

/-- A reception that begins in Data makes two passes at most. -/
theorem passRank_beginRx_data {c : Ctx} (hm : c.eng.mode = .data) : passRank (beginRx c) ≤ 2 := by
  by_cases h : (beginRx c).bus.merged.atn = .act ∧ (beginRx c).bus.merged.clk = .act
  · rw [passRank_data_attention (c := beginRx c) hm h]
    decide
  · exact (passRank_data (c := beginRx c) hm h).le

/-- A receive step that progresses lowers the rank in every mode whose rank is `receiveRank` from a start of its own. -/
theorem passRank_receive_lt {c c' : Ctx} {d : Level} {start : SignalSet → Nat} (hw : WiredAnd c.bus)
    (hx : c.bus.merged.clk = .rel → 2 ≤ start c.bus.merged) (h : rxStep c.bus.merged.clk d c = (c', .progress))
    (hrank : ∀ x : Ctx, x.eng.mode = c.eng.mode → x.bus.merged.atn = c.bus.merged.atn →
      x.bus.merged.clk = c.bus.merged.clk →
      passRank x = receiveRank (start c.bus.merged) c.bus.merged.clk x.eng.state) :
    passRank c' < passRank c := by
  rw [hrank c rfl rfl rfl]
  rcases rxStep_progress_lowers hw hx h with ⟨hm, ha, hcl, hlt⟩ | ⟨hm, hlt⟩
  · rwa [hrank c' hm ha hcl]
  · rwa [passRank_wait hm]

theorem Progresses.lowers {c c' : Ctx} (hw : WiredAnd c.bus) (h : Progresses c c') : passRank c' < passRank c := by
  cases h with
  | enterCommand hm ha hcl =>
    rw [passRank_enterCommand hw ha hcl, passRank_idle hm]
    decide
  | leaveCommand hm hs ha =>
    have ha : c.bus.merged.atn = .rel := ha
    rw [passRank_idle rfl, passRank_command hm, hs]
    simp [receiveRank, commandStart, ha]
  | leaveSecondary hm hs ha =>
    have hc : passRank c = 28 := by
      rw [passRank_secondary hm, hs]
      exact if_pos ha
    rw [hc]
    rcases leaveSecondary_lands c with h | h | h <;> rw [h]
    · exact (passRank_beginRx_data rfl).trans_lt (by decide)
    · rw [passRank_turnaround rfl]
      decide
    · rw [passRank_idle rfl]
      decide
  | receive hm hdata _ hr =>
    rcases hm with hm | hm | hm
    · refine passRank_receive_lt hw (start := commandStart) commandStart_of_clk_rel hr fun x hx ha hcl => ?_
      rw [passRank_command (hx.trans hm), commandStart, commandStart, ha, hcl]
    · have hstart : 2 ≤ secondaryStart c.bus.merged := (secondaryStart_bounds _).1
      refine passRank_receive_lt hw (start := secondaryStart) (fun _ => hstart) hr fun x hx ha hcl => ?_
      rw [passRank_secondary (hx.trans hm), secondaryStart, secondaryStart, ha, hcl]
    · refine passRank_receive_lt hw (start := fun _ => 2) (fun _ => le_rfl) hr fun x hx ha hcl => ?_
      rw [passRank_data (hx.trans hm) (by rw [ha, hcl]; exact hdata hm), hcl]
  | @dispatch c1 b hm hr =>
    obtain ⟨hs, -, -, -⟩ := rxStep_complete hr
    have hc : passRank c = 30 := by rcases hm with hm | hm <;> simp [passRank, hm, hs, receiveRank]
    rw [hc]
    have hl := dispatchCommandByte_lands b c1
    generalize dispatchCommandByte b c1 = c' at hl
    cases hl with
    | waits c2 =>
      rw [passRank_wait rfl]
      decide
    | receives c2 hm2 =>
      rw [passRank_secondary (c := beginRx c2) hm2]
      exact (secondaryStart_bounds _).2.trans_lt (by decide)
  | dataToCommand hm ha hcl =>
    rw [passRank_enterCommand hw ha hcl, passRank_data_attention hm ⟨ha, hcl⟩]
    decide
  | @collect c1 b hm ha hr =>
    obtain ⟨hs, -, -, hc1⟩ := rxStep_complete hr
    have hm1 : c1.eng.mode = .data := by rw [hc1]; exact hm
    rw [dataByte_eq, passRank_data hm ha, hs]
    calc passRank (beginRx _) ≤ 2 := passRank_beginRx_data ((collectedEngine_mode b c1.eng).trans hm1)
      _ < 30 := by decide
  | abandonTurn hm =>
    rw [passRank_idle rfl]
    rcases hm with hm | hm <;> simp [passRank, hm]
  | takeClock hm =>
    rw [passRank_turnHold rfl, passRank_turnaround hm]
    decide
  | startTalking hm =>
    rw [passRank_turnHold hm]
    rcases firstByte_lands c with ⟨c1, h⟩ | ⟨c1, h⟩ <;> rw [h]
    · rw [passRank_idle rfl]
      decide
    · rw [passRank_talker rfl]
      exact (transmitRank_bounds _ _ _).2.trans_lt (by decide)
  | abort hm =>
    rw [abortTransmission_eq, passRank_idle rfl, passRank_talker hm]
    exact (transmitRank_bounds _ _ _).1
  | send hm _ ht =>
    rw [passRank_talker hm]
    rcases txStep_progress_lowers hw ht with ⟨hm', hlt⟩ | hm'
    · rwa [passRank_talker (hm'.trans hm)]
    · rw [passRank_idle hm']
      exact (transmitRank_bounds _ _ _).1
  | leaveWait hm =>
    rw [passRank_idle rfl, passRank_wait hm]
    decide

/-! ## The loop and the tick -/

/-- As many passes as the rank says, and one without progress, are enough. -/
theorem runPasses_of_rank {n : Nat} {c : Ctx} (hw : WiredAnd c.bus) (hn : passRank c < n) :
    ∃ c', runPasses n c = some c' := by
  induction n generalizing c with
  | zero => omega
  | succ n ih =>
    cases ha : advance c with
    | mk c1 p =>
      cases p with
      | false => exact ⟨c1, runPasses_stop ha⟩
      | true =>
        have hlt := (advance_progress ha).lowers hw
        obtain ⟨c', hc'⟩ := ih ((untouched_advance c c1 true ha).wired hw) (by omega)
        exact ⟨c', (runPasses_pass ha).trans hc'⟩

/-- On a multiplexer that meets the wired-AND the limit on passes is never met (log 8). -/
theorem runPasses_ends {c : Ctx} (hw : WiredAnd c.bus) : ∃ c', runPasses passLimit c = some c' :=
  runPasses_of_rank hw ((passRank_le c).trans_lt (by decide))

/-- What the passes of a tick start from: the engine loaded, and the elapsed time added to its own. -/
abbrev tickStart (k : Nat) (s : State) (E : Engine) : Ctx := addTime k ⟨s.cfg, s.bus, E, s.free⟩

/-- A tick's passes after its first are the passes of a loop that starts there. -/
theorem runPasses_after_pass {c c1 c' : Ctx} (h : advance c = (c1, true)) (hr : runPasses passLimit c = some c') :
    runPasses passLimit c1 = some c' :=
  runPasses_mono (n := 99) ((runPasses_pass h).symm.trans hr) (by decide)

/-! ## The step of a completed command byte -/

/-- A context of the machine's own parameters is what is loaded again after it has been stored. -/
theorem Ctx.eta_cfg {c : Ctx} {cfg : Config} (h : c.cfg = cfg) : (⟨cfg, c.bus, c.eng, c.free⟩ : Ctx) = c := by
  subst h
  rfl

/-- A byte alone that decodes to a command is a command byte. -/
theorem decodeCommand_of_decode {b : Byte} {i : Instr} {rest : List Byte} (h : decode [b] = .ok (i, rest))
    (hi : i.isCommand = true) : decodeCommand b = .ok i := by
  simp only [decode] at h
  split at h
  · rw [decodeOperation_isCommand h] at hi
    cases hi
  · cases hb : decodeCommand b with
    | ok j =>
      rw [hb] at h
      cases h
      rfl
    | error err =>
      rw [hb] at h
      cases h

/-- The rest of a tick from the context that a command has left in the machine. -/
theorem finishTick_storeCtx {e : Nat} {s : State} {E : Engine} {c c' : Ctx} {d : Option Nat}
    (he : s.engines[e]? = some E) (hcfg : c.cfg = s.cfg) (h : runPasses passLimit c = some c') :
    finishTick e (.next { storeCtx e c s with dispatching := d }) =
      .next { storeCtx e c' s with dispatching := d, result := .tick (.cycles s.cfg.tickCycles) } := by
  have hload : loadCtx e { storeCtx e c s with dispatching := d } = some c := by
    rw [loadCtx_of_engine (E := c.eng) (List.getElem?_set_self (List.getElem?_eq_some_iff.1 he).1)]
    exact congrArg some (Ctx.eta_cfg hcfg)
  rw [finishTick]
  simp only [hload, settle, h]
  simp [storeCtx, List.set_set]

/-- The step of a byte that waits to be dispatched on engine `e`, command or not: the byte, then the passes. -/
theorem step_dispatched {s : State} {e : Nat} {E : Engine} {c : Ctx} (hd : s.dispatching = some e)
    (he : s.engines[e]? = some E)
    (h : runPasses passLimit (dispatchCommandByte E.tr.value ⟨s.cfg, s.bus, E, s.free⟩) = some c) :
    step s = .next { storeCtx e c s with dispatching := none, result := .tick (.cycles s.cfg.tickCycles) } := by
  have hcfg := (untouched_dispatchCommandByte E.tr.value ⟨s.cfg, s.bus, E, s.free⟩).cfg
  rw [step, fetch, hd]
  simp only [he]
  cases hb : decodeCommand E.tr.value with
  | ok i =>
    rw [dispatchCommandByte, hb] at h hcfg
    simp only
    rw [exec_command (decodeCommand_isCommand hb), onDispatching_eq hd he]
    exact finishTick_storeCtx he hcfg h
  | error err =>
    rw [dispatchCommandByte, hb] at h hcfg
    simp only
    rw [execInvalidByte, onDispatching_eq hd he]
    exact finishTick_storeCtx he hcfg h

/-- The record of an engine whose receive machine has just returned `Complete(b)` (43_byte_rx.md R157). -/
def byteCompleted (E : Engine) : Engine := { E with state := .idle, time := 0, tr := { E.tr with ready := true } }

/-- A receive step that has held the frame acknowledge long enough delivers the byte (R157). -/
theorem rxStep_delivers {cl d : Level} {c : Ctx} (hs : c.eng.state = .frame) (ht : c.cfg.tFrameHold ≤ c.eng.time) :
    rxStep cl d c = ({ c with eng := byteCompleted c.eng }, .complete c.eng.tr.value) := by
  rw [rxStep, hs]
  exact if_pos ((timeReached_iff _ _).2 ht)

/-- In Command and Secondary the byte is dispatched in the same pass (R107, R108). -/
theorem advance_dispatches {c : Ctx} (hm : c.eng.mode = .command ∨ c.eng.mode = .secondary) (hs : c.eng.state = .frame)
    (ht : c.cfg.tFrameHold ≤ c.eng.time) :
    advance c = (dispatchCommandByte c.eng.tr.value { c with eng := byteCompleted c.eng }, true) := by
  rcases hm with hm | hm
  · rw [advance_of_command hm, modeCommand, if_neg (by simp [hs]), receiveCommand, rxStep_delivers hs ht]
  · rw [advance_of_secondary hm, modeSecondary, if_neg (by simp [hs]), receiveCommand, rxStep_delivers hs ht]

end Sys2Proof.Machine

open Sys2Proof Sys2Proof.Machine

/-- Settles O31: the rank bounds the passes, and the tick stores what they leave. -/
theorem tickRunsItsPassesToTheEnd : Obligations.TickRunsItsPassesToTheEnd := by
  unfold Obligations.TickRunsItsPassesToTheEnd
  intro s e k E he hm hw
  obtain ⟨c, hc⟩ := runPasses_ends (c := tickStart k s E) hw
  exact ⟨c, settles_of_runPasses hc, execTick_eq he hm hc⟩

/-- Settles O20: the command leaves the wired-AND in place, so the passes after it end. -/
theorem stepRunsTheCompletedCommand : Obligations.StepRunsTheCompletedCommand := by
  unfold Obligations.StepRunsTheCompletedCommand
  intro s t e E i hd he hdec hi hx hw
  have hb := decodeCommand_of_decode hdec hi
  have hrun := untouched_runCommand i ⟨s.cfg, s.bus, E, s.free⟩
  obtain ⟨c, hc⟩ := runPasses_ends (hrun.wired hw)
  have hstep := step_dispatched hd he (c := c) (by rw [dispatchCommandByte, hb]; exact hc)
  rw [exec_command hi, onDispatching_eq hd he] at hx
  cases hx
  refine ⟨_, c, List.getElem?_set_self (List.getElem?_eq_some_iff.1 he).1, ?_, ?_⟩
  · exact (Ctx.eta_cfg hrun.cfg).symm ▸ settles_of_runPasses hc
  · rw [hstep]
    simp [storeCtx, List.set_set]

/-- Settles O22: the first pass of the tick dispatches the byte, and the passes after it are the step's. -/
theorem tickRunsACompletedCommandAsTheInstruction : Obligations.TickRunsACompletedCommandAsTheInstruction := by
  unfold Obligations.TickRunsACompletedCommandAsTheInstruction
  intro s t e k E he hclock hd hw hm hs ht hx
  obtain ⟨E', he', ⟨hoff, -⟩ | ⟨-, c, hc, rfl⟩⟩ := execTick_next hx
  · simp [hclock] at hoff
  obtain rfl : E = E' := Option.some.inj (he.symm.trans he')
  have hfirst := advance_dispatches (c := tickStart k s E) hm hs ht
  have hrest : runPasses passLimit (dispatchCommandByte E.tr.value ⟨s.cfg, s.bus, byteCompleted E, s.free⟩) = some c :=
    runPasses_after_pass hfirst hc
  have hget : (s.engines.set e (byteCompleted E))[e]? = some (byteCompleted E) :=
    List.getElem?_set_self (List.getElem?_eq_some_iff.1 he).1
  have hstep := step_dispatched
    (s := { s with dispatching := some e, engines := s.engines.set e (byteCompleted E) }) rfl hget hrest
  refine hstep.trans ?_
  simp [storeCtx, List.set_set, hd]
end

section
/-! PROOFS. SRQ and RST are never read (41_mode_dispatcher.md R101, 70_reset_and_hazards.md R222): every rule of the
engine does the same on a multiplexer in which the two lines are hidden. -/

namespace Sys2Proof

/-- The Signal Set with SRQ and RST hidden. -/
def SignalSet.hide (v : SignalSet) : SignalSet := { v with srq := .rel, rst := .rel }

theorem SignalSet.hide_get (v : SignalSet) (l : Line) :
    v.hide.get l = if l = .srq ∨ l = .rst then .rel else v.get l := by
  cases l <;> rfl

namespace Machine

/-! ## Hiding the two lines -/

/-- A slot with its own SRQ and RST hidden. -/
def Slot.hide (sl : Slot) : Slot := { sl with own := sl.own.hide }

/-- A multiplexer with SRQ and RST hidden, in every slot and in `merged`. -/
def Bus.hide (b : Bus) : Bus := ⟨b.slots.map Slot.hide, b.merged.hide⟩

/-- A context with SRQ and RST hidden. -/
def Ctx.hide (c : Ctx) : Ctx := { c with bus := c.bus.hide }

theorem sameHandshakeLines_iff (v w : SignalSet) : SameHandshakeLines v w ↔ v.hide = w.hide := by
  simp [SignalSet.hide, SameHandshakeLines]

/-- Two multiplexers differ in SRQ and RST at most exactly when they are the same with the two lines hidden. -/
theorem sameButSrqRst_iff (b b' : Bus) : SameButSrqRst b b' ↔ b.hide = b'.hide := by
  have hslots : List.Forall₂ (fun sl sl' : Slot => sl.attached = sl'.attached ∧ sl.unit = sl'.unit ∧
      SameHandshakeLines sl.own sl'.own) b.slots b'.slots ↔ b.slots.map Slot.hide = b'.slots.map Slot.hide := by
    rw [← List.forall₂_eq_eq_eq, List.forall₂_map_left_iff, List.forall₂_map_right_iff]
    simp only [Slot.hide, Slot.mk.injEq, sameHandshakeLines_iff]
  rw [SameButSrqRst, hslots, Bus.hide, Bus.hide, Bus.mk.injEq, sameHandshakeLines_iff, and_comm]

theorem Slot.hide_leavesRel (sl : Slot) (l : Line) :
    sl.hide.leavesRel l = if l = .srq ∨ l = .rst then true else sl.leavesRel l := by
  unfold Slot.leavesRel Slot.hide
  rw [SignalSet.hide_get]
  split <;> simp

theorem mergedOf_hide (slots : List Slot) : mergedOf (slots.map Slot.hide) = (mergedOf slots).hide := by
  refine SignalSet.ext_get _ _ fun l => ?_
  rw [mergedOf_get, SignalSet.hide_get, mergedOf_get, wiredAnd, wiredAnd, List.all_map]
  simp only [Function.comp_def, Slot.hide_leavesRel]
  split <;> simp

theorem recompute_hide (b : Bus) : recompute b.hide = (recompute b).hide := by
  rw [recompute, recompute, Bus.hide, Bus.hide, mergedOf_hide]

/-- Driving a line commutes with the hiding, but for pulling SRQ or RST, which no rule does (R103). -/
theorem pinWrite_hide {p : Nat} {l : Line} {lv : Level} (h : lv = .rel ∨ (l ≠ .srq ∧ l ≠ .rst)) (b : Bus) :
    pinWrite p l lv b.hide = (pinWrite p l lv b).hide := by
  have hset : ∀ v : SignalSet, v.hide.set l lv = (v.set l lv).hide := fun v => by
    cases l <;> simp_all [SignalSet.set, SignalSet.hide]
  have hslot : ∀ sl : Slot, ({ sl.hide with own := sl.hide.own.set l lv } : Slot) =
      ({ sl with own := sl.own.set l lv } : Slot).hide := fun sl => congrArg (Slot.mk sl.attached sl.unit) (hset sl.own)
  have hslots : ((b.slots.map Slot.hide).modify p fun sl => { sl with own := sl.own.set l lv }) =
      (b.slots.modify p fun sl => { sl with own := sl.own.set l lv }).map Slot.hide := by
    refine List.ext_getElem? fun q => ?_
    rw [List.getElem?_modify, List.getElem?_map, List.getElem?_map, List.getElem?_modify]
    cases b.slots[q]? with
    | none => rfl
    | some sl =>
      by_cases hq : p = q
      · simp [hq, hslot]
      · simp [hq]
  rw [pinWrite, pinWrite, ← recompute_hide, writeOwn, writeOwn, Bus.hide, Bus.hide, hslots]

/-! ## The shared operations on an engine -/

section
variable (c : Ctx)

@[simp] theorem hide_cfg : c.hide.cfg = c.cfg := rfl
@[simp] theorem hide_eng : c.hide.eng = c.eng := rfl
@[simp] theorem hide_free : c.hide.free = c.free := rfl

@[simp] theorem setState_hide (st : Handshake) : setState st c.hide = (setState st c).hide := rfl
@[simp] theorem setMode_hide (m : Mode) : setMode m c.hide = (setMode m c).hide := rfl
@[simp] theorem setRole_hide (r : Role) : setRole r c.hide = (setRole r c).hide := rfl
@[simp] theorem setCmd_hide (k : ParsedCommand) : setCmd k c.hide = (setCmd k c).hide := rfl
@[simp] theorem recordCommand_hide (k : CommandCode) (a : BitVec 5) :
    recordCommand k a c.hide = (recordCommand k a c).hide := rfl
@[simp] theorem setParam_hide (bs : List Byte) : setParam bs c.hide = (setParam bs c).hide := rfl
@[simp] theorem setTr_hide (t : Transceiver) : setTr t c.hide = (setTr t c).hide := rfl
@[simp] theorem bumpCursor_hide : bumpCursor c.hide = (bumpCursor c).hide := rfl
@[simp] theorem logEvent_hide (ev : Event) : logEvent ev c.hide = (logEvent ev c).hide := rfl
@[simp] theorem callBackend_hide (k : BackendCall) : callBackend k c.hide = (callBackend k c).hide := rfl

theorem drive_hide {l : Line} {lv : Level} (h : lv = .rel ∨ (l ≠ .srq ∧ l ≠ .rst)) :
    drive l lv c.hide = (drive l lv c).hide := by
  simp [drive, Ctx.hide, pinWrite_hide h]

@[simp] theorem driveDat_hide (lv : Level) : drive .dat lv c.hide = (drive .dat lv c).hide :=
  drive_hide c (.inr (by decide))

@[simp] theorem driveClk_hide (lv : Level) : drive .clk lv c.hide = (drive .clk lv c).hide :=
  drive_hide c (.inr (by decide))

@[simp] theorem driveRel_hide (l : Line) : drive l .rel c.hide = (drive l .rel c).hide := drive_hide c (.inl rfl)

@[simp] theorem releaseAll_hide : releaseAll c.hide = (releaseAll c).hide := by simp [releaseAll]
@[simp] theorem reinit_hide : reinit c.hide = (reinit c).hide := by simp [reinit]
@[simp] theorem toWait_hide : toWait c.hide = (toWait c).hide := by simp [toWait]
@[simp] theorem beginRx_hide : beginRx c.hide = (beginRx c).hide := by simp [beginRx]
@[simp] theorem putBit_hide : putBit c.hide = (putBit c).hide := by simp [putBit]
@[simp] theorem raiseEvent_hide (ev : Event) (l : Landing) : raiseEvent ev l c.hide = (raiseEvent ev l c).hide := by
  cases l <;> simp [raiseEvent]

@[simp] theorem readBackend_hide (ch : Channel) :
    readBackend ch c.hide = ((readBackend ch c).1, (readBackend ch c).2.hide) := by
  simp [readBackend_eq, Ctx.hide]

/-! ## The commands and the two machines -/

@[simp] theorem afterAddressing_hide : afterAddressing c.hide = (afterAddressing c).hide := by
  simp [afterAddressing, apply_ite Ctx.hide]

@[simp] theorem processSecondary_hide (k : CommandCode) (ch : Channel) :
    processSecondary k ch c.hide = (processSecondary k ch c).hide := by simp [processSecondary]

@[simp] theorem straySecondary_hide (k : CommandCode) (ch : Channel) :
    straySecondary k ch c.hide = (straySecondary k ch c).hide := by simp [straySecondary]

theorem runCommand_hide (i : Instr) : runCommand i c.hide = (runCommand i c).hide := by
  cases i with
  | reset | attach | detach | merged | recompute | pinWrite | pinRead | tick => rfl
  | listen | talk => simp [runCommand, listenAt, talkAt]
  | unlisten | untalk => simp [runCommand, unlistenAt, untalkAt]
  | openChannel | closeChannel | reopenChannel =>
    simp [runCommand, openAt, closeAt, reopenAt, apply_ite Ctx.hide]

@[simp] theorem dispatchCommandByte_hide (b : Byte) :
    dispatchCommandByte b c.hide = (dispatchCommandByte b c).hide := by
  unfold dispatchCommandByte
  cases decodeCommand b with
  | ok i => exact runCommand_hide c i
  | error err => exact raiseEvent_hide c _ _

@[simp] theorem executeDeferred_hide : executeDeferred c.hide = (executeDeferred c).hide := by
  rw [executeDeferred, executeDeferred, hide_eng]
  cases c.eng.cmd.code <;> rfl

@[simp] theorem dataByte_hide (b : Byte) : dataByte b c.hide = (dataByte b c).hide := by
  simp [dataByte, apply_ite Ctx.hide]

@[simp] theorem leaveSecondary_hide : leaveSecondary c.hide = (leaveSecondary c).hide := by
  simp [leaveSecondary, apply_ite Ctx.hide]

@[simp] theorem firstByte_hide : firstByte c.hide = (firstByte c).hide := by
  simp [firstByte_eq, apply_ite Ctx.hide]

@[simp] theorem txNextByte_hide : txNextByte c.hide = (txNextByte c).hide := by
  simp [txNextByte_eq, apply_ite Ctx.hide]

@[simp] theorem abortTransmission_hide : abortTransmission c.hide = (abortTransmission c).hide := by
  simp [abortTransmission, apply_ite Ctx.hide]

/-! ## The two machines, the pass and the loop: the same progress, the lines hidden before or after -/

theorem rxStep_hide (cl d : Level) : rxStep cl d c.hide = (rxStep cl d c).map Ctx.hide id := by
  rw [rxStep, rxStep, hide_eng]
  cases c.eng.state with
  | init => simp [rxInit, apply_ite (Prod.map Ctx.hide id)]
  | ready => simp [rxReady, apply_ite (Prod.map Ctx.hide id)]
  | eoi => simp [rxEoi, apply_ite (Prod.map Ctx.hide id)]
  | bitWait => simp [rxBitWait, apply_ite (Prod.map Ctx.hide id)]
  | bitDone => simp [rxBitDone, apply_ite (Prod.map Ctx.hide id)]
  | frame =>
    simp only [rxFrame, apply_ite (Prod.map Ctx.hide id)]
    rfl
  | idle | frameWait => rfl

theorem txStep_hide (d : Level) : txStep d c.hide = (txStep d c).map Ctx.hide id := by
  rw [txStep, txStep, hide_eng]
  cases c.eng.state with
  | init => simp [txInit]
  | ready => simp [txReady, apply_ite (Prod.map Ctx.hide id)]
  | eoi => simp [txEoi, apply_ite (Prod.map Ctx.hide id)]
  | bitWait => simp [txBitWait, apply_ite (Prod.map Ctx.hide id)]
  | bitDone => simp [txBitDone, apply_ite (Prod.map Ctx.hide id)]
  | frame => simp [txFrame, apply_ite (Prod.map Ctx.hide id)]
  | frameWait =>
    simp only [txFrameWait, apply_ite (Prod.map Ctx.hide id)]
    rfl
  | idle => rfl

theorem receiveCommand_hide (cl d : Level) : receiveCommand cl d c.hide = (receiveCommand cl d c).map Ctx.hide id := by
  rw [receiveCommand, receiveCommand, rxStep_hide]
  rcases rxStep cl d c with ⟨c', _ | _ | b⟩ <;> simp

theorem advanceWith_hide (a cl d : Level) : advanceWith a cl d c.hide = (advanceWith a cl d c).map Ctx.hide id := by
  rw [advanceWith, advanceWith, hide_eng]
  cases c.eng.mode with
  | idle => simp [modeIdle, apply_ite (Prod.map Ctx.hide id)]
  | command => simp [modeCommand, receiveCommand_hide, apply_ite (Prod.map Ctx.hide id)]
  | secondary => simp [modeSecondary, receiveCommand_hide, apply_ite (Prod.map Ctx.hide id)]
  | data =>
    simp only [modeData, rxStep_hide, apply_ite (Prod.map Ctx.hide id)]
    rcases rxStep cl d c with ⟨c', _ | _ | b⟩ <;> simp
  | turnaround => simp [modeTurnaround, apply_ite (Prod.map Ctx.hide id)]
  | turnHold => simp [modeTurnHold, apply_ite (Prod.map Ctx.hide id)]
  | talker => simp [modeTalker, txStep_hide, apply_ite (Prod.map Ctx.hide id)]
  | wait => simp [modeWait, returnFromWait, apply_ite (Prod.map Ctx.hide id)]

/-- The levels a pass reads are not hidden. -/
theorem advance_hide : advance c.hide = (advance c).map Ctx.hide id := advanceWith_hide c _ _ _

end

theorem runPasses_hide (n : Nat) (c : Ctx) : runPasses n c.hide = (runPasses n c).map Ctx.hide := by
  induction n generalizing c with
  | zero => rfl
  | succ n ih =>
    rw [runPasses, runPasses, advance_hide]
    rcases advance c with ⟨c', _ | _⟩
    · rfl
    · exact ih c'

/-- Contexts that are the same with the two lines hidden are left the same by the loop of passes. -/
theorem runPasses_congr_hide {n : Nat} {c c' x : Ctx} (h : c.hide = c'.hide) (hx : runPasses n c = some x) :
    ∃ x', runPasses n c' = some x' ∧ x.hide = x'.hide := by
  have hmap : (runPasses n c').map Ctx.hide = some x.hide := by
    rw [← runPasses_hide, ← h, runPasses_hide, hx]
    rfl
  obtain ⟨x', hx', heq⟩ := Option.map_eq_some_iff.1 hmap
  exact ⟨x', hx', heq.symm⟩

/-- A tick with an unimplemented bit-clocking mode logs it (60_exceptions.md R196). -/
theorem execTick_unimplemented {e k : Nat} {s : State} {E : Engine} (he : s.engines[e]? = some E)
    (hm : s.cfg.clockModeImplemented = false) :
    execTick e k s = .next { storeCtx e (logEvent .unimplementedClockMode ⟨s.cfg, s.bus, E, s.free⟩) s with
      result := .tick (.cycles s.cfg.tickCycles) } := by
  simp [execTick, loadCtx_of_engine he, hm]

/-- Contexts that are the same with the two lines hidden have the same record and count of free values. -/
theorem Ctx.hide_eq_iff (c c' : Ctx) :
    c.hide = c'.hide ↔ c.cfg = c'.cfg ∧ SameButSrqRst c.bus c'.bus ∧ c.eng = c'.eng ∧ c.free = c'.free := by
  rw [sameButSrqRst_iff, Ctx.hide, Ctx.hide, Ctx.mk.injEq]

end Machine
end Sys2Proof

open Sys2Proof Sys2Proof.Machine

/-- Settles O38: the passes commute with hiding SRQ and RST, so two machines that are the same but for those lines
tick alike. -/
theorem tickDoesNotDependOnSrqOrRst : Obligations.TickDoesNotDependOnSrqOrRst := by
  unfold Obligations.TickDoesNotDependOnSrqOrRst
  intro s s' t e k hcfg hengines hfree _ _ hbus hx
  obtain ⟨E, he, hran⟩ := execTick_next hx
  have he' : s'.engines[e]? = some E := by rw [hengines, he]
  rcases hran with ⟨hclock, rfl⟩ | ⟨hclock, c, hc, rfl⟩
  · refine ⟨_, execTick_unimplemented he' (by rw [hcfg, hclock]), ?_, ?_, ?_, hbus⟩
    · simp [hengines, logEvent]
    · simp [hfree]
    · simp [hcfg]
  · have hstart : (tickStart k s E).hide = (tickStart k s' E).hide :=
      (Ctx.hide_eq_iff _ _).2 ⟨hcfg.symm, hbus, rfl, hfree.symm⟩
    obtain ⟨c', hc', heq⟩ := runPasses_congr_hide hstart hc
    obtain ⟨-, hbus', hE, hfree'⟩ := (Ctx.hide_eq_iff _ _).1 heq
    refine ⟨_, execTick_eq he' (by rw [hcfg, hclock]) hc', ?_, hfree'.symm, ?_, hbus'⟩
    · simp [hE, hengines]
    · simp [hcfg]
end

section
/-! PROOFS. What a whole tick answers (41_mode_dispatcher.md R100, R118), and the ticks that one rule decides: the pass
of the rule, then the pass that finds nothing more to do. -/

namespace Sys2Proof.Machine

/-! ## Every tick -/

theorem execTick_result {e k : Nat} {s t : State} (h : execTick e k s = .next t) :
    t.result = .tick (.cycles s.cfg.tickCycles) := by
  obtain ⟨E, -, ⟨-, rfl⟩ | ⟨-, c, -, rfl⟩⟩ := execTick_next h <;> rfl

/-- What a slot holds of SRQ, ATN and RST after an engine's rules have run. -/
theorem Untouched.own_released_or_same {c c' : Ctx} (h : Untouched c c') {p : Nat} {sl sl' : Slot}
    (hs : c.bus.slots[p]? = some sl) (hs' : c'.bus.slots[p]? = some sl') :
    (sl'.own.srq = .rel ∨ sl'.own.srq = sl.own.srq) ∧ (sl'.own.atn = .rel ∨ sl'.own.atn = sl.own.atn) ∧
      (sl'.own.rst = .rel ∨ sl'.own.rst = sl.own.rst) := by
  obtain ⟨f, hf, hkeeps⟩ := h.lines
  rw [hf, List.getElem?_modify, hs] at hs'
  by_cases hp : c.eng.port = p
  · simp only [hp, if_true, Option.map_eq_map, Option.map_some, Option.some.injEq] at hs'
    subst hs'
    exact hkeeps sl.own
  · simp only [hp, if_false, Option.map_eq_map, Option.map_some, Option.some.injEq] at hs'
    subst hs'
    exact ⟨.inr rfl, .inr rfl, .inr rfl⟩

/-! ## Passes that find nothing to do -/

section
variable {c : Ctx}

theorem advance_idle_rests (hm : c.eng.mode = .idle) (h : ¬ (c.bus.merged.atn = .act ∧ c.bus.merged.clk = .act)) :
    advance c = (c, false) := by
  rw [advance_of_idle hm, modeIdle, if_neg h]

theorem advance_wait_rests (hm : c.eng.mode = .wait) (ha : c.bus.merged.atn = .act) : advance c = (c, false) := by
  rw [advance_of_wait hm, modeWait, if_neg (by simp [ha])]

/-- With CLK active a receiver in state Init goes on waiting (43_byte_rx.md R151). -/
theorem rxStep_init_act {d : Level} (hs : c.eng.state = .init) : rxStep .act d c = (c, .noProgress) := by
  rw [rxStep, hs]
  rfl

theorem advance_command_rests (hm : c.eng.mode = .command) (hs : c.eng.state = .init) (ha : c.bus.merged.atn = .act)
    (hcl : c.bus.merged.clk = .act) : advance c = (c, false) := by
  rw [advance_of_command hm, modeCommand, if_neg (by simp [ha]), receiveCommand, hcl, rxStep_init_act hs]

theorem advance_data_rests (hm : c.eng.mode = .data) (hs : c.eng.state = .init) (ha : c.bus.merged.atn = .rel)
    (hcl : c.bus.merged.clk = .act) : advance c = (c, false) := by
  rw [advance_of_data hm, modeData, if_neg (by simp [ha]), hcl, rxStep_init_act hs]

end

/-! ## Passes that lead to a pass with nothing to do -/

/-- In Idle, ATN and CLK active begin a command cycle, which then waits for CLK (R106). -/
theorem runPasses_idle_joins {c : Ctx} (hw : WiredAnd c.bus) (hm : c.eng.mode = .idle)
    (ha : c.bus.merged.atn = .act) (hcl : c.bus.merged.clk = .act) :
    runPasses 2 c = some (beginRx (setMode .command (setCmd .empty c))) := by
  obtain ⟨hatn, hclk⟩ := beginRx_atn_clk (c := setMode .command (setCmd .empty c)) hw
  have hpass : advance c = (beginRx (setMode .command (setCmd .empty c)), true) := by
    rw [advance_of_idle hm, modeIdle, if_pos ⟨ha, hcl⟩]
  have hrest := advance_command_rests (c := beginRx (setMode .command (setCmd .empty c))) rfl rfl
    (hatn.trans ha) (hclk.trans hcl)
  rw [runPasses_pass hpass, runPasses_stop hrest]

/-- A return to the idle phase ends there, or in Command if ATN and CLK are then both active (R104, R106). -/
theorem runPasses_reinit (c : Ctx) :
    ∃ c', runPasses 2 (reinit c) = some c' ∧ IdleOrJoins c.eng c'.eng c.bus c'.bus ∧ c'.free = c.free := by
  have hreinit := reinit_after c
  by_cases h : (reinit c).bus.merged.atn = .act ∧ (reinit c).bus.merged.clk = .act
  · obtain ⟨ha, hcl⟩ := h
    have hjoin := enterCommand_after (reinit c)
    refine ⟨_, runPasses_idle_joins hreinit.wired rfl ha hcl, ⟨(reinit c).bus, hreinit.lines, ?_⟩, hjoin.free⟩
    exact .inl ⟨ha, hcl, hjoin.eng, hjoin.lines⟩
  · refine ⟨reinit c, runPasses_stop (advance_idle_rests rfl h), ⟨(reinit c).bus, hreinit.lines, ?_⟩, rfl⟩
    exact .inr ⟨h, rfl, rfl⟩

/-- With ATN released a return to the idle phase ends there. -/
theorem runPasses_reinit_rel {c : Ctx} (hw : WiredAnd c.bus) (ha : c.bus.merged.atn = .rel) :
    runPasses 1 (reinit c) = some (reinit c) :=
  runPasses_stop (advance_idle_rests rfl fun h => by simp [reinit_atn_rel hw ha] at h)

/-- A byte completed in mode Data with ATN released and CLK active is collected, and the new reception waits for CLK
(R112). -/
theorem runPasses_collects {c : Ctx} (hw : WiredAnd c.bus) (hm : c.eng.mode = .data) (hs : c.eng.state = .frame)
    (ha : c.bus.merged.atn = .rel) (hcl : c.bus.merged.clk = .act) (ht : c.cfg.tFrameHold ≤ c.eng.time) :
    runPasses 2 c =
      some (beginRx { c with eng := collectedEngine c.eng.tr.value (byteCompleted c.eng) }) := by
  have hpass : advance c = (beginRx { c with eng := collectedEngine c.eng.tr.value (byteCompleted c.eng) }, true) := by
    rw [advance_of_data hm, modeData, if_neg (by simp [ha]), rxStep_delivers hs ht]
    exact congrArg (·, true) (dataByte_eq _ _)
  obtain ⟨hatn, hclk⟩ := beginRx_atn_clk
    (c := { c with eng := collectedEngine c.eng.tr.value (byteCompleted c.eng) }) hw
  have hrest := advance_data_rests (c := beginRx { c with eng := collectedEngine c.eng.tr.value (byteCompleted c.eng) })
    ((collectedEngine_mode _ _).trans hm) rfl (hatn.trans ha) (hclk.trans hcl)
  rw [runPasses_pass hpass, runPasses_stop hrest]

/-! ## What such a tick leaves -/

/-- A tick leaves what its passes leave: the record, the multiplexer, the count of free values, and a result. -/
theorem tickLeft_with_free {e k n : Nat} {s : State} {E : Engine} {c : Ctx} (he : s.engines[e]? = some E)
    (hm : s.cfg.clockModeImplemented = true) (h : runPasses n (tickStart k s E) = some c)
    (hn : n ≤ passLimit := by decide) :
    ∃ t, exec (.tick e k) s = .next { t with free := c.free } ∧ TickLeft e c.eng c.bus s t :=
  ⟨{ s with engines := s.engines.set e c.eng, bus := c.bus, result := .tick (.cycles s.cfg.tickCycles) },
    execTick_eq he hm (runPasses_mono h hn), rfl⟩

theorem tickLeft_of_runPasses {e k n : Nat} {s : State} {E : Engine} {c : Ctx} (he : s.engines[e]? = some E)
    (hm : s.cfg.clockModeImplemented = true) (hfree : c.free = s.free) (h : runPasses n (tickStart k s E) = some c)
    (hn : n ≤ passLimit := by decide) :
    ∃ t, exec (.tick e k) s = .next t ∧ TickLeft e c.eng c.bus s t := by
  obtain ⟨t, hx, hleft⟩ := tickLeft_with_free he hm h hn
  have ht : { t with free := c.free } = t := by rw [hleft, hfree]
  exact ⟨t, ht ▸ hx, hleft⟩

end Sys2Proof.Machine

open Sys2Proof Sys2Proof.Machine

/-- Settles O34: both kinds of tick store TICK_CYCLES. -/
theorem noTickReturnsHalt : Obligations.NoTickReturnsHalt := by
  unfold Obligations.NoTickReturnsHalt
  intro s t e k h
  have hresult := execTick_result h
  exact ⟨hresult, by simp [hresult]⟩

/-- Settles O40: there is no context to load. -/
theorem tickOfNoEngineIsRefused : Obligations.TickOfNoEngineIsRefused := by
  unfold Obligations.TickOfNoEngineIsRefused
  intro s e k h
  show execTick e k s = _
  rw [execTick, loadCtx_none (List.getElem?_eq_none h)]

/-- Settles O37, by what `Untouched` says of the lines. -/
theorem tickNeverPullsSrqAtnOrRst : Obligations.TickNeverPullsSrqAtnOrRst := by
  unfold Obligations.TickNeverPullsSrqAtnOrRst
  intro s t e k p sl sl' h hs hs'
  obtain ⟨E, he, -⟩ := execTick_next h
  obtain ⟨c, hc, rfl⟩ := execTick_stores he h
  exact hc.own_released_or_same hs hs'

/-- Settles O41: one pass into Command and one that waits, or one that finds nothing to do. -/
theorem idleEntersCommandOnAtnAndClk : Obligations.IdleEntersCommandOnAtnAndClk := by
  unfold Obligations.IdleEntersCommandOnAtnAndClk
  intro s e k E he hclock hw hm
  constructor
  · rintro ⟨ha, hcl⟩
    have hrun := runPasses_idle_joins (c := tickStart k s E) hw hm ha hcl
    obtain ⟨t, hx, hleft⟩ := tickLeft_of_runPasses he hclock (by rfl) hrun
    exact ⟨t, _, hx, hleft, (enterCommand_after _).lines⟩
  · intro h
    have hrun := runPasses_stop (n := 0) (advance_idle_rests (c := tickStart k s E) hm h)
    exact tickLeft_of_runPasses he hclock (by rfl) hrun

/-- Settles O42: one pass into Idle and one that finds ATN released, or one that finds nothing to do. -/
theorem waitEndsWhenAtnIsReleased : Obligations.WaitEndsWhenAtnIsReleased := by
  unfold Obligations.WaitEndsWhenAtnIsReleased
  intro s e k E he hclock hw hm
  constructor
  · intro ha
    have hpass : advance (tickStart k s E) = (reinit (tickStart k s E), true) := by
      rw [advance_of_wait hm]
      exact if_pos ha
    have hrun := (runPasses_pass hpass).trans (runPasses_reinit_rel hw ha)
    obtain ⟨t, hx, hleft⟩ := tickLeft_of_runPasses he hclock (by rfl) hrun
    exact ⟨t, _, hx, hleft, (reinit_after _).lines⟩
  · intro ha
    have hrun := runPasses_stop (n := 0) (advance_wait_rests (c := tickStart k s E) hm ha)
    exact tickLeft_of_runPasses he hclock (by rfl) hrun

/-- Settles O43: an abort is a return to the idle phase with at most one call more. -/
theorem abortPushesBackExactlyOnce : Obligations.AbortPushesBackExactlyOnce := by
  unfold Obligations.AbortPushesBackExactlyOnce
  intro s e k E he hclock hw hm ha
  have hpass : advance (tickStart k s E) =
      (abortTransmission (tickStart k s E), true) := by
    rw [advance_of_talker hm]
    exact if_pos ha
  rw [abortTransmission_eq] at hpass
  obtain ⟨c, hrun, hends, hfree⟩ := runPasses_reinit _
  obtain ⟨t, hx, hleft⟩ := tickLeft_of_runPasses he hclock hfree ((runPasses_pass hpass).trans hrun)
  exact ⟨t, c.eng, c.bus, hx, hleft, hends⟩

/-- Settles O47: one pass makes the read and returns to Idle, and the next finds ATN released. -/
theorem emptyStreamGoesStraightToIdle : Obligations.EmptyStreamGoesStraightToIdle := by
  unfold Obligations.EmptyStreamGoesStraightToIdle
  intro s e k E he hclock hw hm ha ht heos
  have hpass : advance (tickStart k s E) =
      (firstByte (tickStart k s E), true) := by
    rw [advance_of_turnHold hm, modeTurnHold, if_neg (by simp [ha]), if_pos ((timeReached_iff _ _).2 ht)]
  rw [firstByte_of_eos heos, readBackend_eq] at hpass
  have hrun := (runPasses_pass hpass).trans (runPasses_reinit_rel hw ha)
  obtain ⟨t, hx, hleft⟩ := tickLeft_with_free he hclock hrun
  exact ⟨t, _, hx, hleft, (reinit_after _).lines⟩

/-- Settles O48: one pass collects the byte and begins a reception, and the next waits for CLK; what the record is then
depends on end-of-information and on the deferred command. -/
theorem dataByteIsCollectedAndExecutedAtItsEnd : Obligations.DataByteIsCollectedAndExecutedAtItsEnd := by
  unfold Obligations.DataByteIsCollectedAndExecutedAtItsEnd
  intro s e k E he hclock hw hm hs ha hcl ht _
  have hrun := runPasses_collects (c := tickStart k s E) hw hm hs ha hcl ht
  obtain ⟨t, hx, hleft⟩ := tickLeft_of_runPasses he hclock (by rfl) hrun
  have hlines := (beginRx_after { tickStart k s E with
    eng := collectedEngine E.tr.value (byteCompleted (tickStart k s E).eng) }).lines
  rw [collectedEngine_port] at hlines
  refine ⟨t, _, hx, hlines, fun hlast => ?_, fun ⟨hlast, hcode⟩ => ?_, fun ⟨hlast, hcode⟩ => ?_,
    fun ⟨hlast, hcode⟩ => ?_⟩
  · simpa [collectedEngine, byteCompleted, hlast, startingReception] using hleft
  all_goals
    simpa [collectedEngine, byteCompleted, deferredCalls, channelOfArg, hlast, hcode, startingReception] using hleft
end

section
/-! PROOFS. The seven commands as instructions (42_commands.md R132 to R140, R143): each is recorded, and then the engine
either waits with its lines let go or begins a reception in Secondary. -/

namespace Sys2Proof.Machine

/-! ## What becomes of the engine -/

theorem afterAddressing_of_passive {c : Ctx} (h : c.eng.role = .passive) : afterAddressing c = toWait c := if_pos h

theorem afterAddressing_of_role {c : Ctx} (h : c.eng.role ≠ .passive) :
    afterAddressing c = beginRx (setMode .secondary c) := if_neg h

section
variable (k : CommandCode) (c : Ctx)

/-- A command after which the engine takes no part: recorded, Passive, Wait (R134 to R136, R143). -/
theorem passiveWait_after (arg : BitVec 5) :
    CtxAfter (waitingEngine { c.eng with cmd := { c.eng.cmd with code := k, arg := arg }, role := .passive }) released c
      (toWait (setRole .passive (recordCommand k arg c))) := toWait_after _

/-- The addressed engine takes the role and holds DAT for the secondary byte (R132, R133, R136). -/
theorem addressed_after {u : BitVec 5} {r : Role} (hr : r ≠ .passive) (hu : u.setWidth 8 = c.eng.unit) :
    CtxAfter (startingReception
        { c.eng with cmd := { c.eng.cmd with code := k, arg := u }, role := r, mode := .secondary }) (withDat .act) c
      (afterAddressing (setRole (roleIfAddressed u r c.eng) (recordCommand k u c))) := by
  have hrole : roleIfAddressed u r c.eng = r := if_pos hu
  rw [hrole, afterAddressing_of_role hr]
  exact beginRx_after _

/-- Every other engine is made Passive, whatever role is given out (R132, R133, R136). -/
theorem notAddressed_after {u : BitVec 5} (r : Role) (hu : u.setWidth 8 ≠ c.eng.unit) :
    CtxAfter (waitingEngine { c.eng with cmd := { c.eng.cmd with code := k, arg := u }, role := .passive }) released c
      (afterAddressing (setRole (roleIfAddressed u r c.eng) (recordCommand k u c))) := by
  have hrole : roleIfAddressed u r c.eng = .passive := if_neg hu
  rw [hrole, afterAddressing_of_passive rfl]
  exact passiveWait_after k c u

/-- A secondary byte is recorded, and the next byte awaited (R140). -/
theorem processSecondary_after (ch : Channel) :
    CtxAfter (startingReception { c.eng with cmd := { c.eng.cmd with code := k, arg := ch.setWidth 5 } }) (withDat .act)
      c (processSecondary k ch c) := beginRx_after _

end

/-! ## OPEN, CLOSE and REOPEN by mode (R131) -/

section
variable {c : Ctx} (ch : Channel)

theorem openAt_of_secondary (hm : c.eng.mode = .secondary) : openAt ch c = processSecondary .openChannel ch c :=
  if_pos hm

theorem reopenAt_of_secondary (hm : c.eng.mode = .secondary) : reopenAt ch c = processSecondary .reopenChannel ch c :=
  if_pos hm

/-- CLOSE is processed like the other two, with its backend call in between (R138). -/
theorem closeAt_after (hm : c.eng.mode = .secondary) :
    CtxAfter (startingReception { c.eng with
        cmd := { c.eng.cmd with code := .closeChannel, arg := ch.setWidth 5 }
        calls := c.eng.calls ++ [.closeCall ch] }) (withDat .act) c (closeAt ch c) := by
  rw [closeAt, if_pos hm]
  exact beginRx_after _

theorem openAt_of_not_secondary (hm : c.eng.mode ≠ .secondary) : openAt ch c = straySecondary .openChannel ch c :=
  if_neg hm

theorem closeAt_of_not_secondary (hm : c.eng.mode ≠ .secondary) : closeAt ch c = straySecondary .closeChannel ch c :=
  if_neg hm

theorem reopenAt_of_not_secondary (hm : c.eng.mode ≠ .secondary) : reopenAt ch c = straySecondary .reopenChannel ch c :=
  if_neg hm

end

/-! ## What becomes of the machine -/

theorem onDispatching_none {f : Ctx → Ctx} {s : State} (hd : s.dispatching = none) :
    onDispatching f s = .refused .noCompletedByte := by
  rw [onDispatching, hd]

section
variable {s : State} {e : Nat} {E : Engine} {i : Instr}

/-- A command as an instruction does to the machine just what it does to the engine that completed its byte. -/
theorem exec_command_ran {E' : Engine} {g : SignalSet → SignalSet} (hd : s.dispatching = some e)
    (he : s.engines[e]? = some E) (hi : i.isCommand = true)
    (h : CtxAfter E' g ⟨s.cfg, s.bus, E, s.free⟩ (runCommand i ⟨s.cfg, s.bus, E, s.free⟩)) :
    ∃ t, exec i s = .next t ∧ CommandRan e E.port E' g s t := by
  rw [exec_command hi]
  exact commandRan_of_after hd he h

/-- LISTEN and TALK at once: a command that gives role `r` to unit `u` and makes every other engine Passive. -/
theorem exec_addressing_ran {k : CommandCode} {r : Role} {u : BitVec 5} (hd : s.dispatching = some e)
    (he : s.engines[e]? = some E) (hi : i.isCommand = true) (hr : r ≠ .passive)
    (hrun : ∀ c, runCommand i c = afterAddressing (setRole (roleIfAddressed u r c.eng) (recordCommand k u c))) :
    ∃ t, exec i s = .next t ∧
      (u.setWidth 8 = E.unit → CommandRan e E.port
        (startingReception { E with cmd := { E.cmd with code := k, arg := u }, role := r, mode := .secondary })
        (withDat .act) s t) ∧
      (u.setWidth 8 ≠ E.unit → CommandRan e E.port
        (waitingEngine { E with cmd := { E.cmd with code := k, arg := u }, role := .passive }) released s t) := by
  by_cases hu : u.setWidth 8 = E.unit
  · obtain ⟨t, hx, hran⟩ := exec_command_ran hd he hi (hrun _ ▸ addressed_after k ⟨s.cfg, s.bus, E, s.free⟩ hr hu)
    exact ⟨t, hx, fun _ => hran, fun hne => absurd hu hne⟩
  · obtain ⟨t, hx, hran⟩ := exec_command_ran hd he hi (hrun _ ▸ notAddressed_after k ⟨s.cfg, s.bus, E, s.free⟩ r hu)
    exact ⟨t, hx, fun heq => absurd heq hu, fun _ => hran⟩

/-- A secondary command processed without a backend call records its channel and awaits the next byte (R140). -/
theorem exec_processSecondary_ran {k : CommandCode} {ch : Channel} (hd : s.dispatching = some e)
    (he : s.engines[e]? = some E) (hi : i.isCommand = true)
    (hrun : runCommand i ⟨s.cfg, s.bus, E, s.free⟩ = processSecondary k ch ⟨s.cfg, s.bus, E, s.free⟩) :
    ∃ t, exec i s = .next t ∧ CommandRan e E.port
      (startingReception { E with cmd := { E.cmd with code := k, arg := ch.setWidth 5 } }) (withDat .act) s t :=
  exec_command_ran hd he hi (hrun ▸ processSecondary_after k _ ch)

/-- A secondary command with no address before it is recorded and leaves the engine Passive in Wait (R143). -/
theorem exec_straySecondary_ran {k : CommandCode} {ch : Channel} (hd : s.dispatching = some e)
    (he : s.engines[e]? = some E) (hi : i.isCommand = true)
    (hrun : runCommand i ⟨s.cfg, s.bus, E, s.free⟩ = straySecondary k ch ⟨s.cfg, s.bus, E, s.free⟩) :
    ∃ t, exec i s = .next t ∧ CommandRan e E.port
      (waitingEngine { E with cmd := { E.cmd with code := k, arg := ch.setWidth 5 }, role := .passive }) released s t :=
  exec_command_ran hd he hi (hrun ▸ passiveWait_after k _ _)

end

end Sys2Proof.Machine

open Sys2Proof Sys2Proof.Machine

/-- Settles O23: LISTEN is the addressing that gives out the role Listener. -/
theorem listenAssignsTheRole : Obligations.ListenAssignsTheRole := by
  unfold Obligations.ListenAssignsTheRole
  intro s e E u hd he
  exact exec_addressing_ran hd he rfl (by decide) fun _ => rfl

/-- Settles O24: TALK is the addressing that gives out the role Talker. -/
theorem talkAssignsTheRole : Obligations.TalkAssignsTheRole := by
  unfold Obligations.TalkAssignsTheRole
  intro s e E u hd he
  exact exec_addressing_ran hd he rfl (by decide) fun _ => rfl

/-- Settles O25: addressing that leaves the engine Passive takes it to Wait. -/
theorem unlistenMakesPassive : Obligations.UnlistenMakesPassive := by
  unfold Obligations.UnlistenMakesPassive
  intro s e E hd he
  exact exec_command_ran hd he rfl (passiveWait_after .unlisten _ 31)

/-- Settles O26: the same for UNTALK. -/
theorem untalkMakesPassive : Obligations.UntalkMakesPassive := by
  unfold Obligations.UntalkMakesPassive
  intro s e E hd he
  exact exec_command_ran hd he rfl (passiveWait_after .untalk _ 31)

/-- Settles O27: in mode Secondary both are `process_secondary` alone. -/
theorem openAndReopenRecordTheChannel : Obligations.OpenAndReopenRecordTheChannel := by
  unfold Obligations.OpenAndReopenRecordTheChannel
  intro s e E ch hd he hm
  constructor
  · exact exec_processSecondary_ran hd he rfl (openAt_of_secondary ch hm)
  · exact exec_processSecondary_ran hd he rfl (reopenAt_of_secondary ch hm)

/-- Settles O28: in mode Secondary the backend call stands between the recording and the new reception. -/
theorem closeCallsTheBackendAtOnce : Obligations.CloseCallsTheBackendAtOnce := by
  unfold Obligations.CloseCallsTheBackendAtOnce
  intro s e E ch hd he hm
  exact exec_command_ran hd he rfl (closeAt_after ch hm)

/-- Settles O29: mode Command is not Secondary, so all three are `stray_secondary`. -/
theorem straySecondaryIsNotObeyed : Obligations.StraySecondaryIsNotObeyed := by
  unfold Obligations.StraySecondaryIsNotObeyed
  intro s e E ch hd he hm
  have hne : E.mode ≠ .secondary := by simp [hm]
  refine ⟨?_, ?_, ?_⟩
  · exact exec_straySecondary_ran hd he rfl (openAt_of_not_secondary ch hne)
  · exact exec_straySecondary_ran hd he rfl (closeAt_of_not_secondary ch hne)
  · exact exec_straySecondary_ran hd he rfl (reopenAt_of_not_secondary ch hne)

/-- Settles O30: every command asks first which engine has completed a byte. -/
theorem commandWithoutACompletedByteIsRefused : Obligations.CommandWithoutACompletedByteIsRefused := by
  unfold Obligations.CommandWithoutACompletedByteIsRefused
  intro s i hi hd
  rw [exec_command hi, onDispatching_none hd]
end

section
/-! PROOFS. One step of the receive machine, state by state (43_byte_rx.md R151 to R155, R157): which clause of the rule
the level of CLK and the time select, and what that clause leaves of the engine's record and lines. -/

namespace Sys2Proof.Machine

theorem not_timeReached {E : Engine} {n : Nat} (h : E.time < n) : ¬ timeReached E n = true := by
  rw [timeReached_iff]
  exact Nat.not_le.2 h

/-- Entering a handshake state restarts the time and leaves the lines alone. -/
theorem CtxAfter.setState {E : Engine} {f : SignalSet → SignalSet} {c c' : Ctx} (h : CtxAfter E f c c')
    (s : Handshake) : CtxAfter { E with state := s, time := 0 } f c (setState s c') :=
  ⟨congrArg (fun E => { E with state := s, time := 0 }) h.eng, h.lines, h.cfg, h.free⟩

section
variable {c : Ctx} {cl d : Level}

/-! ## The rule of each state (R158) -/

theorem rxStep_of_init (hs : c.eng.state = .init) : rxStep cl d c = rxInit cl c := by rw [rxStep, hs]

theorem rxStep_of_ready (hs : c.eng.state = .ready) : rxStep cl d c = rxReady cl c := by rw [rxStep, hs]

theorem rxStep_of_eoi (hs : c.eng.state = .eoi) : rxStep cl d c = rxEoi cl c := by rw [rxStep, hs]

theorem rxStep_of_bitWait (hs : c.eng.state = .bitWait) : rxStep cl d c = rxBitWait cl d c := by rw [rxStep, hs]

theorem rxStep_of_bitDone (hs : c.eng.state = .bitDone) : rxStep cl d c = rxBitDone cl c := by rw [rxStep, hs]

theorem rxStep_of_frame (hs : c.eng.state = .frame) : rxStep cl d c = rxFrame c := by rw [rxStep, hs]

/-! ## Init, Ready and Eoi -/

/-- The sender is ready to send (R151). -/
theorem rxStep_init_rel (hs : c.eng.state = .init) :
    rxStep .rel d c = (setState .ready (drive .dat .rel c), .progress) := by
  rw [rxStep_of_init hs, rxInit, if_pos rfl]

/-- The first clock pulse (R152). -/
theorem rxStep_ready_act (hs : c.eng.state = .ready) : rxStep .act d c = (setState .bitWait c, .progress) := by
  rw [rxStep_of_ready hs, rxReady, if_pos rfl]

theorem rxStep_ready_waits (hs : c.eng.state = .ready) (ht : c.eng.time < c.cfg.tEoi) :
    rxStep .rel d c = (c, .noProgress) := by
  rw [rxStep_of_ready hs, rxReady, if_neg (by decide), if_neg (not_timeReached ht)]

/-- End-of-information: no clock pulse for `T_EOI` (R152). -/
theorem rxStep_ready_eoi (hs : c.eng.state = .ready) (ht : c.cfg.tEoi ≤ c.eng.time) :
    rxStep .rel d c = (setState .eoi (drive .dat .act (setTr (markLast c.eng.tr) c)), .progress) := by
  rw [rxStep_of_ready hs, rxReady, if_neg (by decide), if_pos ((timeReached_iff _ _).2 ht)]

/-- The acknowledge is held whatever CLK does (R153). -/
theorem rxStep_eoi_holds (hs : c.eng.state = .eoi) (ht : c.eng.time < c.cfg.tEoiAck) :
    rxStep cl d c = (c, .noProgress) := by
  rw [rxStep_of_eoi hs, rxEoi, if_neg (not_timeReached ht)]

theorem rxStep_eoi_act (hs : c.eng.state = .eoi) (ht : c.cfg.tEoiAck ≤ c.eng.time) :
    rxStep .act d c = (setState .bitWait (drive .dat .rel c), .progress) := by
  rw [rxStep_of_eoi hs, rxEoi, if_pos ((timeReached_iff _ _).2 ht), if_pos rfl]

/-- The release of DAT alone is no progress (R153). -/
theorem rxStep_eoi_rel (hs : c.eng.state = .eoi) (ht : c.cfg.tEoiAck ≤ c.eng.time) :
    rxStep .rel d c = (drive .dat .rel c, .noProgress) := by
  rw [rxStep_of_eoi hs, rxEoi, if_pos ((timeReached_iff _ _).2 ht), if_neg (by decide)]

/-! ## BitWait, BitDone and Frame -/

theorem rxStep_bitWait_act (hs : c.eng.state = .bitWait) : rxStep .act d c = (c, .noProgress) := by
  rw [rxStep_of_bitWait hs, rxBitWait, if_neg (by decide)]

/-- One bit is sampled (R154). -/
theorem rxStep_bitWait_rel (hs : c.eng.state = .bitWait) :
    rxStep .rel d c = (setState .bitDone (setTr { c.eng.tr with
      value := sampleBit c.eng.tr.value c.eng.tr.cursor d, cursor := c.eng.tr.cursor + 1 } c), .progress) := by
  rw [rxStep_of_bitWait hs, rxBitWait, if_pos rfl]

/-- After the eighth bit the frame is acknowledged (R155). -/
theorem rxStep_bitDone_frame (hs : c.eng.state = .bitDone) (hk : c.eng.tr.cursor = 8) :
    rxStep .act d c = (setState .frame (drive .dat .act c), .progress) := by
  rw [rxStep_of_bitDone hs, rxBitDone, if_pos rfl, if_pos hk]

theorem rxStep_bitDone_next (hs : c.eng.state = .bitDone) (hk : c.eng.tr.cursor ≠ 8) :
    rxStep .act d c = (setState .bitWait c, .progress) := by
  rw [rxStep_of_bitDone hs, rxBitDone, if_pos rfl, if_neg hk]

theorem rxStep_bitDone_waits (hs : c.eng.state = .bitDone) (ht : c.eng.time < c.cfg.tBitDoneTimeout) :
    rxStep .rel d c = (c, .noProgress) := by
  rw [rxStep_of_bitDone hs, rxBitDone, if_neg (by decide), if_neg (not_timeReached ht)]

/-- The frame acknowledge is held whatever the lines do (R157); `rxStep_delivers` says how it ends. -/
theorem rxStep_frame_holds (hs : c.eng.state = .frame) (ht : c.eng.time < c.cfg.tFrameHold) :
    rxStep cl d c = (c, .noProgress) := by
  rw [rxStep_of_frame hs, rxFrame, if_neg (not_timeReached ht)]

end

/-- What the receiver leaves at end-of-information: the byte marked last and DAT held (R152). -/
theorem endOfInformation_after (c : Ctx) :
    CtxAfter { c.eng with state := .eoi, time := 0, tr := { c.eng.tr with last := true } } (withDat .act) c
      (setState .eoi (drive .dat .act (setTr (markLast c.eng.tr) c))) :=
  ⟨rfl, (driveDat_after .act c).lines, rfl, rfl⟩

end Sys2Proof.Machine

open Sys2Proof Sys2Proof.Machine

/-- Settles O53, state by state: the clause of the rule that runs, and what it leaves. -/
theorem receiverHandshakeBeforeTheBits : Obligations.ReceiverHandshakeBeforeTheBits := by
  unfold Obligations.ReceiverHandshakeBeforeTheBits
  intro c d
  refine ⟨fun hinit => ⟨?_, rxStep_init_act hinit⟩, fun hready => ⟨rxStep_ready_act hready, ?_, ?_⟩,
    fun heoi => ⟨?_, ?_⟩⟩
  · exact ⟨_, rxStep_init_rel hinit, (driveDat_after .rel c).setState .ready⟩
  · exact rxStep_ready_waits hready
  · exact fun ht => ⟨_, rxStep_ready_eoi hready ht, endOfInformation_after c⟩
  · exact fun ht => ⟨rxStep_eoi_holds heoi ht, rxStep_eoi_holds heoi ht⟩
  · intro ht
    constructor
    · exact ⟨_, rxStep_eoi_act heoi ht, (driveDat_after .rel c).setState .bitWait⟩
    · exact ⟨_, rxStep_eoi_rel heoi ht, driveDat_after .rel c⟩

/-- Settles O54, state by state: the byte after the sample is the model's `sampleBit`, known bit by bit. -/
theorem receiverSamplesEightBitsAndDelivers : Obligations.ReceiverSamplesEightBitsAndDelivers := by
  unfold Obligations.ReceiverSamplesEightBitsAndDelivers
  intro c d
  refine ⟨fun hwait _ => ⟨rxStep_bitWait_act hwait, ?_⟩, fun hdone => ⟨?_, ?_, ?_⟩, fun hframe => ⟨?_, ?_⟩⟩
  · exact ⟨_, fun j hj => sampleBit_getLsbD _ _ j d hj, rxStep_bitWait_rel hwait⟩
  · exact fun hk => ⟨_, rxStep_bitDone_frame hdone hk, (driveDat_after .act c).setState .frame⟩
  · exact rxStep_bitDone_next hdone
  · exact rxStep_bitDone_waits hdone
  · exact fun ht _ => rxStep_frame_holds hframe ht
  · exact fun ht _ => rxStep_delivers hframe ht
end

section
/-! PROOFS. One step of the transmit machine, state by state (44_byte_tx.md R172 to R179): which clause of the rule the
level of DAT and the time select, and what that clause leaves of the engine's record and lines. What `put_bit` shows on
the bus (R171). -/

namespace Sys2Proof.Machine

section
variable {c : Ctx} {d : Level}

/-! ## The rule of each state (R180) -/

theorem txStep_of_init (hs : c.eng.state = .init) : txStep d c = txInit c := by rw [txStep, hs]

theorem txStep_of_ready (hs : c.eng.state = .ready) : txStep d c = txReady d c := by rw [txStep, hs]

theorem txStep_of_eoi (hs : c.eng.state = .eoi) : txStep d c = txEoi d c := by rw [txStep, hs]

theorem txStep_of_bitWait (hs : c.eng.state = .bitWait) : txStep d c = txBitWait c := by rw [txStep, hs]

theorem txStep_of_bitDone (hs : c.eng.state = .bitDone) : txStep d c = txBitDone c := by rw [txStep, hs]

theorem txStep_of_frame (hs : c.eng.state = .frame) : txStep d c = txFrame d c := by rw [txStep, hs]

theorem txStep_of_frameWait (hs : c.eng.state = .frameWait) : txStep d c = txFrameWait c := by rw [txStep, hs]

/-! ## Ready and Eoi -/

/-- The listener is not ready for data (R173). -/
theorem txStep_ready_act (hs : c.eng.state = .ready) : txStep .act c = (c, false) := by
  rw [txStep_of_ready hs, txReady, if_neg (by decide)]

/-- Before the last byte the lines are left alone: CLK released is the signal (R173). -/
theorem txStep_ready_last (hs : c.eng.state = .ready) (hl : c.eng.tr.last = true) :
    txStep .rel c = (setState .eoi c, true) := by
  rw [txStep_of_ready hs, txReady, if_pos rfl, if_pos hl]

theorem txStep_ready_first_bit (hs : c.eng.state = .ready) (hl : c.eng.tr.last = false) :
    txStep .rel c = (putBit c, true) := by
  rw [txStep_of_ready hs, txReady, if_pos rfl, if_neg (by simp [hl])]

/-- The acknowledge of end-of-information has not passed (R174). -/
theorem txStep_eoi_act (hs : c.eng.state = .eoi) : txStep .act c = (c, false) := by
  rw [txStep_of_eoi hs, txEoi, if_neg (by simp)]

theorem txStep_eoi_holds (hs : c.eng.state = .eoi) (ht : c.eng.time < c.cfg.tEoiHold) : txStep d c = (c, false) := by
  rw [txStep_of_eoi hs, txEoi, if_neg (by simp [not_timeReached ht])]

theorem txStep_eoi_first_bit (hs : c.eng.state = .eoi) (ht : c.cfg.tEoiHold ≤ c.eng.time) :
    txStep .rel c = (putBit c, true) := by
  rw [txStep_of_eoi hs, txEoi, if_pos (by simp [(timeReached_iff _ _).2 ht])]

/-! ## BitWait, BitDone and FrameWait: DAT is not read -/

theorem txStep_bitWait_holds (hs : c.eng.state = .bitWait) (ht : c.eng.time < c.cfg.tSetup) :
    txStep d c = (c, false) := by
  rw [txStep_of_bitWait hs, txBitWait, if_neg (not_timeReached ht)]

/-- The clock edge that makes the bit valid (R175). -/
theorem txStep_bitWait_edge (hs : c.eng.state = .bitWait) (ht : c.cfg.tSetup ≤ c.eng.time) :
    txStep d c = (setState .bitDone (drive .clk .rel c), true) := by
  rw [txStep_of_bitWait hs, txBitWait, if_pos ((timeReached_iff _ _).2 ht)]

theorem txStep_bitDone_holds (hs : c.eng.state = .bitDone) (ht : c.eng.time < c.cfg.tValid) :
    txStep d c = (c, false) := by
  rw [txStep_of_bitDone hs, txBitDone, if_neg (not_timeReached ht)]

theorem txStep_bitDone_next (hs : c.eng.state = .bitDone) (ht : c.cfg.tValid ≤ c.eng.time)
    (hk : c.eng.tr.cursor + 1 < 8) : txStep d c = (putBit (bumpCursor c), true) := by
  rw [txStep_of_bitDone hs, txBitDone, if_pos ((timeReached_iff _ _).2 ht), if_pos hk]

/-- After the eighth bit the sender awaits the frame acknowledge (R176). -/
theorem txStep_bitDone_frame (hs : c.eng.state = .bitDone) (ht : c.cfg.tValid ≤ c.eng.time)
    (hk : 8 ≤ c.eng.tr.cursor + 1) :
    txStep d c = (setState .frame (drive .dat .rel (drive .clk .act (bumpCursor c))), true) := by
  rw [txStep_of_bitDone hs, txBitDone, if_pos ((timeReached_iff _ _).2 ht), if_neg (Nat.not_lt.2 hk)]

theorem txStep_frameWait_holds (hs : c.eng.state = .frameWait) (ht : c.eng.time < c.cfg.tBb) :
    txStep d c = (c, false) := by
  rw [txStep_of_frameWait hs, txFrameWait, if_neg (not_timeReached ht)]

/-- The gap between bytes is over (R179). -/
theorem txStep_frameWait_ends (hs : c.eng.state = .frameWait) (ht : c.cfg.tBb ≤ c.eng.time) :
    txStep d c = (setState .init c, true) := by
  rw [txStep_of_frameWait hs, txFrameWait, if_pos ((timeReached_iff _ _).2 ht)]

/-! ## Frame acknowledged: the last byte, another byte, the end of the stream -/

/-- The last byte is acknowledged: nothing more is read (R178). -/
theorem txStep_frame_last (hs : c.eng.state = .frame) (hl : c.eng.tr.last = true) :
    txStep .act c = (reinit (setTr (markReady c.eng.tr) c), true) := by
  rw [txStep_of_frame hs, txFrame, if_pos rfl, if_pos hl]

theorem txStep_frame_fetches (hs : c.eng.state = .frame) (hl : c.eng.tr.last = false) :
    txStep .act c = (txNextByte (setTr (markReady c.eng.tr) c), true) := by
  rw [txStep_of_frame hs, txFrame, if_pos rfl, if_neg (by simp [hl])]

/-- The read says that the stream has ended (R183). -/
theorem txNextByte_of_eos (h : (c.eng.answers.head?.getD (Config.freeAnswer c.free)).eos = true) :
    txNextByte c = reinit (readBackend (channelOfArg c.eng.cmd.arg) c).2 := by
  rw [txNextByte_eq, if_pos (by rwa [readBackend_eq])]

/-- The read brings the next byte (R178, R170). -/
theorem txNextByte_of_byte (h : (c.eng.answers.head?.getD (Config.freeAnswer c.free)).eos = false) :
    txNextByte c = setState .frameWait (setTr (txLoad (c.eng.answers.head?.getD (Config.freeAnswer c.free)))
      (readBackend (channelOfArg c.eng.cmd.arg) c).2) := by
  rw [txNextByte_eq, if_neg (by rw [readBackend_eq]; simp [h]), readBackend_eq]

end

/-! ## What a step leaves -/

/-- The eighth bit is over: CLK is pulled before DAT is let go (R176). -/
theorem endOfByte_after (c : Ctx) :
    CtxAfter { c.eng with state := .frame, time := 0, tr := { c.eng.tr with cursor := c.eng.tr.cursor + 1 } }
      (fun v => withDat .rel (withClk .act v)) c
      (setState .frame (drive .dat .rel (drive .clk .act (bumpCursor c)))) :=
  ⟨rfl, ((driveClk_after .act (bumpCursor c)).trans (driveDat_after .rel _) rfl).lines, rfl, rfl⟩

/-- The next bit is presented: `put_bit` with the cursor moved on (R176). -/
theorem putBit_bumpCursor_after (c : Ctx) :
    CtxAfter { c.eng with state := .bitWait, time := 0, tr := { c.eng.tr with cursor := c.eng.tr.cursor + 1 } }
      (fun v => withDat (Level.ofBit (bitAt c.eng.tr.value (c.eng.tr.cursor + 1))) (withClk .act v)) c
      (putBit (bumpCursor c)) := putBit_after (bumpCursor c)

/-- Marking the byte ready is undone by the return to the idle phase (R178, R104). -/
theorem reinit_markReady_after (c : Ctx) :
    CtxAfter (idleEngine c.eng) released c (reinit (setTr (markReady c.eng.tr) c)) := reinit_after _

end Sys2Proof.Machine

open Sys2Proof Sys2Proof.Machine

/-- Settles O56: CLK is pulled through an attached slot, and DAT is the sender's own level wired with the others'. -/
theorem putBitShowsTheBitOnTheBus : Obligations.PutBitShowsTheBitOnTheBus := by
  unfold Obligations.PutBitShowsTheBitOnTheBus
  intro c sl hs hatt hothers
  have hlines := (putBit_after c).lines
  refine ⟨hlines.act_of_pulled (l := .clk) hs hatt rfl, ?_, putBit_eng c⟩
  calc (putBit c).bus.merged.dat = .rel
      ↔ Level.ofBit (bitAt c.eng.tr.value c.eng.tr.cursor) = .rel ∧ _ := hlines.merged_eq_rel hs hatt .dat
    _ ↔ Level.ofBit (bitAt c.eng.tr.value c.eng.tr.cursor) = .rel := and_iff_left hothers
    _ ↔ c.eng.tr.value.getLsbD c.eng.tr.cursor = true := Level.ofBit_eq_rel _

/-- Settles O57, state by state: the clause of the rule that runs, and what it leaves. -/
theorem senderHandshakeAndTimes : Obligations.SenderHandshakeAndTimes := by
  unfold Obligations.SenderHandshakeAndTimes
  intro c d
  refine ⟨fun hinit => ?_, fun hready => ⟨txStep_ready_act hready, ?_, ?_⟩,
    fun heoi => ⟨txStep_eoi_act heoi, ?_, ?_⟩, fun hwait => ⟨?_, ?_⟩, fun hgap => ⟨?_, ?_⟩⟩
  · exact ⟨_, txStep_of_init hinit, (driveClk_after .rel c).setState .ready⟩
  · exact txStep_ready_last hready
  · exact fun hl => ⟨_, txStep_ready_first_bit hready hl, putBit_after c⟩
  · exact txStep_eoi_holds heoi
  · exact fun ht => ⟨_, txStep_eoi_first_bit heoi ht, putBit_after c⟩
  · exact txStep_bitWait_holds hwait
  · exact fun ht => ⟨_, txStep_bitWait_edge hwait ht, (driveClk_after .rel c).setState .bitDone⟩
  · exact txStep_frameWait_holds hgap
  · exact txStep_frameWait_ends hgap

/-- Settles O58: before `T_VALID`, below the eighth bit, and at it. -/
theorem senderMovesToTheNextBitOrEndsTheByte : Obligations.SenderMovesToTheNextBitOrEndsTheByte := by
  unfold Obligations.SenderMovesToTheNextBitOrEndsTheByte
  intro c d hdone
  refine ⟨?_, ?_, ?_⟩
  · exact txStep_bitDone_holds hdone
  · exact fun ht hk => ⟨_, txStep_bitDone_next hdone ht hk, putBit_bumpCursor_after c⟩
  · exact fun ht hk => ⟨_, txStep_bitDone_frame hdone ht hk, endOfByte_after c⟩

/-- Settles O59: the last byte ends the transmission; after any other the one read's answer decides. -/
theorem frameAcknowledgeFetchesTheNextByte : Obligations.FrameAcknowledgeFetchesTheNextByte := by
  unfold Obligations.FrameAcknowledgeFetchesTheNextByte
  rintro c r hs rfl
  refine ⟨fun hl => ?_, fun hl hr => ?_, fun hl hr => ?_⟩
  · exact ⟨_, txStep_frame_last hs hl, reinit_markReady_after c⟩
  · rw [txStep_frame_fetches hs hl, txNextByte_of_byte (c := setTr (markReady c.eng.tr) c) hr, readBackend_eq]
    exact ⟨_, rfl⟩
  · have hidle := reinit_after (readBackend (channelOfArg c.eng.cmd.arg) (setTr (markReady c.eng.tr) c)).2
    rw [readBackend_eq] at hidle
    rw [txStep_frame_fetches hs hl, txNextByte_of_eos (c := setTr (markReady c.eng.tr) c) hr, readBackend_eq]
    exact ⟨_, rfl, hidle.lines, hidle.cfg, hidle.eng⟩
end

section
/-! PROOFS. The error conditions of 60_exceptions.md as whole ticks: the pass that takes one logs it and lets the lines
go, and the pass after it finds the engine at rest in Wait or Idle (R192, R193, R195, R200). What no tick reaches (R208),
the tick with an unimplemented bit-clocking mode (R196), and the step with nothing to do (R210). -/

namespace Sys2Proof.Machine

/-! ## What a tick does not reach (R208) -/

/-- A change of one entry that a reading does not see leaves the readings of the list as they were. -/
theorem map_modify_of_unseen {α β : Type} {f : α → α} {g : α → β} (h : ∀ a, g (f a) = g a) (xs : List α)
    (p : Nat) : (xs.modify p f).map g = xs.map g := by
  refine List.ext_getElem? fun i => ?_
  rw [List.getElem?_map, List.getElem?_map, List.getElem?_modify]
  by_cases hp : p = i <;> cases xs[i]? <;> simp [hp, h]

section
variable {c c' : Ctx}

theorem Untouched.other_slots (h : Untouched c c') {q : Nat} (hq : q ≠ c.eng.port) :
    c'.bus.slots[q]? = c.bus.slots[q]? := by
  obtain ⟨f, hf, -⟩ := h.lines
  rw [hf, List.getElem?_modify_ne _ _ hq.symm]

/-- The engine drives its lines and registers nobody. -/
theorem Untouched.registrations (h : Untouched c c') :
    c'.bus.slots.map (fun sl => (sl.attached, sl.unit)) = c.bus.slots.map (fun sl => (sl.attached, sl.unit)) := by
  obtain ⟨f, hf, -⟩ := h.lines
  rw [hf]
  exact map_modify_of_unseen (fun _ => by rfl) _ _

end

/-! ## The pass that takes an error condition -/

section
variable {c : Ctx}

/-- No acknowledgement within `T_FRAME_TIMEOUT` (44_byte_tx.md R177). -/
theorem txStep_frame_timeout (hs : c.eng.state = .frame) (ht : c.cfg.tFrameTimeout ≤ c.eng.time) :
    txStep .rel c = (raiseEvent .frameTimeout .idle c, true) := by
  rw [txStep_of_frame hs, txFrame, if_neg (by decide), if_pos ((timeReached_iff _ _).2 ht)]

theorem advance_frame_timeout (hm : c.eng.mode = .talker) (hs : c.eng.state = .frame) (ha : c.bus.merged.atn = .rel)
    (hd : c.bus.merged.dat = .rel) (ht : c.cfg.tFrameTimeout ≤ c.eng.time) :
    advance c = (raiseEvent .frameTimeout .idle c, true) := by
  rw [advance_of_talker hm, modeTalker, if_neg (by simp [ha]), hd, txStep_frame_timeout hs ht]

/-- CLK left released for `T_BITDONE_TIMEOUT` after a bit (43_byte_rx.md R156). -/
theorem rxStep_bitDone_timeout {d : Level} (hs : c.eng.state = .bitDone) (ht : c.cfg.tBitDoneTimeout ≤ c.eng.time) :
    rxStep .rel d c = (raiseEvent .bitDoneTimeout .wait c, .progress) := by
  rw [rxStep_of_bitDone hs, rxBitDone, if_neg (by decide), if_pos ((timeReached_iff _ _).2 ht)]

/-- The livelock time-out is the same in all three receiving modes: the receive machine runs in each, in Command and
Secondary since the byte has begun, in Data since CLK is released (R107, R109, R111). -/
theorem advance_bitDone_timeout (hm : c.eng.mode = .command ∨ c.eng.mode = .secondary ∨ c.eng.mode = .data)
    (hs : c.eng.state = .bitDone) (hcl : c.bus.merged.clk = .rel) (ht : c.cfg.tBitDoneTimeout ≤ c.eng.time) :
    advance c = (raiseEvent .bitDoneTimeout .wait c, true) := by
  rcases hm with hm | hm | hm
  · rw [advance_of_command hm, modeCommand, if_neg (by simp [hs]), receiveCommand, hcl, rxStep_bitDone_timeout hs ht]
  · rw [advance_of_secondary hm, modeSecondary, if_neg (by simp [hs]), receiveCommand, hcl, rxStep_bitDone_timeout hs ht]
  · rw [advance_of_data hm, modeData, if_neg (by simp [hcl]), hcl, rxStep_bitDone_timeout hs ht]

/-- A byte that is no command is logged with its value (42_commands.md R142). -/
theorem dispatchCommandByte_invalid {b : Byte} (hb : b.toNat < 0x20 ∨ 0x70 ≤ b.toNat ∧ b.toNat ≤ 0xDF) :
    dispatchCommandByte b c = raiseEvent (.invalidCommand b) .wait c := by
  rw [dispatchCommandByte, decodeCommand_invalid hb]
  rfl

/-! ## The landing in Wait -/

theorem advance_wait_leaves (hm : c.eng.mode = .wait) (ha : c.bus.merged.atn = .rel) : advance c = (reinit c, true) := by
  rw [advance_of_wait hm, modeWait, if_pos ha]
  rfl

end

/-- A fall-back to Wait ends there while ATN is active, and in Idle if ATN is then released (R105, R110). -/
theorem runPasses_toWait (c : Ctx) :
    ∃ c', runPasses 2 (toWait c) = some c' ∧ WaitsOrIdles c.eng c'.eng c.bus c'.bus ∧ c'.free = c.free := by
  have hwait := toWait_after c
  rcases Level.act_or_rel (toWait c).bus.merged.atn with ha | ha
  · have hrest := advance_wait_rests (c := toWait c) rfl ha
    exact ⟨toWait c, runPasses_stop hrest, ⟨hwait.lines, .inl ⟨ha, rfl⟩⟩, rfl⟩
  · have hrun : runPasses 2 (toWait c) = some (reinit (toWait c)) :=
      (runPasses_pass (advance_wait_leaves rfl ha)).trans (runPasses_reinit_rel hwait.wired ha)
    have hlines : LinesAfter c.eng.port released c.bus (reinit (toWait c)).bus :=
      hwait.lines.trans (reinit_after (toWait c)).lines
    have hidle : (reinit (toWait c)).bus.merged.atn = .rel := reinit_atn_rel hwait.wired ha
    exact ⟨reinit (toWait c), hrun, ⟨hlines, .inr ⟨hidle, by simp [waitingEngine, idleEngine]⟩⟩, by simp⟩

/-- A tick whose first pass takes an error condition that lands in Wait, with the lines not touched before. -/
theorem tickLeft_of_raiseEvent_wait {e k : Nat} {s : State} {E : Engine} {ev : Event} {c : Ctx}
    (he : s.engines[e]? = some E) (hclock : s.cfg.clockModeImplemented = true)
    (h : advance (tickStart k s E) = (raiseEvent ev .wait c, true)) (hbus : c.bus = s.bus) (hfree : c.free = s.free) :
    ∃ (t : State) (E' : Engine) (b' : Bus), exec (.tick e k) s = .next t ∧ TickLeft e E' b' s t ∧
      WaitsOrIdles { c.eng with log := c.eng.log ++ [ev] } E' s.bus b' := by
  obtain ⟨c', hrun, hends, hfree'⟩ := runPasses_toWait (logEvent ev c)
  obtain ⟨t, hx, hleft⟩ := tickLeft_of_runPasses he hclock (hfree'.trans hfree) ((runPasses_pass h).trans hrun)
  exact ⟨t, c'.eng, c'.bus, hx, hleft, hbus ▸ hends⟩

/-! ## A step with nothing to do (R210) -/

theorem fetch_nothing {s : State} (hd : s.dispatching = none) (hs : s.schedule = []) : fetch s = .nothing := by
  rw [fetch, hd, hs]

end Sys2Proof.Machine

open Sys2Proof Sys2Proof.Machine

/-- Settles O35: a tick stores one engine's context, in which `Untouched` says what of the multiplexer is left. -/
theorem tickTouchesOneEngineAndItsSlot : Obligations.TickTouchesOneEngineAndItsSlot := by
  unfold Obligations.TickTouchesOneEngineAndItsSlot
  intro s t e k E he h
  obtain ⟨c, hc, rfl⟩ := execTick_stores he h
  refine ⟨List.length_set, fun j hj => ?_, hc.slots_length, fun q hq => ?_, hc.registrations, rfl, rfl, rfl⟩
  · exact List.getElem?_set_ne hj.symm
  · exact hc.other_slots hq

/-- Settles O44: one pass logs and returns to Idle, and the next finds ATN released. -/
theorem frameTimeoutForcesIdle : Obligations.FrameTimeoutForcesIdle := by
  unfold Obligations.FrameTimeoutForcesIdle
  intro s e k E he hclock hw hm hs ha hd ht
  have hpass := advance_frame_timeout (c := tickStart k s E) hm hs ha hd ht
  have hrest := runPasses_reinit_rel (c := logEvent .frameTimeout (tickStart k s E)) hw ha
  obtain ⟨t, hx, hleft⟩ := tickLeft_of_runPasses he hclock (by rfl) ((runPasses_pass hpass).trans hrest)
  exact ⟨t, _, hx, hleft, (reinit_after _).lines⟩

/-- Settles O45: the first pass logs the time-out and falls back to Wait, with the partial byte where it was. -/
theorem bitDoneTimeoutFallsBackToWait : Obligations.BitDoneTimeoutFallsBackToWait := by
  unfold Obligations.BitDoneTimeoutFallsBackToWait
  intro s e k E he hclock _ hm hs hcl ht
  have hpass := advance_bitDone_timeout (c := tickStart k s E) hm hs hcl ht
  exact tickLeft_of_raiseEvent_wait he hclock hpass rfl rfl

/-- Settles O46: the first pass completes the byte, which is no command, logs it and falls back to Wait. -/
theorem invalidByteFallsBackToWait : Obligations.InvalidByteFallsBackToWait := by
  unfold Obligations.InvalidByteFallsBackToWait
  intro s e k E he hclock _ hm hs ht hb
  have hpass := advance_dispatches (c := tickStart k s E) hm hs ht
  rw [dispatchCommandByte_invalid (b := (tickStart k s E).eng.tr.value) hb] at hpass
  exact tickLeft_of_raiseEvent_wait he hclock hpass rfl rfl

/-- Settles O21: `fetch` finds neither a byte nor an operation. -/
theorem stepWithoutAnOperationHoldsTheState : Obligations.StepWithoutAnOperationHoldsTheState := by
  unfold Obligations.StepWithoutAnOperationHoldsTheState
  intro s hd hs
  rw [Sys2Proof.Machine.step, fetch_nothing hd hs]

/-- Settles O33: the engine's record but for the log, the multiplexer and the count of free values are stored back as
they were loaded. -/
theorem unimplementedClockModeTicksAreNoOps : Obligations.UnimplementedClockModeTicksAreNoOps := by
  unfold Obligations.UnimplementedClockModeTicksAreNoOps
  intro s e k E he hclock
  exact execTick_unimplemented he hclock
end

section
/-! PROOFS. RESET (70_reset_and_hazards.md R220): what it leaves of a slot's lines and of an engine's record. -/

namespace Sys2Proof.Machine

theorem own_of_mem_resetSlots {n : Nat} {slots : List Slot} {sl : Slot} (h : sl ∈ resetSlots n slots) :
    sl.own = .allRel := by
  induction slots generalizing n with
  | nil => cases h
  | cons _ rest ih =>
    rcases List.mem_cons.1 h with rfl | hrest
    · rfl
    · exact ih hrest

/-- The power-on record is the record `reinit()` leaves with a new log and call trace (R223): unit, port and the answers
handed in stay in both. -/
theorem resetEngine_eq_idleEngine (E : Engine) : resetEngine E = { idleEngine E with log := [], calls := [] } := rfl

end Sys2Proof.Machine

open Sys2Proof Sys2Proof.Machine

/-- Settles O8: the slots left are those of `resetSlots`, each engine left is its `resetEngine`, and the parameters and
the schedule are not written. -/
theorem resetRestoresThePowerOnState : Obligations.ResetRestoresThePowerOnState := by
  unfold Obligations.ResetRestoresThePowerOnState
  intro s
  have hslots : ∀ sl ∈ resetSlots s.free s.bus.slots, sl.attached = false ∧ sl.own = .allRel :=
    fun _ hsl => ⟨not_attached_of_mem_resetSlots hsl, own_of_mem_resetSlots hsl⟩
  have hengines : s.engines.map resetEngine = s.engines.map (fun E => { idleEngine E with log := [], calls := [] }) :=
    List.map_congr_left fun E _ => resetEngine_eq_idleEngine E
  exact ⟨_, rfl, resetSlots_length _ _, hslots, rfl, hengines, rfl, rfl, rfl, rfl⟩
end
